-- ==== Sys2Proof/Word.lean ====
section
/-! DEFINITION. The words of the QMM engine: bytes of data memory, 64-bit registers, 32-bit dimensions. -/

namespace Sys2Proof

/-- One byte of data memory (20_memory.md R100). -/
abbrev Byte := BitVec 8

/-- The value of one register of the register block (10_state.md R50). -/
abbrev Word := BitVec 64

/-- A dimension register's stored bits 31:0 (10_state.md R59). -/
abbrev Dim := BitVec 32

end Sys2Proof
end

