-- ==== Sys2Proof/Config.lean ====
section
/-! DEFINITION. What is fixed for one engine (00_scope.md R6) and the free values the spec leaves open.

MEM_SIZE, SIMD_LANES, REG_BASE and NUMERICS are the fields of `Params`, so that State can hold them and a run can be
evaluated for any choice of them (log entry 3). NUMERICS is a record of functions (R24), and State holds plain data, so
`Params` names the record: the spec's default one, or one of which nothing is known (log entry 4). Every free value is
a constant without a body. -/

namespace Sys2Proof

/-- The three element types (00_scope.md R3, R13). -/
inductive Fmt where
  | f32
  | f16
  | bf16
  deriving DecidableEq, Repr

/-- A floating-point datum. `fin neg mag` is the real number ±mag · 2^-149: every finite value of f32, f16 and
bf16 is such a multiple. A NaN carries no payload, because no rule tells NaN encodings apart (00_scope.md R15);
its bits are drawn when it is stored (log entry 5). -/
inductive FVal where
  | nan
  | inf (neg : Bool)
  | fin (neg : Bool) (mag : Nat)
  deriving DecidableEq, Repr, Inhabited

/-- The native SIMD width S (00_scope.md R6): one of 1, 2, 4, 8, 16, 32, named by its exponent. -/
inductive SimdLanes where
  | lanes1
  | lanes2
  | lanes4
  | lanes8
  | lanes16
  | lanes32
  deriving DecidableEq, Repr

/-- Which NUMERICS record the machine runs: the spec's default, or record `k` of those that nothing is known about. -/
inductive NumericsChoice where
  | ieee
  | other (k : Nat)
  deriving DecidableEq, Repr

/-- The open parameters of 00_scope.md R6. -/
structure Params where
  /-- MEM_SIZE: bytes of data memory. -/
  memSize : Nat
  /-- SIMD_LANES. -/
  lanes : SimdLanes
  /-- REG_BASE: the host address of the register block. -/
  regBase : Nat
  /-- NUMERICS. -/
  numerics : NumericsChoice
  deriving DecidableEq, Repr

/-- The floating-point primitives of 00_scope.md R14 to R18, each a total function of its operands (R24). -/
structure Primitives where
  /-- `add_F`, `sub_F`, `mul_F`, `div_F` (R14). -/
  add : Fmt → FVal → FVal → FVal
  sub : Fmt → FVal → FVal → FVal
  mul : Fmt → FVal → FVal → FVal
  div : Fmt → FVal → FVal → FVal
  /-- `fma_F` (R14). -/
  fma : Fmt → FVal → FVal → FVal → FVal
  /-- `cvt_F` (R14). -/
  cvt : Fmt → FVal → FVal
  /-- `rint` (R16). -/
  rint : FVal → FVal
  /-- `min32`, `max32` (R17). -/
  min32 : FVal → FVal → FVal
  max32 : FVal → FVal → FVal
  /-- `toU` (R18). -/
  toU : FVal → Nat
  deriving Inhabited

/-- NUMERICS: the floating-point operation record of 00_scope.md R6 and R24. -/
structure Numerics extends Primitives where
  /-- `mac_T(acc, x, code, scale, bias)`; the code as a datum (42_qmm.md R306). -/
  mac : Fmt → FVal → FVal → FVal → FVal → FVal → FVal
  /-- `simd_mac(acc, x, code, sc, bi)` in binary32 (42_qmm.md R316). -/
  simdMac : FVal → FVal → FVal → FVal → FVal → FVal
  /-- `reduce` of 2^levels lanes (42_qmm.md R317). -/
  reduce : Nat → List FVal → FVal
  deriving Inhabited

/-- FREE (log entry 4). NUMERICS record `k` other than the default: any total functions. -/
opaque Config.numerics (k : Nat) : Numerics

/-- FREE VALUE (log entries 8, 9, 10). A byte the spec leaves unspecified: 20_memory.md R131,
70_reset_and_hazards.md R451. Arguments: the draw, the address. -/
opaque Config.freeByte (draw addr : Nat) : Byte

/-- FREE VALUE (log entry 5). Sign and payload of a NaN stored at an address (00_scope.md R15). -/
opaque Config.freeNaN (draw addr : Nat) : Nat

/-- FREE VALUE (log entries 6, 15). The code of a group element the spec leaves unspecified
(41_quantize.md R258), or whose quotient another NUMERICS record makes a NaN. Arguments: the draw, the element's
flat index. -/
opaque Config.freeCode (draw index : Nat) : Nat

/-- FREE VALUE (log entry 6). The stored scale bits of an unspecified group (41_quantize.md R258). -/
opaque Config.freeScale (draw group : Nat) : Nat

/-- FREE VALUE (log entry 6). The stored bias bits of an unspecified group (41_quantize.md R258). -/
opaque Config.freeBias (draw group : Nat) : Nat

/-- FREE VALUE (log entry 7). The sign of the zero that `min32` returns for zeros of opposite sign, the first
operand's sign being `firstNeg` (00_scope.md R17). -/
opaque Config.freeMinZero (firstNeg : Bool) : Bool

/-- FREE VALUE (log entry 7). The same for `max32` (00_scope.md R17). -/
opaque Config.freeMaxZero (firstNeg : Bool) : Bool

end Sys2Proof
end

