-- ==== Sys2Proof/Machine/Float.lean ====
section
/-! DEFINITION. The floating-point formats and primitives of 00_scope.md R10 and R13 to R18.

Operands are turned into exact numbers, the operation is computed exactly, and the result is narrowed once by
`roundReal` (R14). Magnitudes of finite data count units of 2^-149. The results for infinities, signed zeros and
invalid operations are IEEE 754's (R14; log entry 14). -/

namespace Sys2Proof.Machine

/-- `sz(T)`: bytes of one element (00_scope.md R10). -/
def fmtSize : Fmt → Nat
  | .f32 => 4
  | .f16 => 2
  | .bf16 => 2

/-- Bits of the fraction field (00_scope.md R13). -/
def fracBits : Fmt → Nat
  | .f32 => 23
  | .f16 => 10
  | .bf16 => 7

/-- Bits of the exponent field (00_scope.md R13). -/
def expBits : Fmt → Nat
  | .f32 => 8
  | .f16 => 5
  | .bf16 => 8

/-- The least positive value of the format is 2^-(leastExp): exponent bias minus one, plus the fraction bits. -/
def leastExp (t : Fmt) : Nat := 2 ^ (expBits t - 1) - 2 + fracBits t

/-- One unit of a finite magnitude is 2^-149, the least positive value of f32. -/
def unitExp : Nat := 149

/-- The number of units in 1.0. -/
def oneMag : Nat := 2 ^ unitExp

/-- The least magnitude beyond the format, 2^(bias + 1), in units: what rounds to it or above is an infinity
(00_scope.md R14). -/
def overflowMag (t : Fmt) : Nat := 2 ^ (2 ^ (expBits t - 1) + unitExp)

/-- The integer nearest `a / b`, ties to even. -/
def nearestEven (a b : Nat) : Nat :=
  let q := a / b
  let r := a % b
  if b < 2 * r then q + 1
  else if 2 * r = b then q + q % 2
  else q

/-- The magnitude `num / den` (a real number) rounded to the format's precision, roundTiesToEven, gradual underflow:
`k` is how far the last kept place lies above the least positive value. In units. -/
def roundMag (t : Fmt) (num den : Nat) : Nat :=
  let n := num * 2 ^ leastExp t
  let k := Nat.log2 (n / den) - fracBits t
  nearestEven n (den * 2 ^ k) * 2 ^ k * 2 ^ (unitExp - leastExp t)

/-- `RN_F` of the real number ±num/den (00_scope.md R14). -/
def roundReal (t : Fmt) (neg : Bool) (num den : Nat) : FVal :=
  let mag := roundMag t num den
  if overflowMag t ≤ mag then .inf neg else .fin neg mag

/-- The signed number of units of a finite datum. -/
def signed (neg : Bool) (mag : Nat) : Int := if neg then -(mag : Int) else mag

/-- `RN_F` of the integer `i` divided by `den`; `zeroNeg` is the sign of an exact zero. -/
def roundInt (t : Fmt) (zeroNeg : Bool) (i : Int) (den : Nat) : FVal :=
  if i = 0 then .fin zeroNeg 0 else roundReal t (i < 0) i.natAbs den

/-- Sign change. -/
def fNeg : FVal → FVal
  | .nan => .nan
  | .inf s => .inf (!s)
  | .fin s m => .fin (!s) m

/-- `|v|`: sign bit cleared (00_scope.md R17). -/
def fAbs : FVal → FVal
  | .nan => .nan
  | .inf _ => .inf false
  | .fin _ m => .fin false m

/-- `add_F(a,b) = RN_F(a+b)` (00_scope.md R14). -/
def fAdd (t : Fmt) : FVal → FVal → FVal
  | .nan, _ => .nan
  | _, .nan => .nan
  | .inf a, .inf b => if a = b then .inf a else .nan
  | .inf a, .fin _ _ => .inf a
  | .fin _ _, .inf b => .inf b
  | .fin sa ma, .fin sb mb => roundInt t (sa && sb) (signed sa ma + signed sb mb) oneMag

/-- `sub_F(a,b) = RN_F(a-b)` (00_scope.md R14). -/
def fSub (t : Fmt) (a b : FVal) : FVal := fAdd t a (fNeg b)

/-- `mul_F(a,b) = RN_F(a×b)` (00_scope.md R14). -/
def fMul (t : Fmt) : FVal → FVal → FVal
  | .nan, _ => .nan
  | _, .nan => .nan
  | .inf a, .inf b => .inf (a != b)
  | .inf a, .fin sb mb => if mb = 0 then .nan else .inf (a != sb)
  | .fin sa ma, .inf b => if ma = 0 then .nan else .inf (sa != b)
  | .fin sa ma, .fin sb mb => roundReal t (sa != sb) (ma * mb) (oneMag * oneMag)

/-- `div_F(a,b) = RN_F(a/b)` (00_scope.md R14). -/
def fDiv (t : Fmt) : FVal → FVal → FVal
  | .nan, _ => .nan
  | _, .nan => .nan
  | .inf _, .inf _ => .nan
  | .inf a, .fin sb _ => .inf (a != sb)
  | .fin sa _, .inf b => .fin (sa != b) 0
  | .fin sa ma, .fin sb mb =>
    if mb = 0 then (if ma = 0 then .nan else .inf (sa != sb))
    else roundReal t (sa != sb) ma mb

/-- `fma_F(a,b,c) = RN_F(a×b+c)`, one rounding (00_scope.md R14). -/
def fFma (t : Fmt) (a b c : FVal) : FVal :=
  match a, b, c with
  | .fin sa ma, .fin sb mb, .fin sc mc =>
    roundInt t ((sa != sb) && sc) (signed (sa != sb) (ma * mb) + signed sc mc * oneMag) (oneMag * oneMag)
  | .fin _ _, .fin _ _, .inf c => .inf c
  | .fin _ _, .fin _ _, .nan => .nan
  | a, b, c => fAdd t (fMul t a b) c

/-- `cvt_F(v) = RN_F(v)` of a datum (00_scope.md R14). -/
def fCvt (t : Fmt) : FVal → FVal
  | .nan => .nan
  | .inf s => .inf s
  | .fin s m => roundReal t s m oneMag

/-- An unsigned integer as an exact datum; `cvt_T` of a code (42_qmm.md R306). -/
def fOfNat (n : Nat) : FVal := .fin false (n * oneMag)

/-- `rint` (00_scope.md R16): the nearest integer, ties to even, with the operand's sign. -/
def fRint : FVal → FVal
  | .nan => .nan
  | .inf s => .inf s
  | .fin s m => .fin s (nearestEven m oneMag * oneMag)

/-- `a < b` as real numbers; false when either is a NaN (00_scope.md R17). -/
def fLt : FVal → FVal → Bool
  | .nan, _ => false
  | _, .nan => false
  | .inf a, .inf b => a && !b
  | .inf a, .fin _ _ => a
  | .fin _ _, .inf b => !b
  | .fin sa ma, .fin sb mb => decide (signed sa ma < signed sb mb)

/-- The two data are zeros of opposite sign. -/
def oppositeZeros : FVal → FVal → Bool
  | .fin sa 0, .fin sb 0 => sa != sb
  | _, _ => false

/-- The sign bit of a datum (false for a NaN, whose sign is unspecified and never read). -/
def fSign : FVal → Bool
  | .nan => false
  | .inf s => s
  | .fin s _ => s

/-- `min32` (00_scope.md R17): for zeros of opposite sign, a free choice (log entry 7). -/
def min32 (a b : FVal) : FVal :=
  if oppositeZeros a b then .fin (Config.freeMinZero (fSign a)) 0
  else if fLt b a then b else a

/-- `max32` (00_scope.md R17): for zeros of opposite sign, a free choice (log entry 7). -/
def max32 (a b : FVal) : FVal :=
  if oppositeZeros a b then .fin (Config.freeMaxZero (fSign a)) 0
  else if fLt a b then b else a

/-- `clamp(v, lo, hi)` (00_scope.md R17). -/
def clamp32 (nm : Numerics) (v lo hi : FVal) : FVal := nm.min32 (nm.max32 v lo) hi

/-- `toU` (00_scope.md R18): the unsigned integer that a datum holds. -/
def toU : FVal → Nat
  | .fin _ m => m / oneMag
  | _ => 0

/-- The datum is ±∞ or a NaN. -/
def nonFinite : FVal → Bool
  | .fin _ _ => false
  | _ => true

/-- `eps`: the binary32 value nearest 1e-7, bits 0x33D6BF95 (00_scope.md R6): 0x56BF95 with the implicit bit set,
times 2^-47, in units of 2^-149. -/
def epsVal : FVal := .fin false (0xD6BF95 * 2 ^ 102)

/-- The sign bit of a stored element. -/
def signBit (t : Fmt) (neg : Bool) : Nat := if neg then 2 ^ (8 * fmtSize t - 1) else 0

/-- The exponent field with all ones, in place. -/
def expAll (t : Fmt) : Nat := (2 ^ expBits t - 1) * 2 ^ fracBits t

/-- `decode_T` (00_scope.md R10, R13). -/
def decodeFmt (t : Fmt) (bits : Nat) : FVal :=
  let frac := bits % 2 ^ fracBits t
  let e := bits / 2 ^ fracBits t % 2 ^ expBits t
  let neg := bits.testBit (8 * fmtSize t - 1)
  if e = 2 ^ expBits t - 1 then (if frac = 0 then .inf neg else .nan)
  else if e = 0 then .fin neg (frac * 2 ^ (unitExp - leastExp t))
  else .fin neg ((2 ^ fracBits t + frac) * 2 ^ (e - 1) * 2 ^ (unitExp - leastExp t))

/-- Some NaN of the format: the fraction is not zero, sign and payload come from the free value `seed` (R15). -/
def nanBits (t : Fmt) (seed : Nat) : Nat :=
  signBit t (seed % 2 = 1) + expAll t + (seed / 2 % (2 ^ fracBits t - 1) + 1)

/-- `encode_T` of a datum of the format (00_scope.md R10, R13); `seed` is the free value for a NaN. -/
def encodeFmt (t : Fmt) (seed : Nat) : FVal → Nat
  | .nan => nanBits t seed
  | .inf s => signBit t s + expAll t
  | .fin s m =>
    let n := m / 2 ^ (unitExp - leastExp t)
    let k := Nat.log2 n - fracBits t
    signBit t s + (k * 2 ^ fracBits t + n / 2 ^ k)

/-- `reduce`: a pairwise tree in binary32 over 2^levels lanes (42_qmm.md R317). -/
def reduceTree (p : Primitives) : Nat → List FVal → FVal
  | 0, vs => vs.headD (.fin false 0)
  | levels + 1, vs =>
    p.add .f32 (reduceTree p levels (vs.take (2 ^ levels))) (reduceTree p levels (vs.drop (2 ^ levels)))

/-- The scalar step, composed of the primitives (42_qmm.md R306). -/
def macStep (p : Primitives) (t : Fmt) (acc x code scale bias : FVal) : FVal :=
  let w := p.add t (p.mul t (p.cvt t code) scale) bias
  p.add t acc (p.mul t x w)

/-- The SIMD lane step, composed of the primitives (42_qmm.md R316). -/
def simdMacStep (p : Primitives) (acc x code sc bi : FVal) : FVal :=
  p.add .f32 acc (p.mul .f32 x (p.fma .f32 code sc bi))

/-- The record whose steps are the spec's compositions of given primitives (42_qmm.md R306, R316, R317). -/
def Numerics.ofPrimitives (p : Primitives) : Numerics :=
  { p with mac := macStep p, simdMac := simdMacStep p, reduce := reduceTree p }

/-- Exact IEEE 754 arithmetic (00_scope.md R14 to R18). -/
def Primitives.ieee : Primitives :=
  { add := fAdd, sub := fSub, mul := fMul, div := fDiv, fma := fFma, cvt := fCvt, rint := fRint, min32 := min32,
    max32 := max32, toU := toU }

/-- The default NUMERICS record (00_scope.md R24). -/
def Numerics.ieee : Numerics := Numerics.ofPrimitives Primitives.ieee

/-- The NUMERICS record of the parameters (00_scope.md R6, R24; log entry 4). -/
def numericsOf (p : Params) : Numerics :=
  match p.numerics with
  | .ieee => Numerics.ieee
  | .other k => Config.numerics k

end Sys2Proof.Machine
end

