-- ==== Sys2Proof/Syntax.lean ====
section
/-! DEFINITION. The commands of the engine: one constructor per row of spec/opcode_table.json, with the fields of
the command word as they stand in it (30_encoding.md R158). A field may hold an unsupported value: the command then
exists and is rejected when it is launched (R161, 60_exceptions.md R402). -/

namespace Sys2Proof

/-- The supported code widths (00_scope.md R3). -/
inductive Width where
  | w2
  | w3
  | w4
  | w5
  | w6
  | w8
  deriving DecidableEq, Repr

/-- The supported group sizes (00_scope.md R3). -/
inductive GroupSize where
  | g32
  | g64
  | g128
  deriving DecidableEq, Repr

/-- A command: OP and TRANS name it, BITS, GSIZE and DTYPE are its fields (30_encoding.md R150, R151). -/
inductive Instr where
  | quantize (bits : BitVec 4) (gsize : BitVec 8) (dtype : BitVec 2)
  | qmm (bits : BitVec 4) (gsize : BitVec 8) (dtype : BitVec 2)
  | qmmT (bits : BitVec 4) (gsize : BitVec 8) (dtype : BitVec 2)
  | pack (bits : BitVec 4)
  | unpack (bits : BitVec 4)
  deriving DecidableEq, Repr

end Sys2Proof
end

