-- ==== Sys2Proof/WellFormed.lean ====
section
/-! DEFINITION. When a command's fields name a supported configuration (30_encoding.md R152 to R154).
A command that is not well formed is still a command: launching it reports BAD_BITS, BAD_GSIZE or BAD_DTYPE. -/

namespace Sys2Proof

/-- BITS names a code width: 2, 3, 4, 5, 6 or 8 (30_encoding.md R152). -/
def bitsOk (bits : BitVec 4) : Bool := [2, 3, 4, 5, 6, 8].contains bits.toNat

/-- GSIZE names a group size: 32, 64 or 128 (30_encoding.md R153). -/
def gsizeOk (gsize : BitVec 8) : Bool := [32, 64, 128].contains gsize.toNat

/-- DTYPE names an element type: 0, 1 or 2 (30_encoding.md R154). -/
def dtypeOk (dtype : BitVec 2) : Bool := dtype.toNat != 3

/-- Every field the command uses is supported. -/
def Instr.wellFormed : Instr → Bool
  | .quantize bits gsize dtype => bitsOk bits && gsizeOk gsize && dtypeOk dtype
  | .qmm bits gsize dtype => bitsOk bits && gsizeOk gsize && dtypeOk dtype
  | .qmmT bits gsize dtype => bitsOk bits && gsizeOk gsize && dtypeOk dtype
  | .pack bits => bitsOk bits
  | .unpack bits => bitsOk bits

end Sys2Proof
end

