-- ==== Sys2Proof/Decode.lean ====
section
/-! DEFINITION. The decoder, total over all 2^64 command words (30_encoding.md R161), the encoder (R150, R171) and
the opcode map (R159). -/

namespace Sys2Proof

/-- Why a word names no command: each is ILLEGAL_CMD (30_encoding.md R156, R160). -/
inductive DecodeError where
  /-- One of the bits 63:19 is set. -/
  | reservedHighBits
  /-- Bit 18 is set and OP is not 0x2. -/
  | transReserved
  /-- One of the bits 17:8 is set and OP is PACK or UNPACK. -/
  | codecFieldsReserved
  /-- OP is 0x0 or 0x5 to 0xF. -/
  | reservedOp
  deriving DecidableEq, Repr

/-- What the decoder answers. -/
inductive Decoded where
  | command (i : Instr)
  | illegal (e : DecodeError)
  deriving DecidableEq, Repr

/-- OP, bits 3:0. -/
def opField (w : Word) : BitVec 4 := w.extractLsb' 0 4

/-- BITS, bits 7:4. -/
def bitsField (w : Word) : BitVec 4 := w.extractLsb' 4 4

/-- GSIZE, bits 15:8. -/
def gsizeField (w : Word) : BitVec 8 := w.extractLsb' 8 8

/-- DTYPE, bits 17:16. -/
def dtypeField (w : Word) : BitVec 2 := w.extractLsb' 16 2

/-- TRANS, bit 18. -/
def transField (w : Word) : Bool := w.getLsbD 18

/-- The decoder: reserved bits first, then OP and TRANS (30_encoding.md R151, R155, R156, R161). -/
def decode (w : Word) : Decoded :=
  if w.extractLsb' 19 45 ≠ 0 then .illegal .reservedHighBits
  else match (opField w).toNat with
    | 1 =>
      if transField w then .illegal .transReserved
      else .command (.quantize (bitsField w) (gsizeField w) (dtypeField w))
    | 2 =>
      if transField w then .command (.qmmT (bitsField w) (gsizeField w) (dtypeField w))
      else .command (.qmm (bitsField w) (gsizeField w) (dtypeField w))
    | 3 =>
      if transField w then .illegal .transReserved
      else if w.extractLsb' 8 10 ≠ 0 then .illegal .codecFieldsReserved
      else .command (.pack (bitsField w))
    | 4 =>
      if transField w then .illegal .transReserved
      else if w.extractLsb' 8 10 ≠ 0 then .illegal .codecFieldsReserved
      else .command (.unpack (bitsField w))
    | _ => .illegal .reservedOp

/-- `OP | (bits << 4) | (gsize << 8) | (dtype << 16) | (T << 18)` (30_encoding.md R171). -/
def commandWord (op bits : BitVec 4) (gsize : BitVec 8) (dtype : BitVec 2) (trans : Bool) : Word :=
  op.setWidth 64 ||| bits.setWidth 64 <<< 4 ||| gsize.setWidth 64 <<< 8 ||| dtype.setWidth 64 <<< 16 |||
    (BitVec.ofBool trans).setWidth 64 <<< 18

/-- The encoder (30_encoding.md R150, R151, R171). -/
def encode : Instr → Word
  | .quantize bits gsize dtype => commandWord 1 bits gsize dtype false
  | .qmm bits gsize dtype => commandWord 2 bits gsize dtype false
  | .qmmT bits gsize dtype => commandWord 2 bits gsize dtype true
  | .pack bits => commandWord 3 bits 0 0 false
  | .unpack bits => commandWord 4 bits 0 0 false

/-- A row of the opcode map (30_encoding.md R159): a word w selects it when `w &&& mask = pattern`. -/
structure OpcodeRow where
  mnemonic : String
  pattern : Word
  mask : Word
  deriving DecidableEq, Repr

/-- The opcode map of 30_encoding.md R159, in its order. -/
def opcodeMap : List OpcodeRow :=
  [ ⟨"QUANTIZE", 0x0000000000000001, 0xFFFFFFFFFFFC000F⟩,
    ⟨"QMM", 0x0000000000000002, 0xFFFFFFFFFFFC000F⟩,
    ⟨"QMM.T", 0x0000000000040002, 0xFFFFFFFFFFFC000F⟩,
    ⟨"PACK", 0x0000000000000003, 0xFFFFFFFFFFFFFF0F⟩,
    ⟨"UNPACK", 0x0000000000000004, 0xFFFFFFFFFFFFFF0F⟩ ]

/-- A word selects a row. -/
def OpcodeRow.selects (r : OpcodeRow) (w : Word) : Bool := w &&& r.mask == r.pattern

/-- The mnemonic of a command in the opcode map. -/
def Instr.mnemonic : Instr → String
  | .quantize _ _ _ => "QUANTIZE"
  | .qmm _ _ _ => "QMM"
  | .qmmT _ _ _ => "QMM.T"
  | .pack _ => "PACK"
  | .unpack _ => "UNPACK"

/-- The host's question about one row of the opcode table: the command that the decoder reads from the word whose
low `nbits` bits are those of `w` and whose other bits are zero. A command is one 64-bit value written to CMD
(30_encoding.md R157), little-endian (20_memory.md R102), so no other layout exists. -/
def decodeTableWord (nbits w : Nat) : Option Instr :=
  match decode (BitVec.ofNat 64 (w % 2 ^ nbits)) with
  | .command i => some i
  | .illegal _ => none

end Sys2Proof
end

