-- ==== Sys2Proof/Machine/State.lean ====
section
/-! DEFINITION. The state of the machine, its reset value, and the reasons a step can stop.

STATE IS PLAIN DATA. Beside the spec's registers, latched command and data memory it holds the parameters
(log entry 3), the agenda of host, engine and reset input (log entry 1), the completed commands whose DONE the host has
not read (log entry 23), the value of the host's last read and the counter of free values (log entry 12). -/

namespace Sys2Proof.Machine

/-- Data memory: address and byte pairs, addresses strictly rising, no entry equal to what an unlisted address
reads as (log entry 11). -/
abbrev Memory := List Host.Cell

/-- The operand registers of the register block (10_state.md R59 to R61, R64). -/
structure OperandRegs where
  dimM : Dim
  dimN : Dim
  dimK : Dim
  rows : Dim
  cols : Dim
  xAddr : Word
  wAddr : Word
  sAddr : Word
  bAddr : Word
  oAddr : Word
  deriving DecidableEq, Repr

/-- A register of the register block by its offset (10_state.md R64); `reserved` is one of 0x68 to 0xF8. -/
inductive Reg where
  | cap
  | cmd
  | status
  | dimM
  | dimN
  | dimK
  | rows
  | cols
  | xAddr
  | wAddr
  | sAddr
  | bAddr
  | oAddr
  | reserved
  deriving DecidableEq, Repr

/-- The error codes of 60_exceptions.md R403. -/
inductive ErrCode where
  | illegalCmd
  | badBits
  | badGsize
  | badDtype
  | badShape
  | badAlign
  | badRange
  | overlap
  /-- Reserved, never raised (40_codec.md R212). -/
  | simdUnsupported
  deriving DecidableEq, Repr

/-- A command from acceptance until the host has read its DONE (00_scope.md R21, 10_state.md R70, 20_memory.md R120,
60_exceptions.md R400). -/
structure Run where
  /-- The latched command word, kept decoded (log entry 17). -/
  instr : Instr
  /-- The latched operand registers. -/
  latched : OperandRegs
  /-- The datapath chosen at acceptance (42_qmm.md R312). -/
  simd : Bool
  /-- The buffer bytes the host has written since the CMD write (20_memory.md R131). -/
  written : List Nat
  deriving DecidableEq, Repr

/-- The sizes of a host access to data memory (30_encoding.md R170). -/
inductive AccessSize where
  | b1
  | b2
  | b4
  | b8
  deriving DecidableEq, Repr

/-- The matrix product that a batched or gathered call repeats (43_host_batched.md R352, R353). Its mnemonic may name
unsupported bits, group size or element type: the first command is then rejected (R354). -/
structure BatchProduct where
  trans : Bool
  bits : BitVec 4
  gsize : BitVec 8
  dtype : BitVec 2
  m : Dim
  n : Dim
  k : Dim
  xBase : Nat
  wBase : Nat
  sBase : Nat
  bBase : Nat
  oBase : Nat
  deriving DecidableEq, Repr

/-- The operands of BATCHED_QMM (43_host_batched.md R352): byte strides aligned to the output batch shape. -/
structure Batched where
  product : BatchProduct
  shape : List Nat
  xStrides : List Nat
  wStrides : List Nat
  sStrides : List Nat
  bStrides : List Nat
  deriving DecidableEq, Repr

/-- The operands of GATHER_QMM (43_host_batched.md R353): two arrays of `count` u32 indices in data memory. -/
structure Gather where
  product : BatchProduct
  count : Nat
  lhsAddr : Nat
  rhsAddr : Nat
  xShape : List Nat
  wShape : List Nat
  xStrides : List Nat
  wStrides : List Nat
  sStrides : List Nat
  bStrides : List Nat
  deriving DecidableEq, Repr

/-- One pending move on the agenda: a host access (30_encoding.md R170, R172), the engine's turn, an edge of the
reset input (70_reset_and_hazards.md R450), or a host pseudo-instruction of 43_host_batched.md. -/
inductive Event where
  /-- A host write of `value` to the host address `addr`, `size` bytes wide. -/
  | regWrite (addr size : Nat) (value : Word)
  /-- A host read of the host address `addr`, `size` bytes wide. -/
  | regRead (addr size : Nat)
  /-- `MW.<n>`: a host write to data memory. -/
  | memWrite (size : AccessSize) (addr : Nat) (value : Word)
  /-- `MR.<n>`: a host read of data memory. -/
  | memRead (size : AccessSize) (addr : Nat)
  /-- `POLL`: read STATUS until DONE is 1. -/
  | poll
  /-- The engine's turn: the running command, if there is one, reaches completion. -/
  | engineTurn
  | resetAssert
  | resetRelease
  /-- BATCHED_QMM from its first line. -/
  | batched (b : Batched)
  /-- BATCHED_QMM before its batch `i`. -/
  | batchedAt (b : Batched) (i : Nat)
  /-- GATHER_QMM from its first line. -/
  | gather (g : Gather)
  /-- GATHER_QMM before its position `i`. -/
  | gatherAt (g : Gather) (i : Nat)
  deriving DecidableEq, Repr

/-- The machine's state. -/
structure State where
  /-- MEM_SIZE, SIMD_LANES, REG_BASE and NUMERICS; no step changes them. -/
  params : Params
  /-- CMD (10_state.md R54). -/
  cmd : Word
  /-- STATUS (10_state.md R56). -/
  status : Word
  /-- The operand registers. -/
  regs : OperandRegs
  /-- The latched configuration of the command in flight, if any. -/
  running : Option Run
  /-- The model's own: the completed commands, latest first, whose DONE the host has not read; host accesses to their
  buffers are still under 20_memory.md R131 (R120(c); log entry 23). -/
  unobserved : List Run
  /-- The level of the reset input (70_reset_and_hazards.md R450). -/
  resetAsserted : Bool
  /-- Data memory (20_memory.md R100). -/
  mem : Memory
  /-- The model's own: who moves next (log entry 1). -/
  agenda : List Event
  /-- The model's own: the value the host's last read gave (log entry 12). -/
  hostData : Word
  /-- The model's own: how many free values have been drawn (log entry 12). -/
  draws : Nat
  deriving DecidableEq, Repr

/-- Reasons the machine stops. -/
inductive Fault where
  /-- Raised by a host access to data memory that leaves [0, MEM_SIZE): MemRead and MemWrite are not defined there
  (00_scope.md R9). Safe: the model stops where the spec says nothing. -/
  | dataAddressOutside (addr : Nat)
  /-- Raised by a command's meaning when the command in flight has fields that validation refuses. No run reaches
  this (93_implementation_defined.md, the treatment "stuck"). Safe. -/
  | runningIllFormed
  deriving DecidableEq, Repr

/-- Inputs the model declines. -/
inductive Refusal where
  /-- Raised by an arm of `exec` that has no meaning yet. Safe. -/
  | notModelled (mnemonic : String)
  /-- Raised by a host access inside the register block that is not one aligned 8-byte access: "a model refuses it"
  (10_state.md R51). Safe. -/
  | registerAccessForm
  /-- Raised by a host register access to an address outside the register block: another device's, if anyone's
  (10_state.md R50). Safe. -/
  | outsideRegisterBlock
  /-- Raised by a host register read while reset is asserted: "reads while reset is asserted are refused"
  (93_implementation_defined.md U23). Safe. -/
  | readDuringReset
  /-- Raised by GATHER_QMM with an out-of-range index: "A model of the host refuses" it (43_host_batched.md R355).
  Safe. -/
  | gatherIndexOutOfRange
  deriving DecidableEq, Repr

/-- The operand registers after reset (10_state.md R69). -/
def OperandRegs.reset : OperandRegs :=
  { dimM := 0, dimN := 0, dimK := 0, rows := 0, cols := 0, xAddr := 0, wAddr := 0, sAddr := 0, bAddr := 0,
    oAddr := 0 }

/-- The parameters of `State.reset`: SIMD_LANES 8 and NUMERICS at the spec's defaults (00_scope.md R6), MEM_SIZE as
95_test_vectors.md takes it, REG_BASE 0 (log entry 3). -/
def defaultParams : Params := { memSize := 0x10000, lanes := .lanes8, regBase := 0, numerics := .ieee }

/-- The machine right after reset with given parameters (10_state.md R69, 70_reset_and_hazards.md R450): every
register 0, no command in flight, data memory with nothing listed (log entry 11). -/
def State.resetWith (p : Params) : State :=
  { params := p, cmd := 0, status := 0, regs := OperandRegs.reset, running := none, unobserved := [],
    resetAsserted := false, mem := [], agenda := [], hostData := 0, draws := 0 }

/-- The machine right after reset. -/
def State.reset : State := State.resetWith defaultParams

end Sys2Proof.Machine
end

