-- ==== Sys2Proof/Machine/Memory.lean ====
section
/-! DEFINITION. Data memory (20_memory.md R100, R102): bytes in one canonical list, little-endian wider accesses
(00_scope.md R9). -/

namespace Sys2Proof.Machine

/-- What a byte that nothing has written reads as (70_reset_and_hazards.md R452; log entry 11). -/
def unlistedByte : Byte := 0

/-- Read one byte. -/
def Memory.get : Memory → Nat → Byte
  | [], _ => unlistedByte
  | (a, b) :: m, x => if a = x then b else Memory.get m x

/-- A cell in front of a list, left out if it holds what an unlisted address reads as. -/
def consCell (x : Nat) (v : Byte) (m : Memory) : Memory := if v = unlistedByte then m else (x, v) :: m

/-- Write one byte, keeping the canonical form. -/
def Memory.set : Memory → Nat → Byte → Memory
  | [], x, v => consCell x v []
  | (a, b) :: m, x, v =>
    if x < a then consCell x v ((a, b) :: m)
    else if x = a then consCell x v m
    else (a, b) :: Memory.set m x v

/-- The canonical form from address `lo` on: addresses strictly rising, no entry equal to an unlisted byte. -/
def Memory.wfFrom : Nat → Memory → Bool
  | _, [] => true
  | lo, (a, b) :: m => decide (lo ≤ a) && b != unlistedByte && Memory.wfFrom (a + 1) m

/-- The canonical form. -/
def Memory.wf (m : Memory) : Bool := Memory.wfFrom 0 m

/-- Every listed address is below `limit`. -/
def Memory.below (limit : Nat) (m : Memory) : Bool := m.all fun c => decide (c.1 < limit)

/-- `MemRead(addr, n)`: little-endian (00_scope.md R9). -/
def Memory.read (m : Memory) : Nat → Nat → Nat
  | _, 0 => 0
  | a, n + 1 => (Memory.get m a).toNat + 256 * Memory.read m (a + 1) n

/-- The `n` low bytes of `v`, least significant first. -/
def bytesLE : Nat → Nat → List Byte
  | 0, _ => []
  | n + 1, v => BitVec.ofNat 8 v :: bytesLE n (v / 256)

/-- Write bytes at rising addresses. -/
def Memory.setBytes : Memory → Nat → List Byte → Memory
  | m, _, [] => m
  | m, a, b :: bs => Memory.setBytes (Memory.set m a b) (a + 1) bs

/-- `MemWrite(addr, n, v)` (00_scope.md R9). -/
def Memory.write (m : Memory) (a n v : Nat) : Memory := Memory.setBytes m a (bytesLE n v)

/-- A run of output bytes at a base address. -/
abbrev Block := Nat × List Byte

/-- Write blocks in order. -/
def Memory.setBlocks : Memory → List Block → Memory
  | m, [] => m
  | m, (a, bs) :: rest => Memory.setBlocks (Memory.setBytes m a bs) rest

/-- The block covers the address. -/
def Block.covers (b : Block) (x : Nat) : Bool := decide (b.1 ≤ x) && decide (x < b.1 + b.2.length)

end Sys2Proof.Machine
end

