-- ==== Sys2Proof/Machine/Operands.lean ====
section
/-! DEFINITION. Operand forms: the fields of a command word, the parameters, the buffers of each command
(20_memory.md R104, R110), and typed element access (00_scope.md R10). -/

namespace Sys2Proof.Machine

/-- The code width in bits. -/
def widthBits : Width → Nat
  | .w2 => 2
  | .w3 => 3
  | .w4 => 4
  | .w5 => 5
  | .w6 => 6
  | .w8 => 8

/-- BITS as a code width (30_encoding.md R152). -/
def widthOfField (bits : BitVec 4) : Option Width :=
  match bits.toNat with
  | 2 => some .w2
  | 3 => some .w3
  | 4 => some .w4
  | 5 => some .w5
  | 6 => some .w6
  | 8 => some .w8
  | _ => none

/-- The group size in elements. -/
def groupElems : GroupSize → Nat
  | .g32 => 32
  | .g64 => 64
  | .g128 => 128

/-- GSIZE as a group size (30_encoding.md R153). -/
def groupOfField (gsize : BitVec 8) : Option GroupSize :=
  match gsize.toNat with
  | 32 => some .g32
  | 64 => some .g64
  | 128 => some .g128
  | _ => none

/-- DTYPE as an element type (30_encoding.md R154). -/
def fmtOfField (dtype : BitVec 2) : Option Fmt :=
  match dtype.toNat with
  | 0 => some .f32
  | 1 => some .f16
  | 2 => some .bf16
  | _ => none

/-- The fields of a command on floating-point buffers, once they are supported. -/
structure FloatFields where
  width : Width
  group : GroupSize
  fmt : Fmt
  deriving DecidableEq, Repr

/-- All three fields, if all are supported. -/
def floatFields (bits : BitVec 4) (gsize : BitVec 8) (dtype : BitVec 2) : Option FloatFields :=
  match widthOfField bits, groupOfField gsize, fmtOfField dtype with
  | some w, some g, some t => some ⟨w, g, t⟩
  | _, _, _ => none

/-- `pack_factor(bits)` (40_codec.md R200). -/
def packFactor : Width → Nat
  | .w3 => 8
  | .w5 => 8
  | .w6 => 4
  | w => 32 / widthBits w

/-- `bytes_per_pack(bits)` (40_codec.md R201). -/
def bytesPerPack : Width → Nat
  | .w5 => 5
  | .w3 => 3
  | .w6 => 3
  | _ => 4

/-- `n_bins = 2^bits - 1` (41_quantize.md R253). -/
def nBins (w : Width) : Nat := 2 ^ widthBits w - 1

/-- S as a number (00_scope.md R6). -/
def laneCount : SimdLanes → Nat
  | .lanes1 => 1
  | .lanes2 => 2
  | .lanes4 => 4
  | .lanes8 => 8
  | .lanes16 => 16
  | .lanes32 => 32

/-- The levels of the reduction tree: S = 2^levels (42_qmm.md R317). -/
def laneLevels : SimdLanes → Nat
  | .lanes1 => 0
  | .lanes2 => 1
  | .lanes4 => 2
  | .lanes8 => 3
  | .lanes16 => 4
  | .lanes32 => 5

/-- `simd_ok(bits)` (42_qmm.md R312). -/
def simdOk (lanes : SimdLanes) (w : Width) : Bool :=
  [4, 8].contains (widthBits w) && 32 % widthBits w == 0 && laneCount lanes % (32 / widthBits w) == 0

/-- A buffer of a command (20_memory.md R104) with the alignment its base needs (R110). -/
structure Buffer where
  base : Nat
  len : Nat
  align : Nat
  isOut : Bool
  deriving DecidableEq, Repr

/-- The address lies in the buffer. -/
def Buffer.has (b : Buffer) (x : Nat) : Bool := decide (b.base ≤ x) && decide (x < b.base + b.len)

/-- A float buffer of `n` elements. -/
def floatBuffer (base : Word) (t : Fmt) (n : Nat) (isOut : Bool) : Buffer :=
  ⟨base.toNat, n * fmtSize t, fmtSize t, isOut⟩

/-- A packed code buffer of `n` codes. -/
def packedBuffer (base : Word) (w : Width) (n : Nat) (isOut : Bool) : Buffer :=
  ⟨base.toNat, n * widthBits w / 8, 4, isOut⟩

/-- A code-byte buffer of `n` codes. -/
def codeBuffer (base : Word) (n : Nat) (isOut : Bool) : Buffer := ⟨base.toNat, n, 1, isOut⟩

/-- R·C of the matrix being quantized or packed. -/
def matrixSize (r : OperandRegs) : Nat := r.rows.toNat * r.cols.toNat

/-- QUANTIZE's buffers (20_memory.md R104). -/
def quantizeBuffers (f : FloatFields) (r : OperandRegs) : List Buffer :=
  let groups := r.rows.toNat * (r.cols.toNat / groupElems f.group)
  [ floatBuffer r.xAddr f.fmt (matrixSize r) false,
    packedBuffer r.wAddr f.width (matrixSize r) true,
    floatBuffer r.sAddr f.fmt groups true,
    floatBuffer r.bAddr f.fmt groups true ]

/-- PACK's buffers (20_memory.md R104). -/
def packBuffers (w : Width) (r : OperandRegs) : List Buffer :=
  [codeBuffer r.xAddr (matrixSize r) false, packedBuffer r.wAddr w (matrixSize r) true]

/-- UNPACK's buffers (20_memory.md R104). -/
def unpackBuffers (w : Width) (r : OperandRegs) : List Buffer :=
  [packedBuffer r.wAddr w (matrixSize r) false, codeBuffer r.oAddr (matrixSize r) true]

/-- QMM's buffers (20_memory.md R104): W is K×N, groups along N. -/
def qmmBuffers (f : FloatFields) (r : OperandRegs) : List Buffer :=
  let groups := r.dimK.toNat * (r.dimN.toNat / groupElems f.group)
  [ floatBuffer r.xAddr f.fmt (r.dimM.toNat * r.dimK.toNat) false,
    packedBuffer r.wAddr f.width (r.dimK.toNat * r.dimN.toNat) false,
    floatBuffer r.sAddr f.fmt groups false,
    floatBuffer r.bAddr f.fmt groups false,
    floatBuffer r.oAddr f.fmt (r.dimM.toNat * r.dimN.toNat) true ]

/-- QMM.T's buffers (20_memory.md R104): W is N×K, groups along K. -/
def qmmTBuffers (f : FloatFields) (r : OperandRegs) : List Buffer :=
  let groups := r.dimN.toNat * (r.dimK.toNat / groupElems f.group)
  [ floatBuffer r.xAddr f.fmt (r.dimM.toNat * r.dimK.toNat) false,
    packedBuffer r.wAddr f.width (r.dimN.toNat * r.dimK.toNat) false,
    floatBuffer r.sAddr f.fmt groups false,
    floatBuffer r.bAddr f.fmt groups false,
    floatBuffer r.oAddr f.fmt (r.dimM.toNat * r.dimN.toNat) true ]

/-- The buffers of a command; none for a command with an unsupported field, which is never accepted. -/
def commandBuffers (i : Instr) (r : OperandRegs) : List Buffer :=
  match i with
  | .quantize bits gsize dtype => ((floatFields bits gsize dtype).map (quantizeBuffers · r)).getD []
  | .qmm bits gsize dtype => ((floatFields bits gsize dtype).map (qmmBuffers · r)).getD []
  | .qmmT bits gsize dtype => ((floatFields bits gsize dtype).map (qmmTBuffers · r)).getD []
  | .pack bits => ((widthOfField bits).map (packBuffers · r)).getD []
  | .unpack bits => ((widthOfField bits).map (unpackBuffers · r)).getD []

/-- The command's out buffers. -/
def outBuffers (i : Instr) (r : OperandRegs) : List Buffer := (commandBuffers i r).filter (·.isOut)

/-- `LoadT(addr)` (00_scope.md R10). -/
def loadFmt (m : Memory) (t : Fmt) (addr : Nat) : FVal := decodeFmt t (m.read addr (fmtSize t))

/-- The bytes that `StoreT(addr, v)` writes at `addr` (00_scope.md R10); `draw` indexes the free value of a NaN. -/
def storeBytes (t : Fmt) (draw addr : Nat) (v : FVal) : List Byte :=
  bytesLE (fmtSize t) (encodeFmt t (Config.freeNaN draw addr) v)

/-- The bytes of a row of elements stored from `addr` on. -/
def storeRow (t : Fmt) (draw : Nat) : Nat → List FVal → List Byte
  | _, [] => []
  | addr, v :: vs => storeBytes t draw addr v ++ storeRow t draw (addr + fmtSize t) vs

end Sys2Proof.Machine
end

