-- ==== Sys2Proof/Machine/Codec.lean ====
section
/-! DEFINITION. The bit codec (40_codec.md R204 to R211): the extractor, the packer, the SIMD extractor, and the
per-width formulas that the spec writes out. -/

namespace Sys2Proof.Machine

/-- Code `j` of the pack whose little-endian integer is `u`: bits `j·bits + bits-1 : j·bits` (40_codec.md R204). -/
def codeAt (w : Width) (u j : Nat) : Byte := BitVec.ofNat 8 (u >>> (j * widthBits w) % 2 ^ widthBits w)

/-- The codes of a pack, in order (40_codec.md R204). -/
def codesOf (w : Width) (u : Nat) : List Byte := (List.range (packFactor w)).map (codeAt w u)

/-- `extract(a, bits)` (40_codec.md R204). -/
def extract (m : Memory) (a : Nat) (w : Width) : List Byte := codesOf w (m.read a (bytesPerPack w))

/-- The scratch value of `pack`: each code shifted to its place (40_codec.md R208). -/
def packScratch (w : Width) (codes : List Byte) : Nat :=
  (List.range (packFactor w)).foldl (fun u j => u ||| (codes.getD j 0).toNat <<< (j * widthBits w)) 0

/-- The bytes that `pack(a, bits, code)` writes: byte k is scratch bits 8k+7:8k (40_codec.md R208). -/
def packBytes (w : Width) (codes : List Byte) : List Byte := bytesLE (bytesPerPack w) (packScratch w codes)

/-- Code index `i` of a packed buffer at `base`: field `i % pf` of pack `i / pf` (40_codec.md R211). -/
def codeOfBuffer (m : Memory) (base : Nat) (w : Width) (i : Nat) : Byte :=
  codeAt w (m.read (base + i / packFactor w * bytesPerPack w) (bytesPerPack w)) (i % packFactor w)

/-- `extract_simd(a, bits)`: S codes from S/pf words, with the per-lane shifts (40_codec.md R207). -/
def extractSimd (m : Memory) (a : Nat) (w : Width) (lanes : SimdLanes) : List Byte :=
  (List.range (laneCount lanes)).map fun l =>
    let word := m.read (a + 4 * (l / packFactor w)) 4
    let shift := l % packFactor w * widthBits w
    BitVec.ofNat 8 (word >>> shift % 2 ^ widthBits w)

/-- The 3-bit decode formulas (40_codec.md R206). -/
def extract3 (b0 b1 b2 : Byte) : List Byte :=
  [ b0 &&& 7,
    (b0 >>> 3) &&& 7,
    (b0 >>> 6) ||| ((b1 &&& 1) <<< 2),
    (b1 >>> 1) &&& 7,
    (b1 >>> 4) &&& 7,
    (b1 >>> 7) ||| ((b2 &&& 3) <<< 1),
    (b2 >>> 2) &&& 7,
    b2 >>> 5 ]

/-- The 5-bit decode formulas (40_codec.md R206). -/
def extract5 (b0 b1 b2 b3 b4 : Byte) : List Byte :=
  [ b0 &&& 31,
    (b0 >>> 5) ||| ((b1 &&& 3) <<< 3),
    (b1 >>> 2) &&& 31,
    (b1 >>> 7) ||| ((b2 &&& 15) <<< 1),
    (b2 >>> 4) ||| ((b3 &&& 1) <<< 4),
    (b3 >>> 1) &&& 31,
    (b3 >>> 6) ||| ((b4 &&& 7) <<< 2),
    b4 >>> 3 ]

/-- The 6-bit decode formulas (40_codec.md R206). -/
def extract6 (b0 b1 b2 : Byte) : List Byte :=
  [ b0 &&& 63,
    (b0 >>> 6) ||| ((b1 &&& 15) <<< 2),
    (b1 >>> 4) ||| ((b2 &&& 3) <<< 4),
    b2 >>> 2 ]

/-- The 3-bit encode formulas (40_codec.md R209). -/
def pack3 (c0 c1 c2 c3 c4 c5 c6 c7 : Byte) : List Byte :=
  [ c0 ||| (c1 <<< 3) ||| ((c2 &&& 3) <<< 6),
    (c2 >>> 2) ||| (c3 <<< 1) ||| (c4 <<< 4) ||| ((c5 &&& 1) <<< 7),
    (c5 >>> 1) ||| (c6 <<< 2) ||| (c7 <<< 5) ]

/-- The 5-bit encode formulas (40_codec.md R209). -/
def pack5 (c0 c1 c2 c3 c4 c5 c6 c7 : Byte) : List Byte :=
  [ c0 ||| ((c1 &&& 7) <<< 5),
    (c1 >>> 3) ||| (c2 <<< 2) ||| ((c3 &&& 1) <<< 7),
    (c3 >>> 1) ||| ((c4 &&& 15) <<< 4),
    (c4 >>> 4) ||| (c5 <<< 1) ||| ((c6 &&& 3) <<< 6),
    (c6 >>> 2) ||| (c7 <<< 3) ]

/-- The 6-bit encode formulas (40_codec.md R209). -/
def pack6 (c0 c1 c2 c3 : Byte) : List Byte :=
  [ c0 ||| ((c1 &&& 3) <<< 6),
    (c1 >>> 2) ||| ((c2 &&& 15) <<< 4),
    (c2 >>> 4) ||| (c3 <<< 2) ]

end Sys2Proof.Machine
end

