-- ==== Sys2Proof/Machine/Flags.lean ====
section
/-! DEFINITION. STATUS: its fields (10_state.md R56), the values its transitions give (R58), and the error codes
(60_exceptions.md R403). These are the engine's only flags (10_state.md R66). -/

namespace Sys2Proof.Machine

/-- STATUS.BUSY, bit 0. -/
def statusBusy (w : Word) : Bool := w.getLsbD 0

/-- STATUS.DONE, bit 1. -/
def statusDone (w : Word) : Bool := w.getLsbD 1

/-- STATUS.ERR, bit 2. -/
def statusErr (w : Word) : Bool := w.getLsbD 2

/-- STATUS.SIMD, bit 3. -/
def statusSimd (w : Word) : Bool := w.getLsbD 3

/-- STATUS.ERRCODE, bits 15:8. -/
def statusErrCode (w : Word) : BitVec 8 := w.extractLsb' 8 8

/-- The number of an error code (60_exceptions.md R403). -/
def errNumber : ErrCode → Nat
  | .illegalCmd => 0x01
  | .badBits => 0x02
  | .badGsize => 0x03
  | .badDtype => 0x04
  | .badShape => 0x05
  | .badAlign => 0x06
  | .badRange => 0x07
  | .overlap => 0x08
  | .simdUnsupported => 0x09

/-- STATUS while a command runs: 0x0001 (10_state.md R58). -/
def busyStatus : Word := 0x0001

/-- STATUS after a rejection with code c: `(c << 8) | 0x6` (10_state.md R58). -/
def rejectedStatus (c : ErrCode) : Word := (BitVec.ofNat 64 (errNumber c) <<< 8) ||| 0x6

/-- STATUS after completion: 0x0002, or 0x000A when the SIMD datapath ran (10_state.md R58). -/
def doneStatus (simd : Bool) : Word := if simd then 0x000A else 0x0002

/-- A STATUS value that tells the host that the last accepted command is complete: DONE, not BUSY, and not the report of
a rejected one (20_memory.md R120, 70_reset_and_hazards.md R463; log entry 23). -/
def showsCompletion (w : Word) : Bool := statusDone w && !statusBusy w && !statusErr w

/-- STATUS after reset (10_state.md R69). -/
def idleStatus : Word := 0x0000

/-- The values of STATUS that are reachable (10_state.md R56, R58). -/
def legalStatus (w : Word) : Bool :=
  w == idleStatus || w == busyStatus || w == doneStatus false || w == doneStatus true ||
  [ErrCode.illegalCmd, .badBits, .badGsize, .badDtype, .badShape, .badAlign, .badRange, .overlap].any
    fun c => w == rejectedStatus c

end Sys2Proof.Machine
end

