-- ==== Sys2Proof/Machine/Ops.lean ====
section
/-! DEFINITION. The operations every command shares: the checks on its buffers (60_exceptions.md R405 to R407),
rejection and acceptance (R400, R401), and completion (10_state.md R58, 20_memory.md R131, R133).

REJECTING A COMMAND is this hardware's one form of exception: it saves the error code in STATUS and nothing else,
transfers no control and needs no return (R410, R421, R422). -/

namespace Sys2Proof.Machine

/-- The outcome of a step of this machine. -/
abbrev Result := Host.Outcome State Fault Refusal

/-- The buffer's base is not aligned (60_exceptions.md R405); checked for length 0 as well. -/
def misaligned (b : Buffer) : Bool := b.base % b.align != 0

/-- The buffer leaves data memory (60_exceptions.md R406): exact arithmetic, never for length 0. -/
def outOfRange (memSize : Nat) (b : Buffer) : Bool := decide (0 < b.len) && decide (memSize < b.base + b.len)

/-- Two buffers intersect, both of non-zero length (60_exceptions.md R407). -/
def intersects (a b : Buffer) : Bool :=
  decide (0 < a.len) && decide (0 < b.len) && decide (a.base < b.base + b.len) && decide (b.base < a.base + a.len)

/-- Some out buffer intersects another buffer of the list (60_exceptions.md R407): in buffers may overlap. -/
def overlapping : List Buffer → Bool
  | [] => false
  | b :: bs => bs.any (fun c => (b.isOut || c.isOut) && intersects b c) || overlapping bs

/-- Steps 6 to 8 of the check order (60_exceptions.md R408). -/
def checkBuffers (memSize : Nat) (bs : List Buffer) : Option ErrCode :=
  if bs.any misaligned then some .badAlign
  else if bs.any (outOfRange memSize) then some .badRange
  else if overlapping bs then some .overlap
  else none

/-- Steps 2 to 4 of the check order for a command on floating-point buffers, then `rest` (60_exceptions.md R402,
R408). -/
def checkFields (bits : BitVec 4) (gsize : BitVec 8) (dtype : BitVec 2) (rest : FloatFields → Option ErrCode) :
    Option ErrCode :=
  match widthOfField bits with
  | none => some .badBits
  | some w =>
    match groupOfField gsize with
    | none => some .badGsize
    | some g =>
      match fmtOfField dtype with
      | none => some .badDtype
      | some t => rest ⟨w, g, t⟩

/-- Step 5 of the check order (60_exceptions.md R404): the innermost dimension divides evenly; then the buffers. -/
def checkShape (memSize inner divisor : Nat) (bs : List Buffer) : Option ErrCode :=
  if inner % divisor ≠ 0 then some .badShape else checkBuffers memSize bs

/-- `raise Error(c)`: STATUS takes the code, no other register changes, no byte is written (00_scope.md R11,
60_exceptions.md R401). -/
def reject (c : ErrCode) (s : State) : State := { s with status := rejectedStatus c }

/-- Acceptance: STATUS shows BUSY, the configuration is latched (60_exceptions.md R400, 00_scope.md R21). -/
def accept (i : Instr) (simd : Bool) (s : State) : State :=
  { s with
    status := busyStatus
    running := some { instr := i, latched := s.regs, simd := simd, written := [] } }

/-- The launch of a command: rejected with the first error, or accepted (60_exceptions.md R400). -/
def launch (i : Instr) (error : Option ErrCode) (simd : Bool) (s : State) : State :=
  match error with
  | some c => reject c s
  | none => accept i simd s

/-- `n` free bytes from address `a` on. -/
def freeBytes (draw : Nat) : Nat → Nat → List Byte
  | _, 0 => []
  | a, n + 1 => Config.freeByte draw a :: freeBytes draw (a + 1) n

/-- The block with every byte replaced by a free value. -/
def freeBlock (draw : Nat) (b : Block) : Block := (b.1, freeBytes draw b.1 b.2.length)

/-- Make single bytes unspecified. -/
def drawCells (draw : Nat) (m : Memory) : List Nat → Memory
  | [] => m
  | a :: as => drawCells draw (Memory.set m a (Config.freeByte draw a)) as

/-- Memory at completion: the command's output, unless the host has written one of its buffers' bytes meanwhile;
then every out byte and every byte so written is a free value (20_memory.md R131). -/
def commit (r : Run) (draw : Nat) (blocks : List Block) (m : Memory) : Memory :=
  if r.written.isEmpty then m.setBlocks blocks
  else drawCells draw (m.setBlocks (blocks.map (freeBlock draw))) r.written

/-- Completion of the running command: outputs written, STATUS shows DONE and the datapath (10_state.md R58). The host
has yet to read that (20_memory.md R120(c)). -/
def complete (r : Run) (blocks : List Block) (s : State) : State :=
  { s with
    status := doneStatus r.simd
    running := none
    unobserved := r :: s.unobserved
    mem := commit r s.draws blocks s.mem
    draws := s.draws + 1 }

/-- The execution of the running command with the outputs it has computed. No outputs means unsupported fields: no run
reaches that, and the machine is stuck. -/
def finish (r : Run) (blocks : Option (List Block)) (s : State) : Result :=
  match blocks with
  | some bs => .next (complete r bs s)
  | none => .fault .runningIllFormed

/-- THE TWO TRANSITIONS OF A COMMAND (10_state.md R58, 20_memory.md R133). With no command in flight, `i` is
launched: `error` is what its validation finds, `simd` the datapath it would use. With `i` in flight, it reads its
inputs, computes and writes its outputs in one transition: `blocks` are those outputs, as a function of the latched
configuration, the free-value counter and memory. A command written while another is in flight is dropped
(10_state.md R63). -/
def commandStep (i : Instr) (error : Option ErrCode) (simd : Bool)
    (blocks : Run → Nat → Memory → Option (List Block)) (s : State) : Result :=
  match s.running with
  | none => .next (launch i error simd s)
  | some r => if r.instr = i then finish r (blocks r s.draws s.mem) s else .next s

end Sys2Proof.Machine
end

