-- ==== Sys2Proof/Machine/Pack.lean ====
section
/-! DEFINITION. PACK and UNPACK (40_codec.md R220, R230). -/

namespace Sys2Proof.Machine

/-- The low `bits` bits of a code byte (40_codec.md R220). -/
def maskCode (w : Width) (c : Byte) : Byte := c &&& BitVec.ofNat 8 (nBins w)

/-- PACK's validation after decoding (40_codec.md R220). -/
def packCheck (bits : BitVec 4) (p : Params) (r : OperandRegs) : Option ErrCode :=
  match widthOfField bits with
  | none => some .badBits
  | some w => checkShape p.memSize r.cols.toNat (packFactor w) (packBuffers w r)

/-- The masked code bytes of pack `p` (40_codec.md R220). -/
def packCodes (w : Width) (r : OperandRegs) (m : Memory) (p : Nat) : List Byte :=
  (List.range (packFactor w)).map fun j => maskCode w (m.get (r.xAddr.toNat + p * packFactor w + j))

/-- PACK's output: pack after pack from W_ADDR (40_codec.md R220). -/
def packBlocks (w : Width) (r : OperandRegs) (m : Memory) : List Block :=
  [(r.wAddr.toNat, (List.range (matrixSize r / packFactor w)).flatMap fun p => packBytes w (packCodes w r m p))]

/-- PACK (40_codec.md R220). -/
def execPack (bits : BitVec 4) (s : State) : Result :=
  commandStep (.pack bits) (packCheck bits s.params s.regs) false
    (fun r _ m => (widthOfField bits).map fun w => packBlocks w r.latched m) s

/-- UNPACK's validation after decoding (40_codec.md R230). -/
def unpackCheck (bits : BitVec 4) (p : Params) (r : OperandRegs) : Option ErrCode :=
  match widthOfField bits with
  | none => some .badBits
  | some w => checkShape p.memSize r.cols.toNat (packFactor w) (unpackBuffers w r)

/-- UNPACK's output: the codes of pack after pack, one a byte, from O_ADDR (40_codec.md R230). -/
def unpackBlocks (w : Width) (r : OperandRegs) (m : Memory) : List Block :=
  [(r.oAddr.toNat,
    (List.range (matrixSize r / packFactor w)).flatMap fun p => extract m (r.wAddr.toNat + p * bytesPerPack w) w)]

/-- UNPACK (40_codec.md R230). -/
def execUnpack (bits : BitVec 4) (s : State) : Result :=
  commandStep (.unpack bits) (unpackCheck bits s.params s.regs) false
    (fun r _ m => (widthOfField bits).map fun w => unpackBlocks w r.latched m) s

end Sys2Proof.Machine
end

