-- ==== Sys2Proof/Machine/Qmm.lean ====
section
/-! DEFINITION. QMM and QMM.T: the dequantize-multiply kernels (42_qmm.md R300 to R323). -/

namespace Sys2Proof.Machine

/-- A decoded weight: code, scale and bias (42_qmm.md R301). -/
structure Weight where
  code : Byte
  scale : FVal
  bias : FVal
  deriving DecidableEq, Repr

/-- `wq(r, c)` of a stored packed matrix with `cols` columns (42_qmm.md R301). -/
def weightAt (f : FloatFields) (r : OperandRegs) (m : Memory) (cols row col : Nat) : Weight :=
  let g := row * (cols / groupElems f.group) + col / groupElems f.group
  { code := codeOfBuffer m r.wAddr.toNat f.width (row * cols + col)
    scale := loadFmt m f.fmt (r.sAddr.toNat + g * fmtSize f.fmt)
    bias := loadFmt m f.fmt (r.bAddr.toNat + g * fmtSize f.fmt) }

/-- Activation element x[m,k] (42_qmm.md R301). -/
def activation (f : FloatFields) (r : OperandRegs) (mem : Memory) (m k : Nat) : FVal :=
  loadFmt mem f.fmt (r.xAddr.toNat + (m * r.dimK.toNat + k) * fmtSize f.fmt)

/-- `mac_T(acc, x, code, scale, bias)` on a weight (42_qmm.md R306). -/
def macWeight (nm : Numerics) (t : Fmt) (acc x : FVal) (w : Weight) : FVal :=
  nm.mac t acc x (fOfNat w.code.toNat) w.scale w.bias

/-- The accumulator's start, +0.0. -/
def plusZero : FVal := .fin false 0

/-- One pass of QMM's k loop: x[m,k] across the decoded row k of W into the output row (42_qmm.md R302). -/
def qmmPass (nm : Numerics) (f : FloatFields) (r : OperandRegs) (mem : Memory) (m : Nat) (row : List FVal) (k : Nat) :
    List FVal :=
  let xi := activation f r mem m k
  List.zipWith (fun n acc => macWeight nm f.fmt acc xi (weightAt f r mem r.dimN.toNat k n))
    (List.range r.dimN.toNat) row

/-- Output row m of QMM: zeroed, then one pass for each k in order (42_qmm.md R302). -/
def qmmRow (nm : Numerics) (f : FloatFields) (r : OperandRegs) (mem : Memory) (m : Nat) : List FVal :=
  (List.range r.dimK.toNat).foldl (qmmPass nm f r mem m) (List.replicate r.dimN.toNat plusZero)

/-- QMM's output: row after row (42_qmm.md R300, R302). -/
def qmmBlocks (nm : Numerics) (f : FloatFields) (r : OperandRegs) (draw : Nat) (mem : Memory) : List Block :=
  [(r.oAddr.toNat,
    storeRow f.fmt draw r.oAddr.toNat ((List.range r.dimM.toNat).flatMap (qmmRow nm f r mem)))]

/-- QMM's validation after decoding (42_qmm.md R300). -/
def qmmCheck (bits : BitVec 4) (gsize : BitVec 8) (dtype : BitVec 2) (p : Params) (r : OperandRegs) :
    Option ErrCode :=
  checkFields bits gsize dtype fun f => checkShape p.memSize r.dimN.toNat (groupElems f.group) (qmmBuffers f r)

/-- QMM (42_qmm.md R300): no SIMD datapath. -/
def execQmm (bits : BitVec 4) (gsize : BitVec 8) (dtype : BitVec 2) (s : State) : Result :=
  commandStep (.qmm bits gsize dtype) (qmmCheck bits gsize dtype s.params s.regs) false
    (fun r draw m => (floatFields bits gsize dtype).map fun f => qmmBlocks (numericsOf s.params) f r.latched draw m) s

/-- One output element of QMM.T on the scalar datapath: K walked group by group (42_qmm.md R311). -/
def qmmTElem (nm : Numerics) (f : FloatFields) (r : OperandRegs) (mem : Memory) (m n : Nat) : FVal :=
  let gs := groupElems f.group
  (List.range (r.dimK.toNat / gs)).foldl
    (fun acc g =>
      (List.range gs).foldl
        (fun acc j =>
          macWeight nm f.fmt acc (activation f r mem m (g * gs + j)) (weightAt f r mem r.dimK.toNat n (g * gs + j)))
        acc)
    plusZero

/-- One chunk of the SIMD datapath: S lanes advance together (42_qmm.md R314, R316). -/
def simdChunk (nm : Numerics) (f : FloatFields) (r : OperandRegs) (lanes : SimdLanes) (mem : Memory) (m n : Nat)
    (acc : List FVal) (c : Nat) : List FVal :=
  let kk := r.dimK.toNat
  let k0 := c * laneCount lanes
  let g := n * (kk / groupElems f.group) + k0 / groupElems f.group
  let sc := nm.cvt .f32 (loadFmt mem f.fmt (r.sAddr.toNat + g * fmtSize f.fmt))
  let bi := nm.cvt .f32 (loadFmt mem f.fmt (r.bAddr.toNat + g * fmtSize f.fmt))
  let codes := extractSimd mem (r.wAddr.toNat + (n * kk + k0) / packFactor f.width * 4) f.width lanes
  List.zipWith
    (fun l acc =>
      nm.simdMac acc (nm.cvt .f32 (activation f r mem m (k0 + l))) (fOfNat (codes.getD l 0).toNat) sc bi)
    (List.range (laneCount lanes)) acc

/-- The lane accumulators after all K/S chunks (42_qmm.md R314). -/
def simdLaneSums (nm : Numerics) (f : FloatFields) (r : OperandRegs) (lanes : SimdLanes) (mem : Memory) (m n : Nat) :
    List FVal :=
  (List.range (r.dimK.toNat / laneCount lanes)).foldl (simdChunk nm f r lanes mem m n)
    (List.replicate (laneCount lanes) plusZero)

/-- One output element of QMM.T on the SIMD datapath, narrowed once (42_qmm.md R314, R317). -/
def qmmTSimdElem (nm : Numerics) (f : FloatFields) (r : OperandRegs) (lanes : SimdLanes) (mem : Memory) (m n : Nat) :
    FVal :=
  nm.cvt f.fmt (nm.reduce (laneLevels lanes) (simdLaneSums nm f r lanes mem m n))

/-- One output element of QMM.T on the datapath chosen at acceptance (42_qmm.md R310, R312). -/
def qmmTDatapath (nm : Numerics) (f : FloatFields) (r : OperandRegs) (lanes : SimdLanes) (simd : Bool) (mem : Memory)
    (m n : Nat) : FVal :=
  if simd then qmmTSimdElem nm f r lanes mem m n else qmmTElem nm f r mem m n

/-- QMM.T's output: element after element, each written once (42_qmm.md R310, R311, R314). -/
def qmmTBlocks (nm : Numerics) (f : FloatFields) (r : OperandRegs) (lanes : SimdLanes) (simd : Bool) (draw : Nat)
    (mem : Memory) : List Block :=
  [(r.oAddr.toNat,
    storeRow f.fmt draw r.oAddr.toNat
      ((List.range r.dimM.toNat).flatMap fun m =>
        (List.range r.dimN.toNat).map (qmmTDatapath nm f r lanes simd mem m)))]

/-- QMM.T's validation after decoding (42_qmm.md R310). -/
def qmmTCheck (bits : BitVec 4) (gsize : BitVec 8) (dtype : BitVec 2) (p : Params) (r : OperandRegs) :
    Option ErrCode :=
  checkFields bits gsize dtype fun f => checkShape p.memSize r.dimK.toNat (groupElems f.group) (qmmTBuffers f r)

/-- STATUS.SIMD of a QMM.T: `simd_ok(bits)` (42_qmm.md R310, R312). -/
def qmmTSimd (bits : BitVec 4) (lanes : SimdLanes) : Bool :=
  match widthOfField bits with
  | some w => simdOk lanes w
  | none => false

/-- QMM.T (42_qmm.md R310). -/
def execQmmT (bits : BitVec 4) (gsize : BitVec 8) (dtype : BitVec 2) (s : State) : Result :=
  commandStep (.qmmT bits gsize dtype) (qmmTCheck bits gsize dtype s.params s.regs) (qmmTSimd bits s.params.lanes)
    (fun r draw m => (floatFields bits gsize dtype).map fun f =>
      qmmTBlocks (numericsOf s.params) f r.latched s.params.lanes r.simd draw m) s

end Sys2Proof.Machine
end

