-- ==== Sys2Proof/Machine/Quantize.lean ====
section
/-! DEFINITION. QUANTIZE: the group-wise affine quantizer (41_quantize.md R250 to R259). -/

namespace Sys2Proof.Machine

/-- Step 1, one extremum: `pick` folded over the group, from its first element (41_quantize.md R252). -/
def extremum (pick : FVal → FVal → FVal) : List FVal → FVal
  | [] => .fin false 0
  | v :: vs => vs.foldl pick v

/-- Step 2: `max32(div_f32(sub_f32(w_max, w_min), n_bins), eps)` (41_quantize.md R253). -/
def initialScale (nm : Numerics) (w : Width) (wMin wMax : FVal) : FVal :=
  nm.max32 (nm.div .f32 (nm.sub .f32 wMax wMin) (fOfNat (nBins w))) epsVal

/-- Step 3: the sign convention and the edge (41_quantize.md R254). -/
def signAndEdge (wMin wMax scale : FVal) : FVal × FVal :=
  if fLt (fAbs wMax) (fAbs wMin) then (scale, wMin) else (fNeg scale, wMax)

/-- `q0 ≠ 0` as a number (41_quantize.md R255). -/
def isZero : FVal → Bool
  | .fin _ m => m == 0
  | _ => false

/-- Step 4: refinement of scale and bias (41_quantize.md R255). -/
def refine (nm : Numerics) (scale edge : FVal) : FVal × FVal :=
  let q0 := nm.rint (nm.div .f32 edge scale)
  if isZero q0 then (scale, .fin false 0) else (nm.div .f32 edge q0, edge)

/-- `group_params(w, bits)`: scale and bias (41_quantize.md R252 to R255). -/
def groupParams (nm : Numerics) (w : Width) (ws : List FVal) : FVal × FVal :=
  let wMin := extremum nm.min32 ws
  let wMax := extremum nm.max32 ws
  let (scale, edge) := signAndEdge wMin wMax (initialScale nm w wMin wMax)
  refine nm scale edge

/-- A free code in [0, n_bins]. -/
def freeCode (w : Width) (draw index : Nat) : Byte := BitVec.ofNat 8 (Config.freeCode draw index % 2 ^ widthBits w)

/-- Step 5: `quant_code` (41_quantize.md R256), an integer in [0, n_bins] for every NUMERICS record (log entry 4). The
quotient of an element equal to the bias is 0 / 0 when q0 has overflowed, so that the scale is a zero: its code is 0, as
R250 says of a constant group and R260 of the edge. No other quotient of a finite group is a NaN under the default
record; under another record its code is free (log entry 15). -/
def quantCode (nm : Numerics) (w : Width) (draw index : Nat) (scale bias v : FVal) : Byte :=
  match nm.rint (nm.div .f32 (nm.sub .f32 v bias) scale) with
  | .nan => if v = bias then 0 else freeCode w draw index
  | t => BitVec.ofNat 8 (min (nm.toU (clamp32 nm t (.fin false 0) (fOfNat (nBins w)))) (nBins w))

/-- What one group yields: its codes, and the stored bytes of its scale and bias. -/
structure GroupResult where
  codes : List Byte
  scale : List Byte
  bias : List Byte
  deriving DecidableEq, Repr

/-- The codes of elements `index`, `index + 1`, … . -/
def quantCodes (nm : Numerics) (w : Width) (draw : Nat) (scale bias : FVal) : Nat → List FVal → List Byte
  | _, [] => []
  | index, v :: vs => quantCode nm w draw index scale bias v :: quantCodes nm w draw scale bias (index + 1) vs

/-- The group's elements, widened exactly to binary32 (41_quantize.md R250, R251). -/
def groupInputs (nm : Numerics) (f : FloatFields) (r : OperandRegs) (m : Memory) (g : Nat) : List FVal :=
  (List.range (groupElems f.group)).map fun j =>
    nm.cvt .f32 (loadFmt m f.fmt (r.xAddr.toNat + (g * groupElems f.group + j) * fmtSize f.fmt))

/-- Some element of the group is ±∞ or a NaN, as stored (41_quantize.md R258). -/
def groupNonFinite (f : FloatFields) (r : OperandRegs) (m : Memory) (g : Nat) : Bool :=
  (List.range (groupElems f.group)).any fun j =>
    nonFinite (loadFmt m f.fmt (r.xAddr.toNat + (g * groupElems f.group + j) * fmtSize f.fmt))

/-- Address of scale `g` (41_quantize.md R259). -/
def scaleAddr (f : FloatFields) (r : OperandRegs) (g : Nat) : Nat := r.sAddr.toNat + g * fmtSize f.fmt

/-- Address of bias `g` (41_quantize.md R259). -/
def biasAddr (f : FloatFields) (r : OperandRegs) (g : Nat) : Nat := r.bAddr.toNat + g * fmtSize f.fmt

/-- An unspecified group: any codes in [0, n_bins], any T values (41_quantize.md R258). -/
def freeGroup (f : FloatFields) (draw g : Nat) : GroupResult :=
  { codes := (List.range (groupElems f.group)).map fun j => freeCode f.width draw (g * groupElems f.group + j)
    scale := bytesLE (fmtSize f.fmt) (Config.freeScale draw g)
    bias := bytesLE (fmtSize f.fmt) (Config.freeBias draw g) }

/-- Group `g` (41_quantize.md R250): parameters, codes, and the stored cast of scale and bias (R259). -/
def quantizeGroup (nm : Numerics) (f : FloatFields) (r : OperandRegs) (draw : Nat) (m : Memory) (g : Nat) :
    GroupResult :=
  if groupNonFinite f r m g then freeGroup f draw g
  else
    let ws := groupInputs nm f r m g
    let (scale, bias) := groupParams nm f.width ws
    { codes := quantCodes nm f.width draw scale bias (g * groupElems f.group) ws
      scale := storeBytes f.fmt draw (scaleAddr f r g) (nm.cvt f.fmt scale)
      bias := storeBytes f.fmt draw (biasAddr f r g) (nm.cvt f.fmt bias) }

/-- The packs of a group's codes: codes p·pf .. p·pf+pf-1 go to pack p (41_quantize.md R257). -/
def packGroup (f : FloatFields) (codes : List Byte) : List Byte :=
  (List.range (groupElems f.group / packFactor f.width)).flatMap fun p =>
    packBytes f.width ((codes.drop (p * packFactor f.width)).take (packFactor f.width))

/-- QUANTIZE's outputs: packed codes, scales, biases, group after group (41_quantize.md R250). -/
def quantizeBlocks (nm : Numerics) (f : FloatFields) (r : OperandRegs) (draw : Nat) (m : Memory) : List Block :=
  let groups := (List.range (matrixSize r / groupElems f.group)).map (quantizeGroup nm f r draw m)
  [ (r.wAddr.toNat, groups.flatMap fun g => packGroup f g.codes),
    (r.sAddr.toNat, groups.flatMap (·.scale)),
    (r.bAddr.toNat, groups.flatMap (·.bias)) ]

/-- QUANTIZE's validation after decoding (41_quantize.md R250). -/
def quantizeCheck (bits : BitVec 4) (gsize : BitVec 8) (dtype : BitVec 2) (p : Params) (r : OperandRegs) :
    Option ErrCode :=
  checkFields bits gsize dtype fun f =>
    checkShape p.memSize r.cols.toNat (groupElems f.group) (quantizeBuffers f r)

/-- QUANTIZE (41_quantize.md R250). -/
def execQuantize (bits : BitVec 4) (gsize : BitVec 8) (dtype : BitVec 2) (s : State) : Result :=
  commandStep (.quantize bits gsize dtype) (quantizeCheck bits gsize dtype s.params s.regs) false
    (fun r draw m => (floatFields bits gsize dtype).map fun f =>
      quantizeBlocks (numericsOf s.params) f r.latched draw m) s

end Sys2Proof.Machine
end

