-- ==== Sys2Proof/Machine/Dispatch.lean ====
section
/-! DEFINITION. One arm per command. -/

namespace Sys2Proof.Machine

/-- The command `i` at the state `s`: its launch, or, when it is in flight, its execution (60_exceptions.md R400). -/
def exec (i : Instr) (s : State) : Host.Outcome State Fault Refusal :=
  match i with
  | .quantize bits gsize dtype => Sys2Proof.Machine.execQuantize bits gsize dtype s
  | .qmm bits gsize dtype => Sys2Proof.Machine.execQmm bits gsize dtype s
  | .qmmT bits gsize dtype => Sys2Proof.Machine.execQmmT bits gsize dtype s
  | .pack bits => Sys2Proof.Machine.execPack bits s
  | .unpack bits => Sys2Proof.Machine.execUnpack bits s

end Sys2Proof.Machine
end

