-- ==== Sys2Proof/Machine/HostMemory.lean ====
section
/-! DEFINITION. Host accesses to data memory, also before the host has read a command's DONE (20_memory.md R120,
R131), and the effect of reset on memory
(70_reset_and_hazards.md R451). -/

namespace Sys2Proof.Machine

/-- Bytes of a host access. -/
def accessBytes : AccessSize → Nat
  | .b1 => 1
  | .b2 => 2
  | .b4 => 4
  | .b8 => 8

/-- The commands whose buffers are under 20_memory.md R131: from the CMD write to the host's STATUS read that shows
completion (R120(c); log entry 23). -/
def openRuns (s : State) : List Run := s.running.toList ++ s.unobserved

/-- The address lies in a buffer of the command. -/
def inBuffers (r : Run) (x : Nat) : Bool := (commandBuffers r.instr r.latched).any (·.has x)

/-- The address lies in an out buffer of the command. -/
def inOutBuffers (r : Run) (x : Nat) : Bool := (outBuffers r.instr r.latched).any (·.has x)

/-- The address lies in a buffer of an open command. -/
def inOpenBuffers (s : State) (x : Nat) : Bool := (openRuns s).any (inBuffers · x)

/-- A host read of the byte gives an unspecified value: a byte of an out buffer of an open command
(20_memory.md R131), or a buffer byte that the host has written since its CMD write (log entry 8). -/
def readsUnspecified (s : State) (x : Nat) : Bool := (openRuns s).any fun r => inOutBuffers r x || r.written.contains x

/-- What a host read of one byte gives (20_memory.md R131). -/
def hostByte (s : State) (x : Nat) : Byte :=
  if readsUnspecified s x then Config.freeByte s.draws x else s.mem.get x

/-- What a host read of n bytes gives, little-endian (20_memory.md R102). -/
def hostRead (s : State) : Nat → Nat → Nat
  | _, 0 => 0
  | a, n + 1 => (hostByte s a).toNat + 256 * hostRead s (a + 1) n

/-- Host stores of bytes at rising addresses. A byte of an open command's buffer becomes unspecified
(20_memory.md R131; log entry 9). -/
def hostStore (s : State) : Memory → Nat → List Byte → Memory
  | m, _, [] => m
  | m, a, b :: bs =>
    hostStore s (m.set a (if inOpenBuffers s a then Config.freeByte s.draws a else b)) (a + 1) bs

/-- The bytes of the command's buffers among `n` bytes from `a` on. -/
def storedIn (r : Run) (a n : Nat) : List Nat := ((List.range n).map (a + ·)).filter (inBuffers r)

/-- A command with the host's store of `n` bytes from `a` on to its buffers noted. -/
def noteStores (a n : Nat) (r : Run) : Run := { r with written := storedIn r a n ++ r.written }

/-- The out buffers of a command, every byte free. -/
def freeOutBlocks (draw : Nat) (r : Run) : List Block :=
  (outBuffers r.instr r.latched).map fun b => (b.base, freeBytes draw b.base b.len)

/-- The out buffers that a host store of `n` bytes from `a` on makes unspecified at once: those of every command that is
complete, whose DONE the host has not read, and one of whose buffers the store meets (20_memory.md R120(c), R131; log
entry 23). -/
def spoiledBlocks (s : State) (a n : Nat) : List Block :=
  (s.unobserved.filter fun r => !(storedIn r a n).isEmpty).flatMap (freeOutBlocks s.draws)

/-- `MR.<n> addr` (30_encoding.md R170). -/
def hostMemRead (size : AccessSize) (addr : Nat) (s : State) : Result :=
  if s.params.memSize < addr + accessBytes size then .fault (.dataAddressOutside addr)
  else .next { s with hostData := BitVec.ofNat 64 (hostRead s addr (accessBytes size)), draws := s.draws + 1 }

/-- `MW.<n> addr, value` (30_encoding.md R170). -/
def hostMemWrite (size : AccessSize) (addr : Nat) (value : Word) (s : State) : Result :=
  if s.params.memSize < addr + accessBytes size then .fault (.dataAddressOutside addr)
  else
    .next { s with
      mem := (hostStore s s.mem addr (bytesLE (accessBytes size) value.toNat)).setBlocks
        (spoiledBlocks s addr (accessBytes size))
      running := s.running.map (noteStores addr (accessBytes size))
      unobserved := s.unobserved.map (noteStores addr (accessBytes size))
      draws := s.draws + 1 }

/-- The out buffers of an abandoned command, every byte free (70_reset_and_hazards.md R451). -/
def abandonedBlocks (s : State) : List Block :=
  match s.running with
  | none => []
  | some r => freeOutBlocks s.draws r

/-- Assertion of the reset input: a command in flight is abandoned, the registers take their reset values, data
memory is left alone but for the abandoned out buffers (70_reset_and_hazards.md R450 to R452; log entry 10). What the
host has not read as complete stays so (log entry 23). -/
def assertReset (s : State) : State :=
  { s with
    cmd := 0
    status := idleStatus
    regs := OperandRegs.reset
    running := none
    resetAsserted := true
    mem := s.mem.setBlocks (abandonedBlocks s)
    draws := s.draws + 1 }

/-- Release of the reset input (70_reset_and_hazards.md R450, R453). -/
def releaseReset (s : State) : State := { s with resetAsserted := false }

end Sys2Proof.Machine
end

