-- ==== Sys2Proof/Machine/Registers.lean ====
section
/-! DEFINITION. The register block (10_state.md R50 to R64): its map, what a read gives and what a write that is not
dropped does to every register but CMD, whose write launches a command (Machine/Agents.lean). -/

namespace Sys2Proof.Machine

/-- CAP (10_state.md R52). -/
def capValue (p : Params) : Word :=
  BitVec.ofNat 64 (laneCount p.lanes + 0b111 * 2 ^ 16 + 0x17C * 2 ^ 32 + 0b111 * 2 ^ 48)

/-- The register at index i of the block, offset 8·i (10_state.md R64). -/
def regAt : Nat → Reg
  | 0 => .cap
  | 1 => .cmd
  | 2 => .status
  | 3 => .dimM
  | 4 => .dimN
  | 5 => .dimK
  | 6 => .rows
  | 7 => .cols
  | 8 => .xAddr
  | 9 => .wAddr
  | 10 => .sAddr
  | 11 => .bAddr
  | 12 => .oAddr
  | _ => .reserved

/-- The offset of a register (10_state.md R64); the first reserved one stands for all. -/
def regOffset : Reg → Nat
  | .cap => 0x00
  | .cmd => 0x08
  | .status => 0x10
  | .dimM => 0x18
  | .dimN => 0x20
  | .dimK => 0x28
  | .rows => 0x30
  | .cols => 0x38
  | .xAddr => 0x40
  | .wAddr => 0x48
  | .sAddr => 0x50
  | .bAddr => 0x58
  | .oAddr => 0x60
  | .reserved => 0x68

/-- The host address of a register. -/
def regAddr (p : Params) (r : Reg) : Nat := p.regBase + regOffset r

/-- The register a host access reaches: only one naturally aligned 8-byte access is modelled (10_state.md R51). -/
def regOfAccess (p : Params) (addr size : Nat) : Except Refusal Reg :=
  if addr < p.regBase ∨ p.regBase + 256 ≤ addr then .error .outsideRegisterBlock
  else if size ≠ 8 ∨ (addr - p.regBase) % 8 ≠ 0 then .error .registerAccessForm
  else .ok (regAt ((addr - p.regBase) / 8))

/-- What a read gives (10_state.md R52, R55, R56, R59 to R62); it has no side effect (R51). -/
def readReg (r : Reg) (s : State) : Word :=
  match r with
  | .cap => capValue s.params
  | .cmd => s.cmd
  | .status => s.status
  | .dimM => s.regs.dimM.setWidth 64
  | .dimN => s.regs.dimN.setWidth 64
  | .dimK => s.regs.dimK.setWidth 64
  | .rows => s.regs.rows.setWidth 64
  | .cols => s.regs.cols.setWidth 64
  | .xAddr => s.regs.xAddr
  | .wAddr => s.regs.wAddr
  | .sAddr => s.regs.sAddr
  | .bAddr => s.regs.bAddr
  | .oAddr => s.regs.oAddr
  | .reserved => 0

/-- What a write to an operand register does: a dimension keeps bits 31:0, an address all 64 (10_state.md R59 to R61).
CAP, STATUS and the reserved offsets ignore writes (R52, R57, R62); CMD is not written here. -/
def writeOperandReg (r : Reg) (v : Word) (o : OperandRegs) : OperandRegs :=
  match r with
  | .cap => o
  | .cmd => o
  | .status => o
  | .dimM => { o with dimM := v.setWidth 32 }
  | .dimN => { o with dimN := v.setWidth 32 }
  | .dimK => { o with dimK := v.setWidth 32 }
  | .rows => { o with rows := v.setWidth 32 }
  | .cols => { o with cols := v.setWidth 32 }
  | .xAddr => { o with xAddr := v }
  | .wAddr => { o with wAddr := v }
  | .sAddr => { o with sAddr := v }
  | .bAddr => { o with bAddr := v }
  | .oAddr => { o with oAddr := v }
  | .reserved => o

end Sys2Proof.Machine
end

