-- ==== Sys2Proof/Machine/HostSequences.lean ====
section
/-! DEFINITION. The host's syntax and pseudo-instructions: command mnemonics, WR, RD, CMD, RUN (30_encoding.md R170
to R173), BATCHED_QMM and GATHER_QMM (43_host_batched.md R350 to R356). -/

namespace Sys2Proof.Machine

/-- The suffix that names an element type (30_encoding.md R170); a reserved DTYPE has none. -/
def dtypeSuffix (dtype : BitVec 2) : Option String :=
  match fmtOfField dtype with
  | some .f32 => some "f32"
  | some .f16 => some "f16"
  | some .bf16 => some "bf16"
  | none => none

/-- The written form of a command on floating-point buffers (30_encoding.md R170). -/
def asmFloat (op : String) (bits : BitVec 4) (gsize : BitVec 8) (dtype : BitVec 2) : Option String :=
  (dtypeSuffix dtype).map fun t => op ++ ".b" ++ toString bits.toNat ++ ".g" ++ toString gsize.toNat ++ "." ++ t

/-- The assembler mnemonic of a command (30_encoding.md R170), if its element type has a name. -/
def asmMnemonic : Instr → Option String
  | .quantize bits gsize dtype => asmFloat "QUANTIZE" bits gsize dtype
  | .qmm bits gsize dtype => asmFloat "QMM" bits gsize dtype
  | .qmmT bits gsize dtype => asmFloat "QMM.T" bits gsize dtype
  | .pack bits => some ("PACK.b" ++ toString bits.toNat)
  | .unpack bits => some ("UNPACK.b" ++ toString bits.toNat)

/-- `WR <reg>, <value>`: one 8-byte register write (30_encoding.md R170). -/
def wr (p : Params) (r : Reg) (v : Word) : Event := .regWrite (regAddr p r) 8 v

/-- `RD <reg>`: one register read (30_encoding.md R170). -/
def rd (p : Params) (r : Reg) : Event := .regRead (regAddr p r) 8

/-- `CMD <word>` (30_encoding.md R170). -/
def cmdWrite (p : Params) (w : Word) : Event := wr p .cmd w

/-- `RUN <mnemonic>`: the CMD write, then POLL (30_encoding.md R173). -/
def runEvents (p : Params) (i : Instr) : List Event := [cmdWrite p (encode i), .poll]

/-- The command of a batched or gathered call (43_host_batched.md R352). -/
def batchInstr (b : BatchProduct) : Instr :=
  if b.trans then .qmmT b.bits b.gsize b.dtype else .qmm b.bits b.gsize b.dtype

/-- sz(T) of DTYPE, as the address of an output batch uses it (43_host_batched.md R352). An unsupported DTYPE has no
size: its first command, at offset 0 whatever the size, is rejected and stops the sequence (R354; log entry 22). -/
def dtypeSize (dtype : BitVec 2) : Nat :=
  match fmtOfField dtype with
  | some t => fmtSize t
  | none => 0

/-- The multi-index walk of `loc`, innermost dimension first. -/
def locInner : Nat → List (Nat × Nat) → Nat
  | _, [] => 0
  | b, (d, st) :: rest => b % d * st + locInner (b / d) rest

/-- `loc(b, d, st)`: the byte offset of flat batch index b (43_host_batched.md R351). -/
def loc (b : Nat) (d st : List Nat) : Nat := locInner b (List.zip d st).reverse

/-- The strides of an operand whose dimensions are (size, stride), aligned to an output batch shape: a dimension that
is absent or of size 1 gets stride 0 (43_host_batched.md R351). DESIGN CHOICE (log entry 21): the absent dimensions are
the outermost ones, as the operand's batch shape is aligned at its innermost end. -/
def broadcastStrides (shape : List Nat) (dims : List (Nat × Nat)) : List Nat :=
  List.replicate (shape.length - dims.length) 0 ++ dims.map fun d => if d.1 = 1 then 0 else d.2

/-- The three dimension writes that open both sequences (43_host_batched.md R352, R353). -/
def dimWrites (p : Params) (b : BatchProduct) : List Event :=
  [wr p .dimM (b.m.setWidth 64), wr p .dimN (b.n.setWidth 64), wr p .dimK (b.k.setWidth 64)]

/-- The register writes and RUN of one batch: offsets of x, W, the scales and the biases, and the batch number
(43_host_batched.md R352, R353). -/
def batchLaunch (p : Params) (b : BatchProduct) (xOff wOff sOff bOff i : Nat) : List Event :=
  [ wr p .xAddr (BitVec.ofNat 64 (b.xBase + xOff)),
    wr p .wAddr (BitVec.ofNat 64 (b.wBase + wOff)),
    wr p .sAddr (BitVec.ofNat 64 (b.sBase + sOff)),
    wr p .bAddr (BitVec.ofNat 64 (b.bBase + bOff)),
    wr p .oAddr (BitVec.ofNat 64 (b.oBase + i * b.m.toNat * b.n.toNat * dtypeSize b.dtype)) ] ++
  runEvents p (batchInstr b)

/-- Put moves in front of the agenda. -/
def pushEvents (es : List Event) (s : State) : State := { s with agenda := es ++ s.agenda }

/-- BATCHED_QMM: the dimension writes, then batch 0 (43_host_batched.md R352). -/
def batchedStart (b : Batched) (s : State) : State :=
  pushEvents (dimWrites s.params b.product ++ [.batchedAt b 0]) s

/-- The sequence stops: an earlier batch was rejected, as the host's last read, of STATUS, shows
(43_host_batched.md R352). -/
def sequenceStops (i : Nat) (s : State) : Bool := decide (0 < i) && statusErr s.hostData

/-- BATCHED_QMM before batch i (43_host_batched.md R352). -/
def batchedNext (b : Batched) (i : Nat) (s : State) : State :=
  if sequenceStops i s then s
  else if i < b.shape.prod then
    pushEvents
      (batchLaunch s.params b.product (loc i b.shape b.xStrides) (loc i b.shape b.wStrides) (loc i b.shape b.sStrides)
        (loc i b.shape b.bStrides) i ++ [.batchedAt b (i + 1)]) s
  else s

/-- GATHER_QMM: the dimension writes, then position 0 (43_host_batched.md R353). -/
def gatherStart (g : Gather) (s : State) : State :=
  pushEvents (dimWrites s.params g.product ++ [.gatherAt g 0]) s

/-- Index i of an array of u32 in data memory (43_host_batched.md R353). -/
def gatherIndex (s : State) (base i : Nat) : Nat := hostRead s (base + 4 * i) 4

/-- Positions i to L-1 select existing batches (43_host_batched.md R355). -/
def indicesInRange (g : Gather) (i : Nat) (s : State) : Bool :=
  (List.range (g.count - i)).all fun j =>
    decide (gatherIndex s g.lhsAddr (i + j) < g.xShape.prod) && decide (gatherIndex s g.rhsAddr (i + j) < g.wShape.prod)

/-- GATHER_QMM before position i: the indices are read as data memory holds them then (43_host_batched.md R353, R355;
log entry 16). -/
def gatherNext (g : Gather) (i : Nat) (s : State) : Result :=
  if sequenceStops i s then .next s
  else if g.count ≤ i then .next s
  else if s.params.memSize < g.lhsAddr + 4 * g.count then .fault (.dataAddressOutside g.lhsAddr)
  else if s.params.memSize < g.rhsAddr + 4 * g.count then .fault (.dataAddressOutside g.rhsAddr)
  else if indicesInRange g i s then
    let l := gatherIndex s g.lhsAddr i
    let r := gatherIndex s g.rhsAddr i
    .next
      (pushEvents
        (batchLaunch s.params g.product (loc l g.xShape g.xStrides) (loc r g.wShape g.wStrides)
          (loc r g.wShape g.sStrides) (loc r g.wShape g.bStrides) i ++ [.gatherAt g (i + 1)])
        { s with draws := s.draws + 1 })
  else .refused .gatherIndexOutOfRange

end Sys2Proof.Machine
end

