-- ==== Sys2Proof/Machine/Agents.lean ====
section
/-! DEFINITION. The moves of the agents: host register accesses, the CMD write that launches a command, POLL, the
engine's turn, and the agenda (log entry 1). -/

namespace Sys2Proof.Machine

/-- A write of `v` to CMD while the engine is idle: CMD takes the value, the word is decoded, and the command is
rejected or launched, all in one step (10_state.md R54, 60_exceptions.md R400). -/
def writeCmd (v : Word) (s : State) : Result :=
  match decode v with
  | .illegal _ => .next (reject .illegalCmd { s with cmd := v })
  | .command i => exec i { s with cmd := v }

/-- A host register write; dropped while STATUS.BUSY is 1 (10_state.md R63) or reset is asserted
(70_reset_and_hazards.md R450). -/
def hostRegWrite (addr size : Nat) (v : Word) (s : State) : Result :=
  match regOfAccess s.params addr size with
  | .error e => .refused e
  | .ok r =>
    if s.resetAsserted || statusBusy s.status then .next s
    else match r with
      | .cmd => writeCmd v s
      | r => .next { s with regs := writeOperandReg r v s.regs }

/-- What a host register read does: the host has the value. No register changes (10_state.md R51). A read of STATUS that
shows completion ends R131 for every completed command, as commands never overlap (20_memory.md R120, R121;
log entry 23). -/
def hostReads (r : Reg) (s : State) : State :=
  { s with
    hostData := readReg r s
    unobserved := if r = .status ∧ showsCompletion s.status = true then [] else s.unobserved }

/-- A host register read (10_state.md R51); refused while reset is asserted (93_implementation_defined.md U23). -/
def hostRegRead (addr size : Nat) (s : State) : Result :=
  match regOfAccess s.params addr size with
  | .error e => .refused e
  | .ok r => if s.resetAsserted then .refused .readDuringReset else .next (hostReads r s)

/-- The engine's turn: the command in flight reaches completion; an idle engine does nothing (60_exceptions.md R435,
70_reset_and_hazards.md R471). -/
def engineTurn (s : State) : Result :=
  match s.running with
  | none => .next s
  | some r => exec r.instr s

/-- One iteration of POLL: RD STATUS, and once more if DONE is 0 (30_encoding.md R172). A command in flight gets its
turn in between, so that the loop ends (70_reset_and_hazards.md R471; log entry 1). -/
def pollOnce (s : State) : Result :=
  if s.resetAsserted then .refused .readDuringReset
  else
    let s' := hostReads .status s
    if statusDone s.status then .next s'
    else if statusBusy s.status then .next (pushEvents [.engineTurn, .poll] s')
    else .next (pushEvents [.poll] s')

/-- One move of the agenda. -/
def eventStep (e : Event) (s : State) : Result :=
  match e with
  | .regWrite addr size v => hostRegWrite addr size v s
  | .regRead addr size => hostRegRead addr size s
  | .memWrite size addr v => hostMemWrite size addr v s
  | .memRead size addr => hostMemRead size addr s
  | .poll => pollOnce s
  | .engineTurn => engineTurn s
  | .resetAssert => .next (assertReset s)
  | .resetRelease => .next (releaseReset s)
  | .batched b => .next (batchedStart b s)
  | .batchedAt b i => .next (batchedNext b i s)
  | .gather g => .next (gatherStart g s)
  | .gatherAt g i => gatherNext g i s

/-- An engine that waits for a CMD write: no command in flight, reset released. A state that is not so is made so. -/
def madeIdle (s : State) : State :=
  { s with
    resetAsserted := false
    status := if statusBusy s.status then idleStatus else s.status
    running := none }

/-- The pending CMD write of a command word (10_state.md R54): the command the next step launches. -/
def withCmdWrite (s : State) (w : Word) : State := pushEvents [cmdWrite s.params w] (madeIdle s)

end Sys2Proof.Machine
end

