-- ==== Sys2Proof/Machine/Step.lean ====
section
/-! DEFINITION. One step of the machine. -/

namespace Sys2Proof.Machine

/-- The first move of the agenda; with nothing on it, the engine's turn (log entry 1). -/
def step (s : State) : Host.Outcome State Fault Refusal :=
  match s.agenda with
  | [] => engineTurn s
  | e :: rest => eventStep e { s with agenda := rest }

/-- The state whose next step launches the command word with the low `nbits` bits of `w`: its CMD write is the first
move of the agenda of an idle engine (log entry 20). -/
def State.withFetchWord (s : State) (nbits w : Nat) : State := withCmdWrite s (BitVec.ofNat 64 (w % 2 ^ nbits))

end Sys2Proof.Machine
end

