-- ==== Sys2Proof/Safety.lean ====
section
/-! DEFINITION. What a good state and a safe outcome are, in the terms the claims use. -/

namespace Sys2Proof.Machine

/-- The parameters meet 00_scope.md R6. -/
def paramsOk (p : Params) : Bool := decide (1 ≤ p.memSize) && decide (p.memSize ≤ 2 ^ 64) && p.regBase % 8 == 0

/-- `validate(cfg)` of a decoded command: the first error of 60_exceptions.md R408, or none. -/
def commandCheck (i : Instr) (p : Params) (r : OperandRegs) : Option ErrCode :=
  match i with
  | .quantize bits gsize dtype => quantizeCheck bits gsize dtype p r
  | .qmm bits gsize dtype => qmmCheck bits gsize dtype p r
  | .qmmT bits gsize dtype => qmmTCheck bits gsize dtype p r
  | .pack bits => packCheck bits p r
  | .unpack bits => unpackCheck bits p r

/-- The datapath that acceptance selects: SIMD only for a QMM.T with `simd_ok` (42_qmm.md R312, R313). -/
def commandSimd (i : Instr) (lanes : SimdLanes) : Bool :=
  match i with
  | .qmmT bits _ _ => qmmTSimd bits lanes
  | _ => false

/-- The outputs of a command in flight. -/
def commandBlocks (i : Instr) (r : Run) (p : Params) (draw : Nat) (m : Memory) : Option (List Block) :=
  match i with
  | .quantize bits gsize dtype =>
    (floatFields bits gsize dtype).map fun f => quantizeBlocks (numericsOf p) f r.latched draw m
  | .qmm bits gsize dtype =>
    (floatFields bits gsize dtype).map fun f => qmmBlocks (numericsOf p) f r.latched draw m
  | .qmmT bits gsize dtype =>
    (floatFields bits gsize dtype).map fun f => qmmTBlocks (numericsOf p) f r.latched p.lanes r.simd draw m
  | .pack bits => (widthOfField bits).map fun w => packBlocks w r.latched m
  | .unpack bits => (widthOfField bits).map fun w => unpackBlocks w r.latched m

/-- The command in flight is the accepted one of CMD and the operand registers, which cannot change meanwhile
(10_state.md R63, 60_exceptions.md R400), and the noted host stores lie in its buffers. -/
structure RunOk (s : State) (r : Run) : Prop where
  word : decode s.cmd = .command r.instr
  latched : r.latched = s.regs
  valid : commandCheck r.instr s.params r.latched = none
  simd : r.simd = commandSimd r.instr s.params.lanes
  written : ∀ x ∈ r.written, inBuffers r x = true

/-- A completed command whose DONE the host has not read was an accepted one, and the noted host stores lie in its
buffers. -/
structure UnobservedOk (s : State) (r : Run) : Prop where
  valid : commandCheck r.instr s.params r.latched = none
  written : ∀ x ∈ r.written, inBuffers r x = true

/-- The invariant of the machine. -/
structure State.Inv (s : State) : Prop where
  params : paramsOk s.params = true
  /-- Memory keeps its canonical form. -/
  memWf : s.mem.wf = true
  /-- No byte beyond MEM_SIZE exists (20_memory.md R100). -/
  memBelow : s.mem.below s.params.memSize = true
  /-- STATUS holds one of its legal values (10_state.md R56, R58). -/
  status : legalStatus s.status = true
  /-- BUSY says whether a command is in flight (10_state.md R56). -/
  busy : statusBusy s.status = s.running.isSome
  run : ∀ r, s.running = some r → RunOk s r
  unobserved : ∀ r ∈ s.unobserved, UnobservedOk s r
  /-- STATUS = 0 tells that no command was launched since reset, and then CMD is 0 (70_reset_and_hazards.md R454). -/
  idle : s.status = idleStatus → s.cmd = 0
  /-- SIMD = 1 tells that CMD is a QMM.T of the SIMD datapath (10_state.md R56). -/
  simd : statusSimd s.status = true →
    ∃ bits gsize dtype, decode s.cmd = .command (.qmmT bits gsize dtype) ∧ qmmTSimd bits s.params.lanes = true
  /-- While reset is asserted the registers hold their reset values (70_reset_and_hazards.md R450). -/
  reset : s.resetAsserted = true → s.cmd = 0 ∧ s.status = idleStatus ∧ s.regs = OperandRegs.reset

/-- BITS of a command. -/
def instrBits : Instr → BitVec 4
  | .quantize bits _ _ => bits
  | .qmm bits _ _ => bits
  | .qmmT bits _ _ => bits
  | .pack bits => bits
  | .unpack bits => bits

/-- GSIZE of a command that has one. -/
def instrGsize : Instr → Option (BitVec 8)
  | .quantize _ gsize _ => some gsize
  | .qmm _ gsize _ => some gsize
  | .qmmT _ gsize _ => some gsize
  | .pack _ => none
  | .unpack _ => none

/-- DTYPE of a command that has one. -/
def instrDtype : Instr → Option (BitVec 2)
  | .quantize _ _ dtype => some dtype
  | .qmm _ _ dtype => some dtype
  | .qmmT _ _ dtype => some dtype
  | .pack _ => none
  | .unpack _ => none

/-- The innermost stored dimension whose divisibility a command needs (60_exceptions.md R404). -/
def innermost (i : Instr) (r : OperandRegs) : Nat :=
  match i with
  | .quantize _ _ _ => r.cols.toNat
  | .qmm _ _ _ => r.dimN.toNat
  | .qmmT _ _ _ => r.dimK.toNat
  | .pack _ => r.cols.toNat
  | .unpack _ => r.cols.toNat

/-- What must divide it (60_exceptions.md R404): the group size, or the pack factor in the words of 40_codec.md R200:
8 for 3 and 5 bits, 4 for 6 bits, else 32 / bits. -/
def shapeDivisor (i : Instr) : Nat :=
  match instrGsize i with
  | some gsize => gsize.toNat
  | none =>
    let b := (instrBits i).toNat
    if b = 3 ∨ b = 5 then 8 else if b = 6 then 4 else 32 / b

/-- The error's condition holds (60_exceptions.md R402 to R407), written out on its own: no code is given up for an
earlier one here. A decoded command is never ILLEGAL_CMD, and SIMD_UNSUPPORTED never applies. -/
def errorApplies (c : ErrCode) (i : Instr) (p : Params) (r : OperandRegs) : Prop :=
  match c with
  | .illegalCmd => False
  | .badBits => (instrBits i).toNat ∉ [2, 3, 4, 5, 6, 8]
  | .badGsize => ∃ g, instrGsize i = some g ∧ g.toNat ∉ [32, 64, 128]
  | .badDtype => instrDtype i = some 3
  | .badShape => innermost i r % shapeDivisor i ≠ 0
  | .badAlign => ∃ b ∈ commandBuffers i r, b.base % b.align ≠ 0
  | .badRange => ∃ b ∈ commandBuffers i r, 0 < b.len ∧ p.memSize < b.base + b.len
  | .overlap =>
    ∃ (j k : Nat) (a b : Buffer), j < k ∧ (commandBuffers i r)[j]? = some a ∧ (commandBuffers i r)[k]? = some b ∧
      (a.isOut = true ∨ b.isOut = true) ∧ 0 < a.len ∧ 0 < b.len ∧ a.base < b.base + b.len ∧ b.base < a.base + a.len
  | .simdUnsupported => False

/-- The idle engine that takes register writes: BUSY is 0 and reset is released. -/
def takesWrites (s : State) : Prop := statusBusy s.status = false ∧ s.resetAsserted = false

/-- What a register reads as after a write of `v` that is not dropped, having read `old` before: a dimension keeps
bits 31:0, an address all of `v`, CAP, STATUS and the reserved offsets ignore it (10_state.md R52, R57, R59 to R62). -/
def afterWrite (r : Reg) (v old : Word) : Word :=
  match r with
  | .dimM | .dimN | .dimK | .rows | .cols => v &&& 0xFFFFFFFF
  | .xAddr | .wAddr | .sAddr | .bAddr | .oAddr => v
  | .cmd => v
  | .cap | .status | .reserved => old

/-- Launching the word `w` in the state reports the error `c`. -/
def launchError (s : State) (w : Word) (c : ErrCode) : Prop :=
  (∃ e, decode w = .illegal e ∧ c = .illegalCmd) ∨ ∃ i, decode w = .command i ∧ commandCheck i s.params s.regs = some c

/-- The command of the state is in flight and the host has not touched its buffers. -/
def inFlight (s : State) (r : Run) (i : Instr) : Prop := s.running = some r ∧ r.instr = i ∧ r.written = []

/-- The state after completion of `r` with a given memory: STATUS, the in-flight record, which the host has yet to see
complete, and the counter of free values move, every register and everything else stays. -/
def completedWith (s : State) (r : Run) (simd : Bool) (m : Memory) : State :=
  { s with
    status := doneStatus simd, running := none, unobserved := r :: s.unobserved, mem := m, draws := s.draws + 1 }

/-- The format's finite data (00_scope.md R13). -/
def representable (t : Fmt) (v : FVal) : Prop := ∃ bits, decodeFmt t bits = v ∧ nonFinite v = false

/-- Dequantization on the scalar datapath: `code*scale + bias` in format T (42_qmm.md R306). -/
def dequant (t : Fmt) (code : Byte) (scale bias : FVal) : FVal :=
  fAdd t (fMul t (fCvt t (fOfNat code.toNat)) scale) bias

/-- The real number that a finite datum is. -/
def realOf : FVal → ℚ
  | .fin s m => (signed s m : ℚ) / oneMag
  | _ => 0

/-- `RN_F` of a rational number other than 0 (00_scope.md R14). -/
def roundRat (t : Fmt) (q : ℚ) : FVal := roundReal t (decide (q < 0)) q.num.natAbs q.den

/-- A flat batch index from a multi-index, outermost dimension first (43_host_batched.md R351). -/
def flatIndex (dims idx : List Nat) : Nat := (List.zip dims idx).foldl (fun acc p => acc * p.1 + p.2) 0

/-- The faults of an outcome are host accesses that leave data memory: no command faults (60_exceptions.md R409). -/
def onlyHostFaults (o : Result) : Prop :=
  match o with
  | .fault .runningIllFormed => False
  | _ => True

end Sys2Proof.Machine
end

