-- ==== Sys2Proof/Certificates/Slice0/Obligations.lean ====
section
/-! DEFINITION. The statements for the provers. -/

open Sys2Proof Sys2Proof.Machine

/-! ### Stepping and launching -/

/-- A CMD write that the engine takes runs the decoded command, after CMD has taken the word and the agenda has moved
on; the engine's turn runs the command in flight (60_exceptions.md R400; the agenda is the model's choice, log
entry 1). -/
def Obligations.StepRunsTheDecodedCommand : Prop :=
  (∀ (s : State) (w : Word) (i : Instr) (rest : List Event), takesWrites s → s.agenda = cmdWrite s.params w :: rest →
    decode w = .command i → step s = exec i { s with agenda := rest, cmd := w }) ∧
  (∀ (s : State) (r : Run), s.running = some r → s.agenda = [] → step s = exec r.instr s) ∧
  (∀ (s : State) (r : Run) (rest : List Event), s.running = some r → s.agenda = .engineTurn :: rest →
    step s = exec r.instr { s with agenda := rest })

/-- With no command in flight, every command either is rejected, and then only STATUS changes, or is accepted, and
then STATUS shows BUSY and the configuration is latched (60_exceptions.md R400, 10_state.md R58). -/
def Obligations.LaunchRejectsOrLatches : Prop :=
  ∀ (i : Instr) (s : State), s.running = none →
    (∀ c, commandCheck i s.params s.regs = some c →
      exec i s = .next { s with status := BitVec.ofNat 64 (256 * errNumber c + 6) }) ∧
    (commandCheck i s.params s.regs = none →
      exec i s = .next { s with
        status := 1
        running := some { instr := i, latched := s.regs, simd := commandSimd i s.params.lanes, written := [] } })

/-- A rejected CMD write writes no byte and changes no register but CMD, which takes the word, and STATUS, which shows
`(code << 8) | 0x6`: DONE and ERR, not BUSY, not SIMD (60_exceptions.md R401). -/
def Obligations.RejectedWriteChangesOnlyCmdAndStatus : Prop :=
  ∀ (s : State) (w : Word) (c : ErrCode) (rest : List Event), takesWrites s → s.running = none →
    s.agenda = cmdWrite s.params w :: rest → launchError s w c →
    ∃ v, step s = .next { s with agenda := rest, cmd := w, status := v } ∧ v.toNat = 256 * errNumber c + 6 ∧
      statusDone v = true ∧ statusErr v = true ∧ statusBusy v = false ∧ statusSimd v = false

/-- After reset the engine is idle, and with all dimensions and addresses 0 the CMD write of QMM.b4.g32.f32 (0x2042)
is accepted at once; the command completes with nothing written, whatever the parameters and the contents of data
memory (70_reset_and_hazards.md R453). -/
def Obligations.ResetValuesAreAUsableConfiguration : Prop :=
  ∀ (p : Params) (m : Memory), statusBusy (State.resetWith p).status = false ∧ ∃ t u,
    step { State.resetWith p with agenda := [cmdWrite p 0x2042], mem := m } = .next t ∧ statusBusy t.status = true ∧
    step t = .next u ∧ u.status = 0x2 ∧ u.mem = m

/-! ### Encoding -/

/-- Decoding an encoded command gives it back, with every field at every value (30_encoding.md R150, R161). -/
def Obligations.DecodeOfEncodeIsTheCommand : Prop := ∀ i : Instr, decode (encode i) = .command i

/-- A word that decodes to a command is its encoding: no other word has that meaning (30_encoding.md R157, R161). -/
def Obligations.EncodeOfDecodeIsTheWord : Prop := ∀ (w : Word) (i : Instr), decode w = .command i → encode i = w

/-- The word of a command is `OP | (bits << 4) | (gsize << 8) | (dtype << 16) | (T << 18)` as a number
(30_encoding.md R171). -/
def Obligations.EncodedWordIsTheFieldSum : Prop :=
  ∀ (bits : BitVec 4) (gsize : BitVec 8) (dtype : BitVec 2),
    (encode (.quantize bits gsize dtype)).toNat = 1 + bits.toNat * 2 ^ 4 + gsize.toNat * 2 ^ 8 + dtype.toNat * 2 ^ 16 ∧
    (encode (.qmm bits gsize dtype)).toNat = 2 + bits.toNat * 2 ^ 4 + gsize.toNat * 2 ^ 8 + dtype.toNat * 2 ^ 16 ∧
    (encode (.qmmT bits gsize dtype)).toNat =
      2 + bits.toNat * 2 ^ 4 + gsize.toNat * 2 ^ 8 + dtype.toNat * 2 ^ 16 + 2 ^ 18 ∧
    (encode (.pack bits)).toNat = 3 + bits.toNat * 2 ^ 4 ∧
    (encode (.unpack bits)).toNat = 4 + bits.toNat * 2 ^ 4

/-- The decoder answers illegal exactly for the words of 30_encoding.md R156 and for the reserved OP values of R160:
bits 63:19 set, bit 18 set with OP not 2, bits 17:8 set with OP 3 or 4, OP not in 1 to 4. Such a word, written to CMD
while idle, is rejected with ILLEGAL_CMD, whatever the registers hold. -/
def Obligations.IllegalWordsAreTheReservedOnes : Prop :=
  (∀ w : Word, (∃ e, decode w = .illegal e) ↔
    (w.toNat / 2 ^ 19 ≠ 0 ∨ (w.toNat / 2 ^ 18 % 2 = 1 ∧ w.toNat % 16 ≠ 2) ∨
      ((w.toNat % 16 = 3 ∨ w.toNat % 16 = 4) ∧ w.toNat / 2 ^ 8 % 2 ^ 10 ≠ 0) ∨ w.toNat % 16 ∉ [1, 2, 3, 4])) ∧
  ∀ (s : State) (w : Word) (rest : List Event), takesWrites s → s.agenda = cmdWrite s.params w :: rest →
    (∃ e, decode w = .illegal e) → step s = .next { s with agenda := rest, cmd := w, status := 0x0106 }

/-- The decoder is the opcode map of 30_encoding.md R159: a word decodes to the command of the row it selects, a word
that selects no row is illegal, and no word selects two rows; the command has the word's own fields. -/
def Obligations.DecoderFollowsTheOpcodeMap : Prop :=
  (∀ (w : Word) (i : Instr), decode w = .command i →
    ∃ r ∈ opcodeMap, r.selects w = true ∧ r.mnemonic = i.mnemonic ∧ instrBits i = bitsField w ∧
      (∀ g, instrGsize i = some g → g = gsizeField w) ∧ ∀ d, instrDtype i = some d → d = dtypeField w) ∧
  (∀ w : Word, (∃ e, decode w = .illegal e) ↔ ∀ r ∈ opcodeMap, r.selects w = false) ∧
  opcodeMap.Pairwise fun a b => ∀ w : Word, ¬(a.selects w = true ∧ b.selects w = true)

/-- The ten words of 30_encoding.md R171's table, and four reserved words of 95_test_vectors.md V-ENC-1, decode as
listed. -/
def Obligations.ListedCommandWordsDecode : Prop :=
  decode 0x2041 = .command (.quantize 4 32 0) ∧ decode 0x8041 = .command (.quantize 4 128 0) ∧
  decode 0x2082 = .command (.qmm 8 32 0) ∧ decode 0x42042 = .command (.qmmT 4 32 0) ∧
  decode 0x54042 = .command (.qmmT 4 64 1) ∧ decode 0x52082 = .command (.qmmT 8 32 1) ∧
  decode 0x62022 = .command (.qmmT 2 32 2) ∧ decode 0x33 = .command (.pack 3) ∧
  decode 0x34 = .command (.unpack 3) ∧ decode 0x54 = .command (.unpack 5) ∧
  decode 0x0 = .illegal .reservedOp ∧ decode 0x100002042 = .illegal .reservedHighBits ∧
  decode 0x42041 = .illegal .transReserved ∧ decode 0x2033 = .illegal .codecFieldsReserved

/-! ### Validation -/

/-- The buffers of each command, as base, length, alignment of the base and whether it is written, and that the lengths
of packed buffers are whole bytes once the shape is valid (20_memory.md R104, R110). -/
def Obligations.BuffersFollowTheTable : Prop :=
  (∀ (bits : BitVec 4) (gsize : BitVec 8) (dtype : BitVec 2) (f : FloatFields) (r : OperandRegs),
    floatFields bits gsize dtype = some f →
    let R := r.rows.toNat; let C := r.cols.toNat; let M := r.dimM.toNat; let N := r.dimN.toNat
    let K := r.dimK.toNat; let s := fmtSize f.fmt; let gs := groupElems f.group; let b := widthBits f.width
    commandBuffers (.quantize bits gsize dtype) r =
      [⟨r.xAddr.toNat, R * C * s, s, false⟩, ⟨r.wAddr.toNat, R * C * b / 8, 4, true⟩,
       ⟨r.sAddr.toNat, R * (C / gs) * s, s, true⟩, ⟨r.bAddr.toNat, R * (C / gs) * s, s, true⟩] ∧
    commandBuffers (.qmm bits gsize dtype) r =
      [⟨r.xAddr.toNat, M * K * s, s, false⟩, ⟨r.wAddr.toNat, K * N * b / 8, 4, false⟩,
       ⟨r.sAddr.toNat, K * (N / gs) * s, s, false⟩, ⟨r.bAddr.toNat, K * (N / gs) * s, s, false⟩,
       ⟨r.oAddr.toNat, M * N * s, s, true⟩] ∧
    commandBuffers (.qmmT bits gsize dtype) r =
      [⟨r.xAddr.toNat, M * K * s, s, false⟩, ⟨r.wAddr.toNat, N * K * b / 8, 4, false⟩,
       ⟨r.sAddr.toNat, N * (K / gs) * s, s, false⟩, ⟨r.bAddr.toNat, N * (K / gs) * s, s, false⟩,
       ⟨r.oAddr.toNat, M * N * s, s, true⟩] ∧
    (C % gs = 0 → R * C * b % 8 = 0) ∧ (N % gs = 0 → K * N * b % 8 = 0) ∧ (K % gs = 0 → N * K * b % 8 = 0)) ∧
  (∀ (bits : BitVec 4) (w : Width) (r : OperandRegs), widthOfField bits = some w →
    let R := r.rows.toNat; let C := r.cols.toNat; let b := widthBits w
    commandBuffers (.pack bits) r = [⟨r.xAddr.toNat, R * C, 1, false⟩, ⟨r.wAddr.toNat, R * C * b / 8, 4, true⟩] ∧
    commandBuffers (.unpack bits) r = [⟨r.wAddr.toNat, R * C * b / 8, 4, false⟩, ⟨r.oAddr.toNat, R * C, 1, true⟩] ∧
    (C % packFactor w = 0 → R * C * b % 8 = 0))

/-- A decoded command is rejected with the first error of the order of 60_exceptions.md R408 whose condition (R402 to
R407) holds, and accepted exactly when none holds. -/
def Obligations.FirstErrorInOrderIsReported : Prop :=
  ∀ (i : Instr) (p : Params) (r : OperandRegs),
    (∀ c, commandCheck i p r = some c ↔
      errorApplies c i p r ∧ ∀ c', errNumber c' < errNumber c → ¬errorApplies c' i p r) ∧
    (commandCheck i p r = none ↔ ∀ c, ¬errorApplies c i p r)

/-- `simd_ok` has the values of the table of 42_qmm.md R313; a QMM.T uses it, a QMM never does. -/
def Obligations.SimdPredicateTable : Prop :=
  (∀ (w : Width) (lanes : SimdLanes), simdOk lanes w = true ↔
    (w = .w4 ∧ (lanes = .lanes8 ∨ lanes = .lanes16 ∨ lanes = .lanes32)) ∨
    (w = .w8 ∧ (lanes = .lanes4 ∨ lanes = .lanes8 ∨ lanes = .lanes16 ∨ lanes = .lanes32))) ∧
  ∀ (bits : BitVec 4) (gsize : BitVec 8) (dtype : BitVec 2) (lanes : SimdLanes),
    commandSimd (.qmm bits gsize dtype) lanes = false ∧
    (commandSimd (.qmmT bits gsize dtype) lanes = true ↔ ∃ w, widthOfField bits = some w ∧ simdOk lanes w = true)

/-! ### Registers -/

/-- Every register the spec gives a reset value reads as it does, for every choice of the parameters
(10_state.md R69); the parameters of `State.reset`, other than SIMD_LANES, are the model's choice (log entry 3). -/
def Obligations.ResetGivesTheStatedValues : Prop :=
  (∀ p : Params, (∀ r : Reg, r ≠ .cap → readReg r (State.resetWith p) = 0) ∧ (State.resetWith p).running = none ∧
    (State.resetWith p).resetAsserted = false) ∧
  readReg .cap State.reset = 0x0007017C00070008

/-- CAP's fields, for every choice of the parameters, its value for S = 8, and that writes to it are ignored, busy or
not (10_state.md R52). -/
def Obligations.CapReportsTheCapabilities : Prop :=
  ∀ s : State, (readReg .cap s).extractLsb' 0 8 = BitVec.ofNat 8 (laneCount s.params.lanes) ∧
    (readReg .cap s).extractLsb' 8 8 = 0 ∧ (readReg .cap s).extractLsb' 16 3 = 0b111 ∧
    (readReg .cap s).extractLsb' 19 13 = 0 ∧ (readReg .cap s).extractLsb' 32 9 = 0x17C ∧
    (readReg .cap s).extractLsb' 41 7 = 0 ∧ (readReg .cap s).extractLsb' 48 3 = 0b111 ∧
    (readReg .cap s).extractLsb' 51 13 = 0 ∧ (s.params.lanes = .lanes8 → readReg .cap s = 0x0007017C00070008) ∧
    ∀ v rest, s.agenda = wr s.params .cap v :: rest → step s = .next { s with agenda := rest }

/-- CAP does not change with any step (10_state.md R53). -/
def Obligations.CapIsConstant : Prop := ∀ s t : State, step s = .next t → readReg .cap t = readReg .cap s

/-- An idle engine's register other than CMD, written and then read, shows what it keeps of the value; every other
register reads as before; each reserved offset 0x68 to 0xF8 ignores the write and reads 0
(10_state.md R52, R57, R59 to R62; 70_reset_and_hazards.md R466). -/
def Obligations.RegisterWriteThenRead : Prop :=
  (∀ (s : State) (r r' : Reg) (v : Word) (rest : List Event), takesWrites s → r ≠ .cmd →
    s.agenda = wr s.params r v :: rd s.params r' :: rest →
    ∃ t u, step s = .next t ∧ step t = .next u ∧ u.agenda = rest ∧
      u.hostData = if r' = r then afterWrite r v (readReg r s) else readReg r' s) ∧
  (∀ (s : State) (k : Nat) (v : Word) (rest : List Event), takesWrites s → 13 ≤ k → k < 32 →
    (s.agenda = .regWrite (s.params.regBase + 8 * k) 8 v :: rest → step s = .next { s with agenda := rest }) ∧
    (s.agenda = .regRead (s.params.regBase + 8 * k) 8 :: rest →
      step s = .next { s with agenda := rest, hostData := 0 }))

/-- While STATUS.BUSY is 1 a write to any register is dropped and every register can be read (10_state.md R63). -/
def Obligations.BusyDropsRegisterWrites : Prop :=
  ∀ (s : State) (r : Reg) (rest : List Event), s.Inv → statusBusy s.status = true →
    (∀ v, s.agenda = wr s.params r v :: rest → step s = .next { s with agenda := rest }) ∧
    (s.agenda = rd s.params r :: rest → step s = .next { s with agenda := rest, hostData := readReg r s })

/-- CMD holds the last value written to it while BUSY was 0, rejected or not: a step changes CMD only by such a write,
which always takes effect, or by an assertion of reset; a read gives that value and changes nothing else
(10_state.md R54, R55). -/
def Obligations.CmdHoldsTheLastIdleWrite : Prop :=
  (∀ s t : State, step s = .next t →
    t.cmd = s.cmd ∨ (∃ w rest, s.agenda = cmdWrite s.params w :: rest ∧ takesWrites s ∧ t.cmd = w) ∨
    ∃ rest, s.agenda = .resetAssert :: rest ∧ t.cmd = 0) ∧
  (∀ (s : State) (w : Word) (rest : List Event), s.Inv → takesWrites s → s.agenda = cmdWrite s.params w :: rest →
    ∃ t, step s = .next t ∧ readReg .cmd t = w) ∧
  (∀ (s : State) (rest : List Event), s.resetAsserted = false → s.agenda = rd s.params .cmd :: rest →
    step s = .next { s with agenda := rest, hostData := s.cmd })

/-- STATUS changes as the table of 10_state.md R58 says, and only so: to 0 at reset; at a CMD write while BUSY = 0 to
`(c << 8) | 0x6` or to 1; at completion to 0x2, or to 0xA for a QMM.T on the SIMD datapath; not at a CMD write while
BUSY = 1. -/
def Obligations.StatusChangesOnlyByItsTransitions : Prop :=
  (∀ s t : State, s.Inv → step s = .next t → t.status ≠ s.status →
    (∃ rest, s.agenda = .resetAssert :: rest) ∨
    (∃ w rest, s.agenda = cmdWrite s.params w :: rest ∧ takesWrites s) ∨
    (s.running.isSome = true ∧ t.running = none ∧ (s.agenda = [] ∨ ∃ rest, s.agenda = .engineTurn :: rest))) ∧
  (∀ (s : State) (rest : List Event), s.agenda = .resetAssert :: rest → ∃ t, step s = .next t ∧ t.status = 0) ∧
  (∀ (s : State) (w : Word) (rest : List Event), s.Inv → takesWrites s → s.agenda = cmdWrite s.params w :: rest →
    ∃ t, step s = .next t ∧
      (∀ c, launchError s w c → t.status = BitVec.ofNat 64 (256 * errNumber c + 6)) ∧
      ((∀ c, ¬launchError s w c) → t.status = 1)) ∧
  (∀ (s : State) (r : Run), s.Inv → s.running = some r → (s.agenda = [] ∨ ∃ rest, s.agenda = .engineTurn :: rest) →
    ∃ t, step s = .next t ∧ t.status = if commandSimd r.instr s.params.lanes = true then 0xA else 0x2) ∧
  (∀ (s : State) (w : Word) (rest : List Event), statusBusy s.status = true → s.agenda = cmdWrite s.params w :: rest →
    step s = .next { s with agenda := rest })

/-- No command writes a register other than STATUS; an operand register changes only by a host write that is not
dropped or by reset (10_state.md R65, R67). -/
def Obligations.OperandRegistersChangeOnlyByHostOrReset : Prop :=
  (∀ (i : Instr) (s t : State), exec i s = .next t →
    t.regs = s.regs ∧ t.cmd = s.cmd ∧ t.params = s.params ∧ t.resetAsserted = s.resetAsserted ∧
    t.agenda = s.agenda ∧ t.hostData = s.hostData) ∧
  (∀ s t : State, step s = .next t →
    t.regs = s.regs ∨
    (∃ r v rest, s.agenda = wr s.params r v :: rest ∧ takesWrites s ∧ t.regs = writeOperandReg r v s.regs) ∨
    ∃ rest, s.agenda = .resetAssert :: rest ∧ t.regs = OperandRegs.reset)

/-- A host access inside the register block that is not one aligned 8-byte access is refused (10_state.md R51). -/
def Obligations.OddRegisterAccessesAreRefused : Prop :=
  ∀ (s : State) (addr size : Nat) (v : Word) (rest : List Event), s.params.regBase ≤ addr →
    addr < s.params.regBase + 256 → (size ≠ 8 ∨ (addr - s.params.regBase) % 8 ≠ 0) →
    (s.agenda = .regWrite addr size v :: rest → step s = .refused .registerAccessForm) ∧
    (s.agenda = .regRead addr size :: rest → step s = .refused .registerAccessForm)

/-! ### Reset, polling, host accesses to data memory -/

/-- Assertion of reset abandons a command in flight, leaves every byte of its out buffers free and every other byte as
it was; the registers hold their reset values at release; while asserted, register writes are dropped
(70_reset_and_hazards.md R450 to R452). That the registers take these values at assertion already, so that release
changes nothing else, is the model's choice (log entry 10). -/
def Obligations.ResetAbandonsTheCommand : Prop :=
  (∀ (s : State) (rest : List Event), s.Inv → s.agenda = .resetAssert :: rest →
    ∃ t, step s = .next t ∧ t.agenda = rest ∧ t.cmd = 0 ∧ t.status = 0 ∧ t.regs = OperandRegs.reset ∧
      t.running = none ∧ t.params = s.params ∧ t.resetAsserted = true ∧
      ∀ x, t.mem.get x =
        if (∃ r, s.running = some r ∧ ∃ b ∈ outBuffers r.instr r.latched, b.has x = true) then
          Config.freeByte s.draws x else s.mem.get x) ∧
  (∀ (s : State) (r : Reg) (v : Word) (rest : List Event), s.resetAsserted = true →
    s.agenda = wr s.params r v :: rest → step s = .next { s with agenda := rest }) ∧
  (∀ (s : State) (rest : List Event), s.agenda = .resetRelease :: rest →
    step s = .next { s with agenda := rest, resetAsserted := false })

/-- POLL after an accepted CMD write ends with the final STATUS at the host; so does, at its first read, POLL after a
rejected one or after completion; POLL with no command launched since reset never ends (30_encoding.md R172). The read
that shows completion, and not the one of a rejection, ends R131 for the completed commands (20_memory.md R120; log
entry 23). In the model the engine gets its turn between two reads (log entry 1). -/
def Obligations.PollEndsExactlyIfACommandWasLaunched : Prop :=
  (∀ (s : State) (rest : List Event), s.Inv → statusBusy s.status = true → s.agenda = .poll :: rest →
    ∃ t u v, step s = .next t ∧ step t = .next u ∧ step u = .next v ∧ v.agenda = rest ∧ v.hostData = v.status ∧
      statusDone v.status = true ∧ statusErr v.status = false ∧ v.unobserved = []) ∧
  (∀ (s : State) (rest : List Event), statusDone s.status = true → statusBusy s.status = false →
    s.resetAsserted = false → s.agenda = .poll :: rest →
    step s = .next { s with
      agenda := rest
      hostData := s.status
      unobserved := if statusErr s.status = true then s.unobserved else [] }) ∧
  (∀ (s : State) (rest : List Event), s.status = 0 → s.resetAsserted = false → s.agenda = .poll :: rest →
    step s = .next { s with hostData := 0 })

/-- From a command's CMD write to the host's STATUS read that shows its completion, a host read of a byte of its out
buffers gives a free value; a byte of no such buffer, that the host has not written since, gives its value
(20_memory.md R120, R131). Such a read changes nothing but the host's data and the counter of free values. A command
stays in this condition until that STATUS read, or until reset abandons it; that a STATUS read with ERR = 1 is not that
read, and that one with ERR = 0 ends it for all completed commands, is the model's reading (log entry 23). -/
def Obligations.HostReadsWhileBusy : Prop :=
  (∀ (s : State) (size : AccessSize) (a : Nat) (rest : List Event),
    s.agenda = .memRead size a :: rest → a + accessBytes size ≤ s.params.memSize →
    ∃ d : Word, step s = .next { s with agenda := rest, hostData := d, draws := s.draws + 1 } ∧
      ∀ j < accessBytes size,
        ((∃ r ∈ openRuns s, ∃ b ∈ outBuffers r.instr r.latched, b.has (a + j) = true) →
          d.toNat / 256 ^ j % 256 = (Config.freeByte s.draws (a + j)).toNat) ∧
        ((∀ r ∈ openRuns s, (∀ b ∈ outBuffers r.instr r.latched, b.has (a + j) = false) ∧ a + j ∉ r.written) →
          d.toNat / 256 ^ j % 256 = (s.mem.get (a + j)).toNat)) ∧
  (∀ (i : Instr) (s t : State), s.running = none → commandCheck i s.params s.regs = none → exec i s = .next t →
    ∃ r ∈ openRuns t, r.instr = i ∧ r.latched = s.regs) ∧
  (∀ s t : State, step s = .next t → ∀ r ∈ openRuns s,
    (∃ r' ∈ openRuns t, r'.instr = r.instr ∧ r'.latched = r.latched ∧ ∀ x ∈ r.written, x ∈ r'.written) ∨
    (r ∈ s.unobserved ∧ showsCompletion s.status = true ∧
      ∃ rest, s.agenda = rd s.params .status :: rest ∨ s.agenda = .poll :: rest) ∨
    (s.running = some r ∧ ∃ rest, s.agenda = .resetAssert :: rest)) ∧
  ∀ (s : State) (rest : List Event), s.resetAsserted = false → s.agenda = rd s.params .status :: rest →
    step s = .next { s with
      agenda := rest
      hostData := s.status
      unobserved :=
        if statusDone s.status = true ∧ statusBusy s.status = false ∧ statusErr s.status = false then []
        else s.unobserved }

/-- A host write to a byte of any buffer of a running command makes every out byte, and the written byte, a free
value at completion; the command still completes and reports success (20_memory.md R131). After completion, before the
host's STATUS read that shows it, such a write makes these bytes free values (R120); that they become free at once is the
model's deduction (log entry 9), and so is which STATUS read shows completion (log entry 23). -/
def Obligations.HostWritesWhileBusyFreeTheOutputs : Prop :=
  (∀ (s u : State) (r : Run) (size : AccessSize) (a : Nat) (v : Word), s.Inv → s.running = some r →
    hostMemWrite size a v s = .next u →
    (∃ j < accessBytes size, (commandBuffers r.instr r.latched).any (·.has (a + j)) = true) →
    ∃ t, engineTurn u = .next t ∧ t.running = none ∧ t.status = doneStatus r.simd ∧
      ∀ x, ((∃ b ∈ outBuffers r.instr r.latched, b.has x = true) ∨
          (a ≤ x ∧ x < a + accessBytes size ∧ (commandBuffers r.instr r.latched).any (·.has x) = true)) →
        t.mem.get x = Config.freeByte u.draws x) ∧
  ∀ (s u : State) (r : Run) (size : AccessSize) (a : Nat) (v : Word), s.Inv → r ∈ s.unobserved →
    hostMemWrite size a v s = .next u →
    (∃ j < accessBytes size, (commandBuffers r.instr r.latched).any (·.has (a + j)) = true) →
    ∀ x, ((∃ b ∈ outBuffers r.instr r.latched, b.has x = true) ∨
        (a ≤ x ∧ x < a + accessBytes size ∧ (commandBuffers r.instr r.latched).any (·.has x) = true)) →
      u.mem.get x = Config.freeByte s.draws x

/-! ### Memory -/

/-- `MemRead` is little-endian, `MemWrite` stores the low n bytes of the value, the lowest at the address, and leaves
every other byte alone; what was written reads back (00_scope.md R9, 20_memory.md R102). -/
def Obligations.MemoryIsLittleEndian : Prop :=
  ∀ (m : Memory) (a n v : Nat), m.wf = true →
    m.read a n = ((List.range n).map fun i => (m.get (a + i)).toNat * 256 ^ i).sum ∧
    (∀ i < n, ((m.write a n v).get (a + i)).toNat = v / 256 ^ i % 256) ∧
    (∀ x, x < a ∨ a + n ≤ x → (m.write a n v).get x = m.get x) ∧
    (m.write a n v).read a n = v % 2 ^ (8 * n)

/-- A step changes a byte of data memory only by a host write to it; or by a host write to a buffer of a completed
command whose DONE the host has not read, if the byte lies in an out buffer of that command; or, when a command is in
flight, if the byte lies in one of its out buffers or the host has written it meanwhile (20_memory.md R120, R130, R131;
70_reset_and_hazards.md R451, R452). That a host write frees a completed command's out bytes at once, and which STATUS
read counts, are the model's deductions (log entries 9, 23). -/
def Obligations.MemoryChangesOnlyByHostOrOutBuffers : Prop :=
  ∀ (s t : State) (x : Nat), s.Inv → step s = .next t → t.mem.get x ≠ s.mem.get x →
    (∃ size a v rest, s.agenda = .memWrite size a v :: rest ∧
      (a ≤ x ∧ x < a + accessBytes size ∨
        ∃ r ∈ s.unobserved, (∃ j < accessBytes size, (commandBuffers r.instr r.latched).any (·.has (a + j)) = true) ∧
          ∃ b ∈ outBuffers r.instr r.latched, b.has x = true)) ∨
    ∃ r, s.running = some r ∧ (x ∈ r.written ∨ ∃ b ∈ outBuffers r.instr r.latched, b.has x = true)

/-! ### Codec -/

/-- Pack factors, pack sizes and their invariant (40_codec.md R200 to R202). -/
def Obligations.PackGeometryTables : Prop :=
  [Width.w2, .w3, .w4, .w5, .w6, .w8].map packFactor = [16, 8, 8, 8, 4, 4] ∧
  [Width.w2, .w3, .w4, .w5, .w6, .w8].map bytesPerPack = [4, 3, 4, 5, 3, 4] ∧
  [Width.w2, .w3, .w4, .w5, .w6, .w8].map (fun w => packFactor w * widthBits w) = [32, 24, 32, 40, 24, 32] ∧
  ∀ w : Width, packFactor w * widthBits w = 8 * bytesPerPack w

/-- The per-width decode formulas equal the extractor for every byte pattern (40_codec.md R206). -/
def Obligations.DecodeFormulasEqualTheExtractor : Prop :=
  (∀ b0 b1 b2 : Byte,
    extract3 b0 b1 b2 = codesOf .w3 (b0.toNat + 2 ^ 8 * b1.toNat + 2 ^ 16 * b2.toNat) ∧
    extract6 b0 b1 b2 = codesOf .w6 (b0.toNat + 2 ^ 8 * b1.toNat + 2 ^ 16 * b2.toNat)) ∧
  (∀ b0 b1 b2 b3 b4 : Byte,
    extract5 b0 b1 b2 b3 b4 =
      codesOf .w5 (b0.toNat + 2 ^ 8 * b1.toNat + 2 ^ 16 * b2.toNat + 2 ^ 24 * b3.toNat + 2 ^ 32 * b4.toNat))

/-- The per-width encode formulas equal the packer on codes in range, and the decode formulas undo them
(40_codec.md R209). -/
def Obligations.EncodeFormulasEqualThePacker : Prop :=
  (∀ c0 c1 c2 c3 c4 c5 c6 c7 : Byte, (∀ c ∈ [c0, c1, c2, c3, c4, c5, c6, c7], c.toNat < 2 ^ 3) →
    pack3 c0 c1 c2 c3 c4 c5 c6 c7 = packBytes .w3 [c0, c1, c2, c3, c4, c5, c6, c7] ∧
    ∀ b0 b1 b2, pack3 c0 c1 c2 c3 c4 c5 c6 c7 = [b0, b1, b2] →
      extract3 b0 b1 b2 = [c0, c1, c2, c3, c4, c5, c6, c7]) ∧
  (∀ c0 c1 c2 c3 c4 c5 c6 c7 : Byte, (∀ c ∈ [c0, c1, c2, c3, c4, c5, c6, c7], c.toNat < 2 ^ 5) →
    pack5 c0 c1 c2 c3 c4 c5 c6 c7 = packBytes .w5 [c0, c1, c2, c3, c4, c5, c6, c7] ∧
    ∀ b0 b1 b2 b3 b4, pack5 c0 c1 c2 c3 c4 c5 c6 c7 = [b0, b1, b2, b3, b4] →
      extract5 b0 b1 b2 b3 b4 = [c0, c1, c2, c3, c4, c5, c6, c7]) ∧
  (∀ c0 c1 c2 c3 : Byte, (∀ c ∈ [c0, c1, c2, c3], c.toNat < 2 ^ 6) →
    pack6 c0 c1 c2 c3 = packBytes .w6 [c0, c1, c2, c3] ∧
    ∀ b0 b1 b2, pack6 c0 c1 c2 c3 = [b0, b1, b2] → extract6 b0 b1 b2 = [c0, c1, c2, c3])

/-- `extract(pack(code)) = code` for codes in range, and `pack(extract(p)) = p` for every pack (40_codec.md R210). -/
def Obligations.PackAndExtractAreInverse : Prop :=
  (∀ (w : Width) (codes : List Byte) (m : Memory) (a : Nat), m.wf = true → codes.length = packFactor w →
    (∀ c ∈ codes, c.toNat < 2 ^ widthBits w) → extract (m.setBytes a (packBytes w codes)) a w = codes) ∧
  (∀ (w : Width) (m : Memory) (a : Nat),
    packBytes w (extract m a w) = (List.range (bytesPerPack w)).map fun k => m.get (a + k))

/-- Lane l of the SIMD extractor holds the code that the scalar extractor gives for code index l of the span
(40_codec.md R207). -/
def Obligations.SimdExtractorAgreesWithScalar : Prop :=
  ∀ (m : Memory) (a : Nat) (w : Width) (lanes : SimdLanes), simdOk lanes w = true →
    (extractSimd m a w lanes).length = laneCount lanes ∧
    ∀ l < laneCount lanes, (extractSimd m a w lanes)[l]? = some (codeOfBuffer m a w l)

/-- PACK in flight completes: code i of the output is code byte i reduced to its low `bits` bits, every byte outside
the output is unchanged, and no register but STATUS changes (40_codec.md R220, R211; 20_memory.md R130). -/
def Obligations.PackStoresTheMaskedCodes : Prop :=
  ∀ (s : State) (r : Run) (bits : BitVec 4) (w : Width), s.Inv → inFlight s r (.pack bits) →
    widthOfField bits = some w →
    ∃ m, exec (.pack bits) s = .next (completedWith s r false m) ∧
      (∀ i < matrixSize r.latched, (codeOfBuffer m r.latched.wAddr.toNat w i).toNat =
        (s.mem.get (r.latched.xAddr.toNat + i)).toNat % 2 ^ widthBits w) ∧
      ∀ x, x < r.latched.wAddr.toNat ∨ r.latched.wAddr.toNat + matrixSize r.latched * widthBits w / 8 ≤ x →
        m.get x = s.mem.get x

/-- UNPACK in flight completes: byte i of the output is code i of the packed input, every byte outside the output is
unchanged, and no register but STATUS changes (40_codec.md R230, R211; 20_memory.md R130). -/
def Obligations.UnpackStoresTheCodes : Prop :=
  ∀ (s : State) (r : Run) (bits : BitVec 4) (w : Width), s.Inv → inFlight s r (.unpack bits) →
    widthOfField bits = some w →
    ∃ m, exec (.unpack bits) s = .next (completedWith s r false m) ∧
      (∀ i < matrixSize r.latched,
        m.get (r.latched.oAddr.toNat + i) = codeOfBuffer s.mem r.latched.wAddr.toNat w i) ∧
      ∀ x, x < r.latched.oAddr.toNat ∨ r.latched.oAddr.toNat + matrixSize r.latched ≤ x → m.get x = s.mem.get x

/-- PACK and then UNPACK with the same rows, columns, width and packed buffer reproduce in-range code bytes
(40_codec.md R221). -/
def Obligations.PackThenUnpackRestoresTheCodes : Prop :=
  ∀ (s t u : State) (r q : Run) (bits : BitVec 4) (w : Width), s.Inv → u.Inv → inFlight s r (.pack bits) →
    exec (.pack bits) s = .next t → u.mem = t.mem → inFlight u q (.unpack bits) → widthOfField bits = some w →
    q.latched.rows = r.latched.rows → q.latched.cols = r.latched.cols → q.latched.wAddr = r.latched.wAddr →
    (∀ i < matrixSize r.latched, (s.mem.get (r.latched.xAddr.toNat + i)).toNat < 2 ^ widthBits w) →
    ∃ v, exec (.unpack bits) u = .next v ∧
      ∀ i < matrixSize r.latched, v.mem.get (q.latched.oAddr.toNat + i) = s.mem.get (r.latched.xAddr.toNat + i)

/-! ### Floating point -/

/-- Encoding a decoded element gives its bits back unless it is a NaN; the stored bits of a NaN datum are a NaN of the
format, whatever the free value (00_scope.md R10, R13, R15). -/
def Obligations.FormatsRoundTrip : Prop :=
  (∀ (t : Fmt) (seed bits : Nat), bits < 2 ^ (8 * fmtSize t) → decodeFmt t bits ≠ .nan →
    encodeFmt t seed (decodeFmt t bits) = bits) ∧
  (∀ (t : Fmt) (seed : Nat), encodeFmt t seed .nan < 2 ^ (8 * fmtSize t) ∧ decodeFmt t (encodeFmt t seed .nan) = .nan)

/-- An exact result is returned unchanged, and widening to binary32 is exact (00_scope.md R14). -/
def Obligations.RoundingKeepsExactValues : Prop :=
  ∀ (t : Fmt) (v : FVal), representable t v → fCvt t v = v ∧ fCvt .f32 v = v

/-- `RN_F` is roundTiesToEven: a finite result is a value of the format, none is nearer, of two nearest ones it has
the even encoding; the result is infinite exactly from half an ulp beyond the largest finite value on
(00_scope.md R14). -/
def Obligations.RoundingIsNearestTiesToEven : Prop :=
  ∀ (t : Fmt) (neg : Bool) (num den : Nat), 0 < den →
    (∀ s mag, roundReal t neg num den = .fin s mag →
      s = neg ∧ representable t (.fin neg mag) ∧
      ∀ mag', representable t (.fin neg mag') →
        |(num * 2 ^ 149 : ℤ) - mag * den| ≤ |(num * 2 ^ 149 : ℤ) - mag' * den| ∧
        (mag' ≠ mag → |(num * 2 ^ 149 : ℤ) - mag * den| = |(num * 2 ^ 149 : ℤ) - mag' * den| →
          encodeFmt t 0 (.fin neg mag) % 2 = 0)) ∧
    (roundReal t neg num den = .inf neg ↔
      (2 * overflowMag t - 2 ^ (2 ^ (expBits t - 1) - 1 + 149 - fracBits t)) * den ≤ 2 * (num * 2 ^ 149))

/-- `rint`: the nearest integer, ties to even, with the operand's sign, a binary32 value for a binary32 operand;
±∞ and NaN stay (00_scope.md R16). -/
def Obligations.RintIsNearestEvenInteger : Prop :=
  (∀ (s : Bool) (m : Nat), ∃ n : Nat, fRint (.fin s m) = .fin s (n * 2 ^ 149) ∧
    2 * |(m : ℤ) - n * 2 ^ 149| ≤ 2 ^ 149 ∧ (2 * |(m : ℤ) - n * 2 ^ 149| = 2 ^ 149 → n % 2 = 0)) ∧
  (∀ v, representable .f32 v → representable .f32 (fRint v)) ∧
  (∀ s, fRint (.inf s) = .inf s) ∧ fRint .nan = .nan

/-- The default NUMERICS record. On finite operands each operation is `RN_F` of the exact real result, an exact zero
having the sign of IEEE 754; infinities, NaNs and invalid operations are IEEE 754's (00_scope.md R14, R15; log entry
14). `min32` and `max32` give one of their operands, none being less or greater, `toU` the integer (R17, R18); `cvt` of
a code is exact. `mac_T`, `simd_mac` and `reduce` are the compositions of 42_qmm.md R306, R316 and R317. -/
def Obligations.DefaultNumericsAreTheExactOperations : Prop :=
  let nm := Numerics.ieee
  (∀ (t : Fmt) (a b c : FVal), nonFinite a = false → nonFinite b = false → nonFinite c = false →
    nm.add t a b = (if realOf a + realOf b = 0 then .fin (fSign a && fSign b) 0
      else roundRat t (realOf a + realOf b)) ∧
    nm.sub t a b = (if realOf a - realOf b = 0 then .fin (fSign a && !fSign b) 0
      else roundRat t (realOf a - realOf b)) ∧
    nm.mul t a b = (if realOf a * realOf b = 0 then .fin (fSign a != fSign b) 0
      else roundRat t (realOf a * realOf b)) ∧
    nm.div t a b = (if realOf b = 0 then (if realOf a = 0 then .nan else .inf (fSign a != fSign b))
      else if realOf a = 0 then .fin (fSign a != fSign b) 0 else roundRat t (realOf a / realOf b)) ∧
    nm.fma t a b c = (if realOf a * realOf b + realOf c = 0 then .fin ((fSign a != fSign b) && fSign c) 0
      else roundRat t (realOf a * realOf b + realOf c)) ∧
    nm.cvt t a = (if realOf a = 0 then .fin (fSign a) 0 else roundRat t (realOf a))) ∧
  (∀ (t : Fmt) (a b c : FVal),
    (a = .nan ∨ b = .nan → nm.add t a b = .nan ∧ nm.sub t a b = .nan ∧ nm.mul t a b = .nan ∧ nm.div t a b = .nan) ∧
    (a = .nan ∨ b = .nan ∨ c = .nan → nm.fma t a b c = .nan) ∧ nm.cvt t .nan = .nan) ∧
  (∀ (t : Fmt) (s s' : Bool) (v c : FVal), nonFinite v = false → nonFinite c = false →
    nm.add t (.inf s) (.inf s') = (if s = s' then .inf s else .nan) ∧
    nm.sub t (.inf s) (.inf s') = (if s = s' then .nan else .inf s) ∧
    nm.add t (.inf s) v = .inf s ∧ nm.add t v (.inf s) = .inf s ∧
    nm.sub t (.inf s) v = .inf s ∧ nm.sub t v (.inf s) = .inf (!s) ∧
    nm.mul t (.inf s) (.inf s') = .inf (s != s') ∧ nm.div t (.inf s) (.inf s') = .nan ∧
    nm.mul t (.inf s) v = (if realOf v = 0 then .nan else .inf (s != fSign v)) ∧
    nm.mul t v (.inf s) = (if realOf v = 0 then .nan else .inf (fSign v != s)) ∧
    nm.div t (.inf s) v = .inf (s != fSign v) ∧ nm.div t v (.inf s) = .fin (fSign v != s) 0 ∧
    nm.fma t v c (.inf s) = .inf s ∧ nm.cvt t (.inf s) = .inf s) ∧
  (∀ (t : Fmt) (s : Bool) (b c : FVal), nm.fma t (.inf s) b c = nm.add t (nm.mul t (.inf s) b) c ∧
    nm.fma t b (.inf s) c = nm.add t (nm.mul t b (.inf s)) c) ∧
  (∀ a b : FVal, a ≠ .nan → b ≠ .nan →
    (nm.min32 a b = a ∨ nm.min32 a b = b) ∧ fLt a (nm.min32 a b) = false ∧ fLt b (nm.min32 a b) = false ∧
    (nm.max32 a b = a ∨ nm.max32 a b = b) ∧ fLt (nm.max32 a b) a = false ∧ fLt (nm.max32 a b) b = false) ∧
  (∀ n : Nat, nm.toU (fOfNat n) = n) ∧ (∀ (t : Fmt) (code : Byte), nm.cvt t (fOfNat code.toNat) = fOfNat code.toNat) ∧
  (∀ (t : Fmt) (acc x code scale bias : FVal), nm.mac t acc x code scale bias =
    nm.add t acc (nm.mul t x (nm.add t (nm.mul t (nm.cvt t code) scale) bias))) ∧
  (∀ acc x code sc bi : FVal, nm.simdMac acc x code sc bi =
    nm.add .f32 acc (nm.mul .f32 x (nm.fma .f32 code sc bi))) ∧
  (∀ a : FVal, nm.reduce 0 [a] = a) ∧
  ∀ (k : Nat) (low high : List FVal), low.length = 2 ^ k → high.length = 2 ^ k →
    nm.reduce (k + 1) (low ++ high) = nm.add .f32 (nm.reduce k low) (nm.reduce k high)

/-! ### QUANTIZE -/

/-- Step 3's strict tie-break: the scale stays positive and the edge is w_min only if |w_min| > |w_max|
(41_quantize.md R254). -/
def Obligations.QuantizerTieBreakIsStrict : Prop :=
  ∀ (sMin sMax : Bool) (mMin mMax : Nat) (scale : FVal),
    (mMax < mMin → signAndEdge (.fin sMin mMin) (.fin sMax mMax) scale = (scale, .fin sMin mMin)) ∧
    (mMin ≤ mMax → signAndEdge (.fin sMin mMin) (.fin sMax mMax) scale = (fNeg scale, .fin sMax mMax))

/-- Step 2: n_bins = 2^bits - 1 is a binary32 value, the scale is the formula's with eps, bits 0x33D6BF95, and it is
+∞ when w_max - w_min overflows and else finite and at least eps (41_quantize.md R253). -/
def Obligations.InitialScaleIsAtLeastEps : Prop :=
  decodeFmt .f32 0x33D6BF95 = epsVal ∧ (∀ w : Width, representable .f32 (fOfNat (2 ^ widthBits w - 1))) ∧
  (∀ (nm : Numerics) (w : Width) (wMin wMax : FVal), initialScale nm w wMin wMax =
    nm.max32 (nm.div .f32 (nm.sub .f32 wMax wMin) (fOfNat (2 ^ widthBits w - 1))) (decodeFmt .f32 0x33D6BF95)) ∧
  ∀ (w : Width) (wMin wMax : FVal), nonFinite wMin = false → nonFinite wMax = false → fLt wMax wMin = false →
    (nonFinite (fSub .f32 wMax wMin) = true → initialScale Numerics.ieee w wMin wMax = .inf false) ∧
    (nonFinite (fSub .f32 wMax wMin) = false →
      ∃ m, initialScale Numerics.ieee w wMin wMax = .fin false m ∧ 0xD6BF95 * 2 ^ 102 ≤ m)

/-- Step 4: with q0 a zero of either sign the scale stays and the bias is +0; otherwise the scale is edge / q0 and the
bias is the edge (41_quantize.md R255). -/
def Obligations.RefinementTestsTheQuotientAsANumber : Prop :=
  ∀ (nm : Numerics) (scale edge : FVal),
    (∀ s, nm.rint (nm.div .f32 edge scale) = .fin s 0 → refine nm scale edge = (scale, .fin false 0)) ∧
    ∀ q0, nm.rint (nm.div .f32 edge scale) = q0 → (∀ s, q0 ≠ .fin s 0) →
      refine nm scale edge = (nm.div .f32 edge q0, edge)

/-- A code is an integer in [0, n_bins], for every NUMERICS record and every element; under the default record it is the
rounded quotient t clamped to that range: 0 for a negative t or -∞, n_bins for +∞ (41_quantize.md R256). That the range
holds under records other than the default is the model's choice (log entry 4); the code of a NaN quotient is its
deduction where the element equals the bias, and otherwise its choice (log entry 15). -/
def Obligations.QuantizerCodesAreClamped : Prop :=
  (∀ (nm : Numerics) (w : Width) (draw index : Nat) (scale bias v : FVal),
    (quantCode nm w draw index scale bias v).toNat ≤ 2 ^ widthBits w - 1) ∧
  ∀ (w : Width) (draw index : Nat) (scale bias v : FVal),
    let t := fRint (fDiv .f32 (fSub .f32 v bias) scale)
    let code := (quantCode Numerics.ieee w draw index scale bias v).toNat
    (∀ s n, t = .fin s (n * oneMag) → code = if s = true then 0 else min n (2 ^ widthBits w - 1)) ∧
    ∀ s, t = .inf s → code = if s = true then 0 else 2 ^ widthBits w - 1

/-- A group of zeros, of whatever signs, gives scale -eps, bias +0 and codes 0: no free choice of min32 or max32
reaches the output (41_quantize.md R262). -/
def Obligations.SignedZerosDoNotMatter : Prop :=
  ∀ (w : Width) (ws : List FVal), ws ≠ [] → (∀ v ∈ ws, ∃ s, v = .fin s 0) →
    groupParams Numerics.ieee w ws = (fNeg epsVal, .fin false 0) ∧
    ∀ v ∈ ws, ∀ draw index, quantCode Numerics.ieee w draw index (fNeg epsVal) (.fin false 0) v = 0

/-- The anchor round trip: in a finite group of a format with q0 ≠ 0, the edge has code 0, and dequantizing that code
with the stored scale and bias gives the edge exactly (41_quantize.md R260), also where q0 overflows to ∞ and the scale
is a zero (log entry 15). A constant group gives codes 0, and with q0 ≠ 0 the bias is the constant (R250). -/
def Obligations.AnchorIsReproducedExactly : Prop :=
  ∀ (t : Fmt) (w : Width) (ws : List FVal), ws ≠ [] → (∀ v ∈ ws, representable t v) →
    ∀ (scale0 edge scale bias : FVal),
      signAndEdge (extremum min32 ws) (extremum max32 ws)
        (initialScale Numerics.ieee w (extremum min32 ws) (extremum max32 ws)) = (scale0, edge) →
      groupParams Numerics.ieee w ws = (scale, bias) →
      (isZero (fRint (fDiv .f32 edge scale0)) = false →
        (∀ draw index, quantCode Numerics.ieee w draw index scale bias edge = 0) ∧
        dequant t 0 (fCvt t scale) (fCvt t bias) = edge) ∧
      ∀ c, (∀ v ∈ ws, v = c) →
        (∀ draw index, quantCode Numerics.ieee w draw index scale bias c = 0) ∧
        (isZero (fRint (fDiv .f32 edge scale0)) = false → bias = c)

/-- QUANTIZE in flight completes: every finite group g has the cast scale and bias of `group_params` at index g of the
scales and biases and the codes of `quant_code` in its packs; a group with a non-finite element has some codes in
range; every byte outside the three outputs is unchanged (41_quantize.md R250, R251, R257 to R259). -/
def Obligations.QuantizeStoresEveryGroup : Prop :=
  ∀ (s : State) (r : Run) (bits : BitVec 4) (gsize : BitVec 8) (dtype : BitVec 2) (f : FloatFields), s.Inv →
    inFlight s r (.quantize bits gsize dtype) → floatFields bits gsize dtype = some f →
    let nm := numericsOf s.params
    ∃ m, exec (.quantize bits gsize dtype) s = .next (completedWith s r false m) ∧
      (∀ g < matrixSize r.latched / groupElems f.group, groupNonFinite f r.latched s.mem g = false →
        ∀ scale bias, groupParams nm f.width (groupInputs nm f r.latched s.mem g) = (scale, bias) →
          m.read (scaleAddr f r.latched g) (fmtSize f.fmt) =
            encodeFmt f.fmt (Config.freeNaN s.draws (scaleAddr f r.latched g)) (nm.cvt f.fmt scale)
              % 2 ^ (8 * fmtSize f.fmt) ∧
          m.read (biasAddr f r.latched g) (fmtSize f.fmt) =
            encodeFmt f.fmt (Config.freeNaN s.draws (biasAddr f r.latched g)) (nm.cvt f.fmt bias)
              % 2 ^ (8 * fmtSize f.fmt) ∧
          ∀ j < groupElems f.group,
            codeOfBuffer m r.latched.wAddr.toNat f.width (g * groupElems f.group + j) =
              quantCode nm f.width s.draws (g * groupElems f.group + j) scale bias
                (nm.cvt .f32 (loadFmt s.mem f.fmt
                  (r.latched.xAddr.toNat + (g * groupElems f.group + j) * fmtSize f.fmt)))) ∧
      (∀ i < matrixSize r.latched,
        (codeOfBuffer m r.latched.wAddr.toNat f.width i).toNat ≤ 2 ^ widthBits f.width - 1) ∧
      ∀ x, (∀ b ∈ outBuffers (.quantize bits gsize dtype) r.latched, b.has x = false) → m.get x = s.mem.get x

/-! ### QMM and QMM.T -/

/-- QMM in flight completes: output element (i, n) is the closed form of 42_qmm.md R303, the left-to-right sum in
increasing k from +0.0 through mac_T on wq(k, n), where a NaN has a free encoding (log
entry 5); every byte outside the output is unchanged. -/
def Obligations.QmmStoresTheClosedForm : Prop :=
  ∀ (s : State) (r : Run) (bits : BitVec 4) (gsize : BitVec 8) (dtype : BitVec 2) (f : FloatFields), s.Inv →
    inFlight s r (.qmm bits gsize dtype) → floatFields bits gsize dtype = some f →
    let nm := numericsOf s.params
    ∃ m, exec (.qmm bits gsize dtype) s = .next (completedWith s r false m) ∧
      (∀ i < r.latched.dimM.toNat, ∀ n < r.latched.dimN.toNat,
        let addr := r.latched.oAddr.toNat + (i * r.latched.dimN.toNat + n) * fmtSize f.fmt
        m.read addr (fmtSize f.fmt) =
          encodeFmt f.fmt (Config.freeNaN s.draws addr)
            ((List.range r.latched.dimK.toNat).foldl
              (fun acc k => macWeight nm f.fmt acc (activation f r.latched s.mem i k)
                (weightAt f r.latched s.mem r.latched.dimN.toNat k n)) (.fin false 0))
            % 2 ^ (8 * fmtSize f.fmt)) ∧
      ∀ x, x < r.latched.oAddr.toNat ∨
          r.latched.oAddr.toNat + r.latched.dimM.toNat * r.latched.dimN.toNat * fmtSize f.fmt ≤ x →
        m.get x = s.mem.get x

/-- QMM.T in flight on the scalar datapath completes: output element (i, n) is the closed form of 42_qmm.md R303 with
wq(n, k), where a NaN has a free encoding (log entry 5); every byte outside the output is unchanged (R311). -/
def Obligations.QmmTScalarStoresTheClosedForm : Prop :=
  ∀ (s : State) (r : Run) (bits : BitVec 4) (gsize : BitVec 8) (dtype : BitVec 2) (f : FloatFields), s.Inv →
    inFlight s r (.qmmT bits gsize dtype) → floatFields bits gsize dtype = some f →
    simdOk s.params.lanes f.width = false →
    let nm := numericsOf s.params
    ∃ m, exec (.qmmT bits gsize dtype) s = .next (completedWith s r false m) ∧
      (∀ i < r.latched.dimM.toNat, ∀ n < r.latched.dimN.toNat,
        let addr := r.latched.oAddr.toNat + (i * r.latched.dimN.toNat + n) * fmtSize f.fmt
        m.read addr (fmtSize f.fmt) =
          encodeFmt f.fmt (Config.freeNaN s.draws addr)
            ((List.range r.latched.dimK.toNat).foldl
              (fun acc k => macWeight nm f.fmt acc (activation f r.latched s.mem i k)
                (weightAt f r.latched s.mem r.latched.dimK.toNat n k)) (.fin false 0))
            % 2 ^ (8 * fmtSize f.fmt)) ∧
      ∀ x, x < r.latched.oAddr.toNat ∨
          r.latched.oAddr.toNat + r.latched.dimM.toNat * r.latched.dimN.toNat * fmtSize f.fmt ≤ x →
        m.get x = s.mem.get x

/-- QMM.T in flight on the SIMD datapath completes with STATUS.SIMD set: lane l accumulates the k with k % S = l in
increasing order through simd_mac on wq(n, k), the lanes are reduced by the tree and narrowed once, a NaN having a free
encoding (log entry 5); every byte outside the output is unchanged (42_qmm.md R312, R314, R317). -/
def Obligations.QmmTSimdStoresTheLaneSums : Prop :=
  ∀ (s : State) (r : Run) (bits : BitVec 4) (gsize : BitVec 8) (dtype : BitVec 2) (f : FloatFields), s.Inv →
    inFlight s r (.qmmT bits gsize dtype) → floatFields bits gsize dtype = some f →
    simdOk s.params.lanes f.width = true →
    let nm := numericsOf s.params
    ∃ m, exec (.qmmT bits gsize dtype) s = .next (completedWith s r true m) ∧
      (∀ i < r.latched.dimM.toNat, ∀ n < r.latched.dimN.toNat,
        let addr := r.latched.oAddr.toNat + (i * r.latched.dimN.toNat + n) * fmtSize f.fmt
        let lane := fun l => ((List.range r.latched.dimK.toNat).filter fun k => k % laneCount s.params.lanes = l).foldl
          (fun acc k =>
            let w := weightAt f r.latched s.mem r.latched.dimK.toNat n k
            nm.simdMac acc (nm.cvt .f32 (activation f r.latched s.mem i k)) (fOfNat w.code.toNat)
              (nm.cvt .f32 w.scale) (nm.cvt .f32 w.bias)) (.fin false 0)
        m.read addr (fmtSize f.fmt) =
          encodeFmt f.fmt (Config.freeNaN s.draws addr)
            (nm.cvt f.fmt (nm.reduce (laneLevels s.params.lanes)
              ((List.range (laneCount s.params.lanes)).map lane)))
            % 2 ^ (8 * fmtSize f.fmt)) ∧
      ∀ x, x < r.latched.oAddr.toNat ∨
          r.latched.oAddr.toNat + r.latched.dimM.toNat * r.latched.dimN.toNat * fmtSize f.fmt ≤ x →
        m.get x = s.mem.get x

/-- Zero dimensions: with M = 0 or N = 0 the command succeeds and writes nothing; with K = 0 every output element is
+0.0, all of its bytes 0, on the scalar datapaths under every NUMERICS record and on the SIMD datapath under the
default one; and with K = 0 no in buffer of a QMM is ever out of range (42_qmm.md R322). -/
def Obligations.ZeroDimensionsSucceed : Prop :=
  (∀ (s : State) (r : Run) (i : Instr) (bits : BitVec 4) (gsize : BitVec 8) (dtype : BitVec 2), s.Inv → inFlight s r i →
    (i = .qmm bits gsize dtype ∨ i = .qmmT bits gsize dtype) →
    ∃ m, exec i s = .next (completedWith s r r.simd m) ∧
      (r.latched.dimM = 0 ∨ r.latched.dimN = 0 → m = s.mem) ∧
      (r.latched.dimK = 0 → (r.simd = true → s.params.numerics = .ieee) →
        ∀ x, (∃ b ∈ outBuffers i r.latched, b.has x = true) → m.get x = 0)) ∧
  (∀ (bits : BitVec 4) (gsize : BitVec 8) (dtype : BitVec 2) (r : OperandRegs) (memSize : Nat), r.dimK = 0 →
    ∀ b ∈ commandBuffers (.qmm bits gsize dtype) r, b.isOut = false → outOfRange memSize b = false)

/-- Orientation equivalence: QMM and QMM.T on its scalar datapath, with the same element type, M, N, K, x, output
address, NUMERICS record and the same weight triple at every position, write the same bytes, whatever the code widths
and group sizes (42_qmm.md R318). Where an element is a NaN its encoding is a free value, the same one in both by the
premise on the counter (log entry 5). -/
def Obligations.OrientationsAgreeOnEqualWeights : Prop :=
  ∀ (s s' t t' : State) (r r' : Run) (bits bits' : BitVec 4) (gsize gsize' : BitVec 8) (dtype : BitVec 2)
    (f f' : FloatFields),
    s.Inv → s'.Inv → inFlight s r (.qmm bits gsize dtype) → inFlight s' r' (.qmmT bits' gsize' dtype) →
    floatFields bits gsize dtype = some f → floatFields bits' gsize' dtype = some f' →
    simdOk s'.params.lanes f'.width = false → s.params.numerics = s'.params.numerics → s.draws = s'.draws →
    r.latched.dimM = r'.latched.dimM → r.latched.dimN = r'.latched.dimN → r.latched.dimK = r'.latched.dimK →
    r.latched.oAddr = r'.latched.oAddr →
    (∀ i < r.latched.dimM.toNat, ∀ k < r.latched.dimK.toNat,
      activation f r.latched s.mem i k = activation f' r'.latched s'.mem i k) →
    (∀ k < r.latched.dimK.toNat, ∀ n < r.latched.dimN.toNat,
      weightAt f r.latched s.mem r.latched.dimN.toNat k n = weightAt f' r'.latched s'.mem r.latched.dimK.toNat n k) →
    exec (.qmm bits gsize dtype) s = .next t → exec (.qmmT bits' gsize' dtype) s' = .next t' →
    ∀ x, (∃ b ∈ outBuffers (.qmm bits gsize dtype) r.latched, b.has x = true) → t.mem.get x = t'.mem.get x

/-! ### Batched and gathered products -/

/-- `loc` is the row-major multi-index decomposition: the offset of the flat index of (i_0, …, i_{n-1}) is the sum of
the i_j · st_j; a broadcast operand, all of whose strides are 0, is at offset 0 for every batch
(43_host_batched.md R351). -/
def Obligations.BatchOffsetIsTheMultiIndexSum : Prop :=
  (∀ (dims idx st : List Nat), idx.length = dims.length → st.length = dims.length →
    (∀ p ∈ List.zip dims idx, p.2 < p.1) →
    loc (flatIndex dims idx) dims st = ((List.zip idx st).map fun p => p.1 * p.2).sum) ∧
  (∀ (b : Nat) (dims st : List Nat), (∀ x ∈ st, x = 0) → loc b dims st = 0)

/-- A batched sequence writes the three dimensions and comes to batch 0; it goes on with batch i exactly as long as the
last STATUS shows no error and batches remain: it then writes the five addresses of the batch and runs the command
(43_host_batched.md R352). -/
def Obligations.BatchedSequenceRunsOrStops : Prop :=
  (∀ (s : State) (b : Batched) (rest : List Event), s.agenda = .batched b :: rest →
    step s = .next { s with agenda :=
      [ wr s.params .dimM (b.product.m.setWidth 64), wr s.params .dimN (b.product.n.setWidth 64),
        wr s.params .dimK (b.product.k.setWidth 64), .batchedAt b 0 ] ++ rest }) ∧
  ∀ (s : State) (b : Batched) (i : Nat) (rest : List Event), s.agenda = .batchedAt b i :: rest →
    ((0 < i ∧ statusErr s.hostData = true) ∨ b.shape.prod ≤ i → step s = .next { s with agenda := rest }) ∧
    ((i = 0 ∨ statusErr s.hostData = false) → i < b.shape.prod →
      step s = .next { s with agenda :=
        [ wr s.params .xAddr (BitVec.ofNat 64 (b.product.xBase + loc i b.shape b.xStrides)),
          wr s.params .wAddr (BitVec.ofNat 64 (b.product.wBase + loc i b.shape b.wStrides)),
          wr s.params .sAddr (BitVec.ofNat 64 (b.product.sBase + loc i b.shape b.sStrides)),
          wr s.params .bAddr (BitVec.ofNat 64 (b.product.bBase + loc i b.shape b.bStrides)),
          wr s.params .oAddr (BitVec.ofNat 64
            (b.product.oBase + i * b.product.m.toNat * b.product.n.toNat * dtypeSize b.product.dtype)),
          cmdWrite s.params (encode (batchInstr b.product)), .poll, .batchedAt b (i + 1) ] ++ rest })

/-- A gathered sequence writes the three dimensions and comes to position 0; it stops when the last STATUS shows an
error or no position remains; with the remaining indices in range it takes, for position i, the activation batch lhs[i]
and the weight batch rhs[i], and runs the command on their addresses; an out-of-range index is refused
(43_host_batched.md R353, R355). The indices are the host's reads: the u32 values of data memory where no byte of them
reads as unspecified (20_memory.md R120, R131). That they are read at each position is the model's choice (log entry
16). -/
def Obligations.GatherSelectsByIndexOrRefuses : Prop :=
  (∀ (s : State) (g : Gather) (rest : List Event), s.agenda = .gather g :: rest →
    step s = .next { s with agenda :=
      [ wr s.params .dimM (g.product.m.setWidth 64), wr s.params .dimN (g.product.n.setWidth 64),
        wr s.params .dimK (g.product.k.setWidth 64), .gatherAt g 0 ] ++ rest }) ∧
  (∀ (s : State) (g : Gather) (i : Nat) (rest : List Event), s.agenda = .gatherAt g i :: rest →
    (0 < i ∧ statusErr s.hostData = true) ∨ g.count ≤ i → step s = .next { s with agenda := rest }) ∧
  (∀ (s : State) (a n : Nat), (∀ j < n, readsUnspecified s (a + j) = false) → hostRead s a n = s.mem.read a n) ∧
  ∀ (s : State) (g : Gather) (i : Nat) (rest : List Event), s.agenda = .gatherAt g i :: rest →
    (i = 0 ∨ statusErr s.hostData = false) → i < g.count →
    g.lhsAddr + 4 * g.count ≤ s.params.memSize → g.rhsAddr + 4 * g.count ≤ s.params.memSize →
    let lhs := fun j => hostRead s (g.lhsAddr + 4 * j) 4
    let rhs := fun j => hostRead s (g.rhsAddr + 4 * j) 4
    ((∃ j, i ≤ j ∧ j < g.count ∧ (g.xShape.prod ≤ lhs j ∨ g.wShape.prod ≤ rhs j)) →
      step s = .refused .gatherIndexOutOfRange) ∧
    ((∀ j, i ≤ j → j < g.count → lhs j < g.xShape.prod ∧ rhs j < g.wShape.prod) →
      step s = .next { s with
        draws := s.draws + 1
        agenda :=
          [ wr s.params .xAddr (BitVec.ofNat 64 (g.product.xBase + loc (lhs i) g.xShape g.xStrides)),
            wr s.params .wAddr (BitVec.ofNat 64 (g.product.wBase + loc (rhs i) g.wShape g.wStrides)),
            wr s.params .sAddr (BitVec.ofNat 64 (g.product.sBase + loc (rhs i) g.wShape g.sStrides)),
            wr s.params .bAddr (BitVec.ofNat 64 (g.product.bBase + loc (rhs i) g.wShape g.bStrides)),
            wr s.params .oAddr (BitVec.ofNat 64
              (g.product.oBase + i * g.product.m.toNat * g.product.n.toNat * dtypeSize g.product.dtype)),
            cmdWrite s.params (encode (batchInstr g.product)), .poll, .gatherAt g (i + 1) ] ++ rest })

/-! ### The whole machine -/

/-- The invariant holds after reset, for all parameters that meet 00_scope.md R6. -/
def Obligations.InvariantHoldsAfterReset : Prop :=
  (∀ p : Params, paramsOk p = true → (State.resetWith p).Inv) ∧ State.reset.Inv

/-- Every step keeps the invariant: memory stays canonical and inside MEM_SIZE, STATUS stays legal, BUSY says whether a
command is in flight, the command in flight stays the accepted one of CMD and the operand registers, the completed
commands that the host has not seen complete stay accepted ones, CMD is 0 while STATUS is 0, STATUS.SIMD belongs to a
QMM.T of the SIMD datapath, the registers stay at their reset values while reset is asserted. -/
def Obligations.EveryStepKeepsTheInvariant : Prop := ∀ s t : State, s.Inv → step s = .next t → t.Inv

/-- No error after acceptance: from a state of the invariant no step ends in the fault of an ill-formed command, and a
command in flight completes at the engine's turn with STATUS DONE and no ERR, whatever the data
(60_exceptions.md R409, 42_qmm.md R321). -/
def Obligations.AcceptedCommandsComplete : Prop :=
  ∀ s : State, s.Inv → onlyHostFaults (step s) ∧
    ∀ r, s.running = some r →
      ∃ t, engineTurn s = .next t ∧ t.running = none ∧ statusDone t.status = true ∧ statusErr t.status = false ∧
        statusBusy t.status = false

/-- Determinism: the bytes an accepted command leaves in its out buffers, and its STATUS, depend only on the latched
configuration, SIMD_LANES, NUMERICS, the bytes of its in buffers and the free values of NaN encodings and non-finite
groups (00_scope.md R21, 70_reset_and_hazards.md R472). -/
def Obligations.OutputsDependOnlyOnConfigurationAndInputs : Prop :=
  ∀ (s s' t : State) (r : Run), s.Inv → s'.Inv → inFlight s r r.instr → inFlight s' r r.instr →
    s.params.lanes = s'.params.lanes → s.params.numerics = s'.params.numerics → s.draws = s'.draws →
    (∀ b ∈ commandBuffers r.instr r.latched, b.isOut = false → ∀ x, b.has x = true → s.mem.get x = s'.mem.get x) →
    exec r.instr s = .next t →
    ∃ t', exec r.instr s' = .next t' ∧ t'.status = t.status ∧
      ∀ b ∈ outBuffers r.instr r.latched, ∀ x, b.has x = true → t.mem.get x = t'.mem.get x
end

