-- ==== Sys2Proof/Laws/Checks.lean ====
section
/-! SUPPORT. What passing validation says: the fields are supported, the shape divides, every buffer is aligned and in
range, and out buffers meet no other buffer. -/

namespace Sys2Proof.Machine

/-- Everything that passing the buffer checks says (60_exceptions.md R405 to R407). -/
theorem checkBuffers_none {memSize : Nat} {bs : List Buffer} (h : checkBuffers memSize bs = none) :
    (∀ b ∈ bs, misaligned b = false) ∧ (∀ b ∈ bs, outOfRange memSize b = false) ∧ overlapping bs = false := by
  unfold checkBuffers at h
  split at h
  · simp at h
  · split at h
    · simp at h
    · split at h
      · simp at h
      · next h1 h2 h3 =>
        simp only [List.any_eq_true, not_exists, not_and, Bool.not_eq_true] at h1 h2 h3
        exact ⟨h1, h2, h3⟩

theorem checkShape_none {memSize inner divisor : Nat} {bs : List Buffer}
    (h : checkShape memSize inner divisor bs = none) : inner % divisor = 0 ∧ checkBuffers memSize bs = none := by
  unfold checkShape at h
  split at h
  · simp at h
  · next hd => exact ⟨by omega, h⟩

theorem checkFields_none {bits : BitVec 4} {gsize : BitVec 8} {dtype : BitVec 2} {rest : FloatFields → Option ErrCode}
    (h : checkFields bits gsize dtype rest = none) :
    ∃ f, floatFields bits gsize dtype = some f ∧ widthOfField bits = some f.width ∧ rest f = none := by
  unfold checkFields at h
  split at h
  · simp at h
  · next w hw =>
    split at h
    · simp at h
    · next g hg =>
      split at h
      · simp at h
      · next t ht => exact ⟨⟨w, g, t⟩, by simp [floatFields, hw, hg, ht], hw, h⟩

/-- A buffer in range ends at or before MEM_SIZE, or is empty. -/
theorem in_range {memSize : Nat} {b : Buffer} (h : outOfRange memSize b = false) : b.len = 0 ∨ b.base + b.len ≤ memSize := by
  simp only [outOfRange, Bool.and_eq_false_iff, decide_eq_false_iff_not] at h
  omega

/-- Two buffers of which one is an out buffer have no byte in common, when nothing overlaps. -/
theorem disjoint_of_not_overlapping : ∀ {bs : List Buffer}, overlapping bs = false →
    bs.Pairwise fun b c => (b.isOut || c.isOut) = true → ∀ x, ¬(b.has x = true ∧ c.has x = true)
  | [], _ => List.Pairwise.nil
  | b :: bs, h => by
    simp only [overlapping, Bool.or_eq_false_iff, List.any_eq_false, Bool.and_eq_true, not_and, Bool.not_eq_true] at h
    refine List.Pairwise.cons (fun c hc ho x hx => ?_) (disjoint_of_not_overlapping h.2)
    have h1 := h.1 c hc ho
    obtain ⟨hb, hc⟩ := hx
    simp only [Buffer.has, Bool.and_eq_true, decide_eq_true_eq] at hb hc
    simp only [intersects, Bool.and_eq_false_iff, decide_eq_false_iff_not] at h1
    omega

end Sys2Proof.Machine
end

