-- ==== Sys2Proof/Laws/Memory.lean ====
section
/-! SUPPORT. The laws of data memory: read after write, writes leave other bytes alone, every operation keeps the
canonical form and the bound MEM_SIZE. -/

namespace Sys2Proof.Machine

namespace Memory

theorem wfFrom_mono {lo lo' : Nat} (h : lo' ≤ lo) : ∀ {m : Memory}, wfFrom lo m = true → wfFrom lo' m = true
  | [], _ => rfl
  | (a, b) :: m, hm => by
    simp only [wfFrom, Bool.and_eq_true, decide_eq_true_eq] at hm ⊢
    exact ⟨⟨by omega, hm.1.2⟩, hm.2⟩

/-- Below the first address of a canonical list nothing is listed. -/
theorem get_of_lt {lo x : Nat} : ∀ {m : Memory}, wfFrom lo m = true → x < lo → get m x = unlistedByte
  | [], _, _ => rfl
  | (a, b) :: m, hm, hx => by
    simp only [wfFrom, Bool.and_eq_true, decide_eq_true_eq] at hm
    have : a ≠ x := by omega
    simp only [get, this, if_false]
    exact get_of_lt hm.2 (by omega)

theorem get_consCell_self {x : Nat} {v : Byte} {m : Memory} (hm : wfFrom (x + 1) m = true) :
    get (consCell x v m) x = v := by
  unfold consCell
  split
  · next h => rw [h]; exact get_of_lt hm (by omega)
  · simp [get]

theorem get_consCell_of_ne {x y : Nat} {v : Byte} {m : Memory} (h : x ≠ y) : get (consCell x v m) y = get m y := by
  unfold consCell
  split
  · rfl
  · simp [get, h]

theorem wfFrom_consCell {lo x : Nat} {v : Byte} {m : Memory} (hx : lo ≤ x) (hm : wfFrom (x + 1) m = true) :
    wfFrom lo (consCell x v m) = true := by
  unfold consCell
  split
  · exact wfFrom_mono (by omega) hm
  · next h => simp [wfFrom, hx, h, hm]

theorem wfFrom_set {lo x : Nat} {v : Byte} (hx : lo ≤ x) : ∀ {m : Memory}, wfFrom lo m = true →
    wfFrom lo (set m x v) = true
  | [], _ => wfFrom_consCell hx rfl
  | (a, b) :: m, hm => by
    have hm' := hm
    simp only [wfFrom, Bool.and_eq_true, decide_eq_true_eq] at hm
    unfold set
    split
    · next h =>
      apply wfFrom_consCell hx
      simp only [wfFrom, Bool.and_eq_true, decide_eq_true_eq]
      exact ⟨⟨by omega, hm.1.2⟩, hm.2⟩
    · split
      · next h => exact wfFrom_consCell hx (h ▸ hm.2)
      · simp only [wfFrom, Bool.and_eq_true, decide_eq_true_eq]
        exact ⟨hm.1, wfFrom_set (by omega) hm.2⟩

/-- A write keeps the canonical form. -/
theorem wf_set {m : Memory} (x : Nat) (v : Byte) (hm : m.wf = true) : (m.set x v).wf = true :=
  wfFrom_set (Nat.zero_le x) hm

theorem get_set_self_from {lo x : Nat} {v : Byte} : ∀ {m : Memory}, wfFrom lo m = true → get (set m x v) x = v
  | [], _ => get_consCell_self rfl
  | (a, b) :: m, hm => by
    simp only [wfFrom, Bool.and_eq_true, decide_eq_true_eq] at hm
    unfold set
    split
    · next h =>
      apply get_consCell_self
      simp only [wfFrom, Bool.and_eq_true, decide_eq_true_eq]
      exact ⟨⟨by omega, hm.1.2⟩, hm.2⟩
    · split
      · next h => exact get_consCell_self (h ▸ hm.2)
      · next h1 h2 =>
        have : a ≠ x := fun h => h2 h.symm
        simp only [get, this, if_false]
        exact get_set_self_from hm.2

/-- Read after write. -/
theorem get_set_self {m : Memory} (x : Nat) (v : Byte) (hm : m.wf = true) : (m.set x v).get x = v :=
  get_set_self_from hm

/-- A write leaves every other byte alone. -/
theorem get_set_of_ne {x y : Nat} {v : Byte} (h : x ≠ y) : ∀ {m : Memory}, get (set m x v) y = get m y
  | [] => by simp [set, get_consCell_of_ne h]
  | (a, b) :: m => by
    unfold set
    split
    · exact get_consCell_of_ne h
    · split
      · next hx =>
        have : a ≠ y := fun e => h (hx.trans e)
        simp [get_consCell_of_ne h, get, this]
      · by_cases e : a = y
        · simp [get, e]
        · simp [get, e, get_set_of_ne h]

/-- One byte after one write. -/
theorem get_set {m : Memory} (hm : m.wf = true) (x y : Nat) (v : Byte) :
    (m.set x v).get y = if x = y then v else m.get y := by
  by_cases h : x = y
  · subst h; simp [get_set_self x v hm]
  · simp [h, get_set_of_ne h]

theorem wf_setBytes : ∀ {m : Memory} (a : Nat) (bs : List Byte), m.wf = true → (m.setBytes a bs).wf = true
  | _, _, [], hm => hm
  | _, a, _ :: bs, hm => wf_setBytes (a + 1) bs (wf_set a _ hm)

/-- Writing bytes leaves every address outside them alone. -/
theorem get_setBytes_outside {x : Nat} : ∀ {m : Memory} (a : Nat) (bs : List Byte), x < a ∨ a + bs.length ≤ x →
    (m.setBytes a bs).get x = m.get x
  | _, _, [], _ => rfl
  | m, a, b :: bs, h => by
    simp only [List.length_cons] at h
    rw [setBytes, get_setBytes_outside (a + 1) bs (by omega), get_set_of_ne (by omega)]

/-- Byte j of the bytes written. -/
theorem get_setBytes_inside : ∀ {m : Memory} (a : Nat) (bs : List Byte) (j : Nat) (hj : j < bs.length), m.wf = true →
    (m.setBytes a bs).get (a + j) = bs[j]
  | m, a, b :: bs, 0, _, hm => by
    rw [setBytes, get_setBytes_outside (a + 1) bs (by omega)]
    simpa using get_set_self a b hm
  | m, a, b :: bs, j + 1, hj, hm => by
    have h := get_setBytes_inside (m := m.set a b) (a + 1) bs j (by simpa using hj) (wf_set a b hm)
    rw [setBytes, show a + (j + 1) = a + 1 + j by omega, h]
    rfl

theorem wf_setBlocks : ∀ {m : Memory} (bs : List Block), m.wf = true → (m.setBlocks bs).wf = true
  | _, [], hm => hm
  | _, (a, b) :: bs, hm => wf_setBlocks bs (wf_setBytes a b hm)

/-- Writing blocks leaves every address that none covers alone. -/
theorem get_setBlocks_outside {x : Nat} : ∀ {m : Memory} (bs : List Block), (∀ b ∈ bs, b.covers x = false) →
    (m.setBlocks bs).get x = m.get x
  | _, [], _ => rfl
  | m, (a, b) :: bs, h => by
    have h0 := h (a, b) (by simp)
    simp only [Block.covers, Bool.and_eq_false_iff, decide_eq_false_iff_not] at h0
    rw [setBlocks, get_setBlocks_outside bs fun c hc => h c (by simp [hc]),
      get_setBytes_outside a b (by omega)]

/-- Byte j of block b, when no later block covers it. -/
theorem get_setBlocks_inside {m : Memory} {b : Block} {rest : List Block} (hm : m.wf = true) (j : Nat)
    (hj : j < b.2.length) (hr : ∀ c ∈ rest, c.covers (b.1 + j) = false) :
    (m.setBlocks (b :: rest)).get (b.1 + j) = b.2[j] := by
  obtain ⟨a, bs⟩ := b
  rw [setBlocks, get_setBlocks_outside rest hr]
  exact get_setBytes_inside a bs j hj hm

theorem below_consCell {limit x : Nat} {v : Byte} {m : Memory} (hx : x < limit) (hm : m.below limit = true) :
    below limit (consCell x v m) = true := by
  unfold consCell
  split
  · exact hm
  · simp only [below, List.all_cons, Bool.and_eq_true, decide_eq_true_eq]
    exact ⟨hx, hm⟩

theorem below_set {limit x : Nat} {v : Byte} (hx : x < limit) : ∀ {m : Memory}, m.below limit = true →
    (m.set x v).below limit = true
  | [], hm => below_consCell hx hm
  | (a, b) :: m, hm => by
    have h2 := hm
    simp only [below, List.all_cons, Bool.and_eq_true, decide_eq_true_eq] at h2
    unfold set
    split
    · exact below_consCell hx hm
    · split
      · exact below_consCell hx h2.2
      · simp only [below, List.all_cons, Bool.and_eq_true, decide_eq_true_eq]
        exact ⟨h2.1, below_set hx h2.2⟩

theorem below_setBytes {limit : Nat} : ∀ {m : Memory} (a : Nat) (bs : List Byte),
    (bs = [] ∨ a + bs.length ≤ limit) → m.below limit = true → (m.setBytes a bs).below limit = true
  | _, _, [], _, hm => hm
  | _, a, b :: bs, h, hm => by
    simp only [List.length_cons, reduceCtorEq, false_or] at h
    exact below_setBytes (a + 1) bs (.inr (by omega)) (below_set (by omega) hm)

theorem below_setBlocks {limit : Nat} : ∀ {m : Memory} (bs : List Block),
    (∀ b ∈ bs, b.2 = [] ∨ b.1 + b.2.length ≤ limit) → m.below limit = true → (m.setBlocks bs).below limit = true
  | _, [], _, hm => hm
  | _, (a, b) :: bs, h, hm =>
    below_setBlocks bs (fun c hc => h c (by simp [hc])) (below_setBytes a b (h (a, b) (by simp)) hm)

/-- Two memories that agree on n bytes from a on read the same there. -/
theorem read_congr {m m' : Memory} : ∀ (n a : Nat), (∀ j < n, m.get (a + j) = m'.get (a + j)) →
    m.read a n = m'.read a n
  | 0, _, _ => rfl
  | n + 1, a, h => by
    have h0 := h 0 (by omega)
    simp only [Nat.add_zero] at h0
    have ht : m.read (a + 1) n = m'.read (a + 1) n := read_congr n (a + 1) fun j hj => by
      rw [show a + 1 + j = a + (j + 1) by omega]
      exact h (j + 1) (by omega)
    rw [read, read, h0, ht]

theorem read_lt : ∀ (m : Memory) (a n : Nat), m.read a n < 256 ^ n
  | _, _, 0 => by simp [read]
  | m, a, n + 1 => by
    have h := read_lt m (a + 1) n
    have h2 := (m.get a).isLt
    rw [read, pow_succ]
    omega

end Memory

@[simp] theorem length_bytesLE : ∀ (n v : Nat), (bytesLE n v).length = n
  | 0, _ => rfl
  | n + 1, v => by simp [bytesLE, length_bytesLE n]

@[simp] theorem length_freeBytes (draw : Nat) : ∀ (a n : Nat), (freeBytes draw a n).length = n
  | _, 0 => rfl
  | a, n + 1 => by simp [freeBytes, length_freeBytes draw (a + 1) n]

theorem getElem_freeBytes (draw : Nat) : ∀ (a n j : Nat) (h : j < (freeBytes draw a n).length),
    (freeBytes draw a n)[j] = Config.freeByte draw (a + j)
  | a, n + 1, 0, _ => rfl
  | a, n + 1, j + 1, h => by
    have := getElem_freeBytes draw (a + 1) n j (by simpa [freeBytes] using h)
    simpa [freeBytes, show a + (j + 1) = a + 1 + j by omega] using this

@[simp] theorem freeBlock_base (draw : Nat) (b : Block) : (freeBlock draw b).1 = b.1 := rfl

@[simp] theorem length_freeBlock (draw : Nat) (b : Block) : (freeBlock draw b).2.length = b.2.length := by
  simp [freeBlock]

@[simp] theorem covers_freeBlock (draw : Nat) (b : Block) (x : Nat) : (freeBlock draw b).covers x = b.covers x := by
  simp only [Block.covers, freeBlock_base, length_freeBlock]
  rfl

theorem wf_drawCells (draw : Nat) : ∀ {m : Memory} (xs : List Nat), m.wf = true → (drawCells draw m xs).wf = true
  | _, [], hm => hm
  | _, a :: as, hm => wf_drawCells draw as (Memory.wf_set a _ hm)

/-- Drawing bytes gives each its free value and leaves the others alone. -/
theorem get_drawCells (draw x : Nat) : ∀ {m : Memory} (xs : List Nat), m.wf = true →
    (drawCells draw m xs).get x = if x ∈ xs then Config.freeByte draw x else m.get x
  | _, [], _ => by simp [drawCells]
  | m, a :: as, hm => by
    rw [drawCells, get_drawCells draw x as (Memory.wf_set a _ hm), Memory.get_set hm]
    by_cases h1 : x ∈ as
    · simp [h1]
    · by_cases h2 : a = x
      · subst h2; simp
      · simp [h1, h2, Ne.symm h2]

theorem below_drawCells {limit : Nat} (draw : Nat) : ∀ {m : Memory} (xs : List Nat), (∀ x ∈ xs, x < limit) →
    m.below limit = true → (drawCells draw m xs).below limit = true
  | _, [], _, hm => hm
  | _, a :: as, h, hm =>
    below_drawCells draw as (fun x hx => h x (by simp [hx])) (Memory.below_set (h a (by simp)) hm)

/-- Completion keeps the canonical form. -/
theorem wf_commit (r : Run) (draw : Nat) (bs : List Block) {m : Memory} (hm : m.wf = true) :
    (commit r draw bs m).wf = true := by
  unfold commit
  split
  · exact Memory.wf_setBlocks bs hm
  · exact wf_drawCells draw _ (Memory.wf_setBlocks _ hm)

/-- Completion leaves alone every byte that is neither in an output nor written by the host meanwhile. -/
theorem get_commit_outside (r : Run) (draw : Nat) (bs : List Block) {m : Memory} (hm : m.wf = true) {x : Nat}
    (hx : ∀ b ∈ bs, b.covers x = false) (hw : x ∉ r.written) : (commit r draw bs m).get x = m.get x := by
  unfold commit
  split
  · exact Memory.get_setBlocks_outside bs hx
  · rw [get_drawCells draw x _ (Memory.wf_setBlocks _ hm), if_neg hw]
    apply Memory.get_setBlocks_outside
    intro b hb
    obtain ⟨b', hb', rfl⟩ := List.mem_map.1 hb
    rw [covers_freeBlock]
    exact hx b' hb'

theorem wf_hostStore (s : State) : ∀ {m : Memory} (a : Nat) (bs : List Byte), m.wf = true →
    (hostStore s m a bs).wf = true
  | _, _, [], hm => hm
  | _, a, _ :: bs, hm => wf_hostStore s (a + 1) bs (Memory.wf_set a _ hm)

theorem below_hostStore (s : State) {limit : Nat} : ∀ {m : Memory} (a : Nat) (bs : List Byte),
    a + bs.length ≤ limit → m.below limit = true → (hostStore s m a bs).below limit = true
  | _, _, [], _, hm => hm
  | _, a, _ :: bs, h, hm => by
    simp only [List.length_cons] at h
    exact below_hostStore s (a + 1) bs (by omega) (Memory.below_set (by omega) hm)

/-- A host store leaves every byte outside it alone. -/
theorem get_hostStore_outside (s : State) {x : Nat} : ∀ {m : Memory} (a : Nat) (bs : List Byte),
    x < a ∨ a + bs.length ≤ x → (hostStore s m a bs).get x = m.get x
  | _, _, [], _ => rfl
  | m, a, b :: bs, h => by
    simp only [List.length_cons] at h
    rw [hostStore, get_hostStore_outside s (a + 1) bs (by omega), Memory.get_set_of_ne (by omega)]

theorem mem_storedIn {r : Run} {a n x : Nat} : x ∈ storedIn r a n ↔ inBuffers r x = true ∧ a ≤ x ∧ x < a + n := by
  simp only [storedIn, List.mem_filter, List.mem_map, List.mem_range]
  constructor
  · rintro ⟨⟨j, hj, rfl⟩, h⟩
    exact ⟨h, by omega, by omega⟩
  · rintro ⟨h, h1, h2⟩
    exact ⟨⟨x - a, by omega, by omega⟩, h⟩

/-- The spoiled blocks lie in out buffers of commands that are complete, unobserved, and met by the store. -/
theorem mem_spoiledBlocks {s : State} {a n : Nat} {b : Block} : b ∈ spoiledBlocks s a n ↔
    ∃ r ∈ s.unobserved, (∃ y, y ∈ storedIn r a n) ∧
      ∃ o ∈ outBuffers r.instr r.latched, b = (o.base, freeBytes s.draws o.base o.len) := by
  simp only [spoiledBlocks, List.mem_flatMap, List.mem_filter, freeOutBlocks, List.mem_map, Bool.not_eq_true',
    List.isEmpty_eq_false_iff_exists_mem]
  constructor
  · rintro ⟨r, ⟨hr, hy⟩, o, ho, rfl⟩
    exact ⟨r, hr, hy, o, ho, rfl⟩
  · rintro ⟨r, hr, hy, o, ho, rfl⟩
    exact ⟨r, ⟨hr, hy⟩, o, ho, rfl⟩

/-- A host store keeps the canonical form. -/
theorem wf_hostMemWrite {size : AccessSize} {a : Nat} {v : Word} {s t : State} (h : hostMemWrite size a v s = .next t)
    (hm : s.mem.wf = true) : t.mem.wf = true := by
  unfold hostMemWrite at h
  split at h
  all_goals cases h
  exact Memory.wf_setBlocks _ (wf_hostStore s a _ hm)

/-- A host store changes only the bytes it writes and out bytes of complete, unobserved commands whose buffers it meets
(20_memory.md R120(c), R131). -/
theorem get_hostMemWrite_outside {size : AccessSize} {a x : Nat} {v : Word} {s t : State}
    (h : hostMemWrite size a v s = .next t) (hx : x < a ∨ a + accessBytes size ≤ x)
    (hs : ∀ b ∈ spoiledBlocks s a (accessBytes size), b.covers x = false) : t.mem.get x = s.mem.get x := by
  unfold hostMemWrite at h
  split at h
  all_goals cases h
  rw [Memory.get_setBlocks_outside _ hs, get_hostStore_outside s a _ (by simpa using hx)]

end Sys2Proof.Machine
end

