-- ==== Sys2Proof/Laws/Blocks.lean ====
section
/-! SUPPORT. The outputs of a command lie exactly in its out buffers: each block starts at a buffer's base and has its
length. -/

namespace Sys2Proof.Machine

/-- A pack holds pf·bits = 8·bpp bits (40_codec.md R202). -/
theorem pack_bits (w : Width) : packFactor w * widthBits w = 8 * bytesPerPack w := by cases w <;> rfl

theorem packFactor_pos (w : Width) : 0 < packFactor w := by cases w <;> decide

theorem groupElems_pos (g : GroupSize) : 0 < groupElems g := by cases g <;> decide

/-- A group holds whole packs (41_quantize.md R257). -/
theorem packFactor_dvd_group (w : Width) (g : GroupSize) : packFactor w ∣ groupElems g := by
  cases w <;> cases g <;> decide

theorem length_flatMap_const {α β : Type} (f : α → List β) (n : Nat) : ∀ l : List α, (∀ a ∈ l, (f a).length = n) →
    (l.flatMap f).length = l.length * n
  | [], _ => by simp
  | a :: l, h => by
    rw [List.flatMap_cons, List.length_append, h a (by simp), length_flatMap_const f n l fun b hb => h b (by simp [hb]),
      List.length_cons]
    ring

/-- The packs of `n` codes take n·bits/8 bytes. -/
theorem packs_length {w : Width} {n : Nat} (h : packFactor w ∣ n) : n / packFactor w * bytesPerPack w = n * widthBits w / 8 := by
  obtain ⟨k, rfl⟩ := h
  rw [Nat.mul_div_cancel_left k (packFactor_pos w), mul_right_comm, pack_bits, mul_assoc,
    Nat.mul_div_cancel_left _ (by norm_num), mul_comm]

@[simp] theorem length_packBytes (w : Width) (cs : List Byte) : (packBytes w cs).length = bytesPerPack w := by
  simp [packBytes]

@[simp] theorem length_codesOf (w : Width) (u : Nat) : (codesOf w u).length = packFactor w := by simp [codesOf]

@[simp] theorem length_extract (m : Memory) (a : Nat) (w : Width) : (extract m a w).length = packFactor w := by
  simp [extract]

@[simp] theorem length_storeBytes (t : Fmt) (d a : Nat) (v : FVal) : (storeBytes t d a v).length = fmtSize t := by
  simp [storeBytes]

theorem length_storeRow (t : Fmt) (d : Nat) : ∀ (a : Nat) (vs : List FVal), (storeRow t d a vs).length = vs.length * fmtSize t
  | _, [] => by simp [storeRow]
  | a, v :: vs => by
    rw [storeRow, List.length_append, length_storeBytes, length_storeRow t d _ vs, List.length_cons]
    ring

theorem length_packGroup (f : FloatFields) (cs : List Byte) :
    (packGroup f cs).length = groupElems f.group * widthBits f.width / 8 := by
  rw [packGroup, length_flatMap_const _ (bytesPerPack f.width) _ (fun _ _ => length_packBytes _ _), List.length_range,
    packs_length (packFactor_dvd_group f.width f.group)]

theorem length_qmmPass (nm : Numerics) (f : FloatFields) (r : OperandRegs) (mem : Memory) (m : Nat) (row : List FVal)
    (k : Nat) (h : row.length = r.dimN.toNat) : (qmmPass nm f r mem m row k).length = r.dimN.toNat := by
  simp [qmmPass, h]

theorem length_qmmRow (nm : Numerics) (f : FloatFields) (r : OperandRegs) (mem : Memory) (m : Nat) :
    (qmmRow nm f r mem m).length = r.dimN.toNat := by
  have key : ∀ (ks : List Nat) (row : List FVal), row.length = r.dimN.toNat →
      (ks.foldl (qmmPass nm f r mem m) row).length = r.dimN.toNat := by
    intro ks
    induction ks with
    | nil => exact fun row h => h
    | cons k ks ih => exact fun row h => ih _ (length_qmmPass nm f r mem m row k h)
  exact key _ _ (by simp)

/-- The blocks and the out buffers cover the same bytes, one for one. -/
def sameRanges (bs : List Block) (os : List Buffer) : Prop :=
  bs.map (fun b => (b.1, b.2.length)) = os.map fun o => (o.base, o.len)

theorem matrix_dvd {r : OperandRegs} {d : Nat} (h : r.cols.toNat % d = 0) : d ∣ matrixSize r :=
  Dvd.dvd.mul_left (Nat.dvd_of_mod_eq_zero h) _

theorem matrix_groups {r : OperandRegs} {g : Nat} (h : r.cols.toNat % g = 0) :
    matrixSize r / g = r.rows.toNat * (r.cols.toNat / g) :=
  Nat.mul_div_assoc _ (Nat.dvd_of_mod_eq_zero h)

theorem packBlocks_ranges (w : Width) (r : OperandRegs) (m : Memory) (h : r.cols.toNat % packFactor w = 0) :
    sameRanges (packBlocks w r m) ((packBuffers w r).filter (·.isOut)) := by
  simp only [sameRanges, packBlocks, packBuffers, codeBuffer, packedBuffer, List.map_cons, List.map_nil,
    List.filter_cons, List.filter_nil, Bool.false_eq_true, if_false, if_true]
  rw [length_flatMap_const _ (bytesPerPack w) _ (fun _ _ => length_packBytes _ _), List.length_range,
    packs_length (matrix_dvd h)]

theorem unpackBlocks_ranges (w : Width) (r : OperandRegs) (m : Memory) (h : r.cols.toNat % packFactor w = 0) :
    sameRanges (unpackBlocks w r m) ((unpackBuffers w r).filter (·.isOut)) := by
  simp only [sameRanges, unpackBlocks, unpackBuffers, codeBuffer, packedBuffer, List.map_cons, List.map_nil,
    List.filter_cons, List.filter_nil, Bool.false_eq_true, if_false, if_true]
  rw [length_flatMap_const _ (packFactor w) _ (fun _ _ => length_extract _ _ _), List.length_range,
    Nat.div_mul_cancel (matrix_dvd h)]

theorem length_group_scale (nm : Numerics) (f : FloatFields) (r : OperandRegs) (d : Nat) (m : Memory) (g : Nat) :
    (quantizeGroup nm f r d m g).scale.length = fmtSize f.fmt := by
  unfold quantizeGroup
  split <;> simp [freeGroup]

theorem length_group_bias (nm : Numerics) (f : FloatFields) (r : OperandRegs) (d : Nat) (m : Memory) (g : Nat) :
    (quantizeGroup nm f r d m g).bias.length = fmtSize f.fmt := by
  unfold quantizeGroup
  split <;> simp [freeGroup]

theorem quantizeBlocks_ranges (nm : Numerics) (f : FloatFields) (r : OperandRegs) (d : Nat) (m : Memory)
    (h : r.cols.toNat % groupElems f.group = 0) :
    sameRanges (quantizeBlocks nm f r d m) ((quantizeBuffers f r).filter (·.isOut)) := by
  have hw : matrixSize r / groupElems f.group * (groupElems f.group * widthBits f.width / 8) =
      matrixSize r * widthBits f.width / 8 := by
    have hp := packFactor_dvd_group f.width f.group
    rw [← packs_length hp, ← packs_length (hp.trans (matrix_dvd h)), ← mul_assoc]
    congr 1
    obtain ⟨k, hk⟩ := matrix_dvd h
    obtain ⟨j, hj⟩ := hp
    rw [hk, Nat.mul_div_cancel_left k (groupElems_pos _), hj, Nat.mul_div_cancel_left j (packFactor_pos _), mul_assoc,
      Nat.mul_div_cancel_left _ (packFactor_pos _), mul_comm]
  simp only [sameRanges, quantizeBlocks, quantizeBuffers, floatBuffer, packedBuffer, List.map_cons, List.map_nil,
    List.filter_cons, List.filter_nil, Bool.false_eq_true, if_false, if_true]
  have hs := length_flatMap_const (fun x : GroupResult => x.scale) (fmtSize f.fmt)
    ((List.range (matrixSize r / groupElems f.group)).map (quantizeGroup nm f r d m)) (by
      intro a ha; obtain ⟨g, _, rfl⟩ := List.mem_map.1 ha; exact length_group_scale nm f r d m g)
  have hb := length_flatMap_const (fun x : GroupResult => x.bias) (fmtSize f.fmt)
    ((List.range (matrixSize r / groupElems f.group)).map (quantizeGroup nm f r d m)) (by
      intro a ha; obtain ⟨g, _, rfl⟩ := List.mem_map.1 ha; exact length_group_bias nm f r d m g)
  rw [length_flatMap_const _ _ _ (fun _ _ => length_packGroup _ _), hs, hb, List.length_map, List.length_range, hw,
    matrix_groups h]

theorem qmmBlocks_ranges (nm : Numerics) (f : FloatFields) (r : OperandRegs) (d : Nat) (m : Memory) :
    sameRanges (qmmBlocks nm f r d m) ((qmmBuffers f r).filter (·.isOut)) := by
  simp only [sameRanges, qmmBlocks, qmmBuffers, floatBuffer, packedBuffer, List.map_cons, List.map_nil,
    List.filter_cons, List.filter_nil, Bool.false_eq_true, if_false, if_true]
  rw [length_storeRow, length_flatMap_const _ r.dimN.toNat _ (fun _ _ => length_qmmRow _ _ _ _ _), List.length_range]

theorem qmmTBlocks_ranges (nm : Numerics) (f : FloatFields) (r : OperandRegs) (lanes : SimdLanes) (simd : Bool) (d : Nat)
    (m : Memory) : sameRanges (qmmTBlocks nm f r lanes simd d m) ((qmmTBuffers f r).filter (·.isOut)) := by
  simp only [sameRanges, qmmTBlocks, qmmTBuffers, floatBuffer, packedBuffer, List.map_cons, List.map_nil,
    List.filter_cons, List.filter_nil, Bool.false_eq_true, if_false, if_true]
  rw [length_storeRow, length_flatMap_const _ r.dimN.toNat _ (fun _ _ => by simp), List.length_range]

/-- Everything an accepted command's outputs say about addresses: they exist, and their blocks are its out buffers. -/
theorem commandBlocks_ranges {i : Instr} {p : Params} {r : Run} (q : Params) (d : Nat) (m : Memory)
    (h : commandCheck i p r.latched = none) :
    ∃ bs, commandBlocks i r q d m = some bs ∧ sameRanges bs (outBuffers i r.latched) := by
  cases i with
  | quantize bits gsize dtype =>
    simp only [commandCheck, quantizeCheck] at h
    obtain ⟨f, hf, -, hs⟩ := checkFields_none h
    refine ⟨quantizeBlocks (numericsOf q) f r.latched d m, by simp [commandBlocks, hf], ?_⟩
    simpa [outBuffers, commandBuffers, hf] using quantizeBlocks_ranges (numericsOf q) f r.latched d m (checkShape_none hs).1
  | qmm bits gsize dtype =>
    simp only [commandCheck, qmmCheck] at h
    obtain ⟨f, hf, -, hs⟩ := checkFields_none h
    refine ⟨qmmBlocks (numericsOf q) f r.latched d m, by simp [commandBlocks, hf], ?_⟩
    simpa [outBuffers, commandBuffers, hf] using qmmBlocks_ranges (numericsOf q) f r.latched d m
  | qmmT bits gsize dtype =>
    simp only [commandCheck, qmmTCheck] at h
    obtain ⟨f, hf, -, hs⟩ := checkFields_none h
    refine ⟨qmmTBlocks (numericsOf q) f r.latched q.lanes r.simd d m, by simp [commandBlocks, hf], ?_⟩
    simpa [outBuffers, commandBuffers, hf] using qmmTBlocks_ranges (numericsOf q) f r.latched q.lanes r.simd d m
  | pack bits =>
    simp only [commandCheck, packCheck] at h
    split at h
    · simp at h
    · next w hw =>
      refine ⟨packBlocks w r.latched m, by simp [commandBlocks, hw], ?_⟩
      simpa [outBuffers, commandBuffers, hw] using packBlocks_ranges w r.latched m (checkShape_none h).1
  | unpack bits =>
    simp only [commandCheck, unpackCheck] at h
    split at h
    · simp at h
    · next w hw =>
      refine ⟨unpackBlocks w r.latched m, by simp [commandBlocks, hw], ?_⟩
      simpa [outBuffers, commandBuffers, hw] using unpackBlocks_ranges w r.latched m (checkShape_none h).1

end Sys2Proof.Machine
end

