-- ==== Sys2Proof/Laws/Codec.lean ====
section
/-! SUPPORT. The codec as arithmetic: what a code of a pack is, what the scratch value of a pack holds, and what reading
a run of stored bytes gives. -/

namespace Sys2Proof.Machine

/-- Code j of a pack is field j of its integer (40_codec.md R204). -/
theorem codeAt_toNat (w : Width) (u j : Nat) :
    (codeAt w u j).toNat = u / 2 ^ (j * widthBits w) % 2 ^ widthBits w := by
  have h1 : 2 ^ widthBits w ≤ 2 ^ 8 := by cases w <;> decide
  have h2 : u / 2 ^ (j * widthBits w) % 2 ^ widthBits w < 2 ^ widthBits w := Nat.mod_lt _ (by positivity)
  rw [codeAt, BitVec.toNat_ofNat, Nat.shiftRight_eq_div_pow, Nat.mod_eq_of_lt (by omega)]

/-- Codes below 2^b, each or-ed in at its place: the sum has n·b bits and field j is code j. -/
theorem or_fields (b : Nat) (cs : List Byte) (hc : ∀ c ∈ cs, c.toNat < 2 ^ b) : ∀ n,
    (List.range n).foldl (fun u j => u ||| (cs.getD j 0).toNat <<< (j * b)) 0 < 2 ^ (n * b) ∧
    ∀ j < n, (List.range n).foldl (fun u j => u ||| (cs.getD j 0).toNat <<< (j * b)) 0 / 2 ^ (j * b) % 2 ^ b =
      (cs.getD j 0).toNat := by
  have hd : ∀ j, (cs.getD j 0).toNat < 2 ^ b := fun j => by
    by_cases h : j < cs.length
    · rw [List.getD_eq_getElem _ _ h]; exact hc _ (List.getElem_mem _)
    · rw [List.getD_eq_default _ _ (by omega)]; simp
  intro n
  induction n with
  | zero => simp
  | succ n ih =>
    rw [List.range_succ, List.foldl_append]
    simp only [List.foldl_cons, List.foldl_nil]
    rw [Nat.or_comm, ← Nat.shiftLeft_add_eq_or_of_lt ih.1, Nat.shiftLeft_eq]
    refine ⟨?_, fun j hj => ?_⟩
    · have h1 := hd n
      have h2 := ih.1
      rw [Nat.succ_mul, pow_add]
      nlinarith [Nat.mul_le_mul_right (2 ^ (n * b)) (Nat.succ_le_of_lt h1)]
    · by_cases h : j = n
      · subst h
        rw [Nat.add_comm, Nat.add_mul_div_right _ _ (by positivity), Nat.div_eq_of_lt ih.1, Nat.zero_add,
          Nat.mod_eq_of_lt (hd _)]
      · rw [← ih.2 j (by omega), show n * b = (n - j - 1) * b + b + j * b by
          conv_lhs => rw [show n = (n - j - 1) + 1 + j by omega]
          ring]
        rw [pow_add, pow_add, ← mul_assoc, ← mul_assoc, Nat.add_comm, Nat.add_mul_div_right _ _ (by positivity),
          Nat.add_mul_mod_self_right]

/-- The scratch value of a pack: its size and its fields (40_codec.md R208). -/
theorem packScratch_fields (w : Width) (cs : List Byte) (hc : ∀ c ∈ cs, c.toNat < 2 ^ widthBits w) :
    packScratch w cs < 256 ^ bytesPerPack w ∧
    ∀ j < packFactor w, packScratch w cs / 2 ^ (j * widthBits w) % 2 ^ widthBits w = (cs.getD j 0).toNat := by
  have h := or_fields (widthBits w) cs hc (packFactor w)
  refine ⟨?_, h.2⟩
  have h1 := h.1
  rwa [pack_bits, pow_mul] at h1

/-- Reading where the n low bytes of v stand gives v modulo 256^n. -/
theorem Memory.read_of_bytes (m : Memory) : ∀ (n a v : Nat), (∀ j < n, some (m.get (a + j)) = (bytesLE n v)[j]?) →
    m.read a n = v % 256 ^ n
  | 0, _, _, _ => by simp [Memory.read, Nat.mod_one]
  | n + 1, a, v, h => by
    have h0 := h 0 (by omega)
    simp only [bytesLE, List.getElem?_cons_zero, Option.some.injEq, Nat.add_zero] at h0
    rw [Memory.read, Memory.read_of_bytes m n (a + 1) (v / 256) fun j hj => by
      have h1 := h (j + 1) (by omega)
      rw [bytesLE, List.getElem?_cons_succ] at h1
      rw [← h1, show a + 1 + j = a + (j + 1) by omega], h0, pow_succ, mul_comm (256 ^ n), Nat.mod_mul]
    simp

/-- Byte j of bytes just written. -/
theorem Memory.getElem?_setBytes {m : Memory} (a : Nat) (bs : List Byte) (hm : m.wf = true) {j : Nat}
    (h : j < bs.length) : some ((m.setBytes a bs).get (a + j)) = bs[j]? := by
  rw [Memory.get_setBytes_inside a bs j h hm, List.getElem?_eq_getElem h]

/-- An index i·b + j of a table of a rows with b entries lies inside it. -/
theorem flat_lt {a b i j : Nat} (hi : i < a) (hj : j < b) : i * b + j < a * b := by
  have := Nat.mul_le_mul_right b (Nat.succ_le_of_lt hi)
  rw [Nat.succ_mul] at this
  omega

/-- Entry i·n + j of N rows of n entries is entry j of row i. -/
theorem getElem?_flatMap_range {β : Type} (f : Nat → List β) (n : Nat) : ∀ (N i j : Nat), (∀ k < N, (f k).length = n) →
    i < N → j < n → ((List.range N).flatMap f)[i * n + j]? = (f i)[j]?
  | 0, _, _, _, h, _ => by omega
  | N + 1, i, j, hl, hi, hj => by
    have hlen : ((List.range N).flatMap f).length = N * n := by
      rw [length_flatMap_const f n (List.range N) fun a ha => hl a (by have := List.mem_range.1 ha; omega),
        List.length_range]
    rw [List.range_succ, List.flatMap_append]
    by_cases h : i = N
    · subst h
      rw [List.getElem?_append_right (by omega), hlen]
      simp
    · rw [List.getElem?_append_left (by rw [hlen]; exact flat_lt (by omega) hj)]
      exact getElem?_flatMap_range f n N i j (fun k hk => hl k (by omega)) (by omega) hj

/-- Where N packs stand one after the other, code i·pf + j of the buffer is code j of pack i. -/
theorem codeOfBuffer_of_packs {m : Memory} {base : Nat} {w : Width} {N : Nat} {codes : Nat → List Byte}
    (hc : ∀ p < N, ∀ c ∈ codes p, c.toNat < 2 ^ widthBits w)
    (hm : ∀ j < N * bytesPerPack w,
      some (m.get (base + j)) = ((List.range N).flatMap fun p => packBytes w (codes p))[j]?)
    {p j : Nat} (hp : p < N) (hj : j < packFactor w) :
    codeOfBuffer m base w (p * packFactor w + j) = (codes p).getD j 0 := by
  have hpf := packFactor_pos w
  have e1 : (p * packFactor w + j) / packFactor w = p := by
    rw [Nat.add_comm, Nat.add_mul_div_right _ _ hpf, Nat.div_eq_of_lt hj, Nat.zero_add]
  have e2 : (p * packFactor w + j) % packFactor w = j := by
    rw [Nat.add_comm, Nat.add_mul_mod_self_right, Nat.mod_eq_of_lt hj]
  have hs := packScratch_fields w (codes p) (hc p hp)
  have hr : m.read (base + p * bytesPerPack w) (bytesPerPack w) = packScratch w (codes p) := by
    rw [Memory.read_of_bytes m (bytesPerPack w) _ (packScratch w (codes p)), Nat.mod_eq_of_lt hs.1]
    intro k hk
    rw [Nat.add_assoc, hm _ (flat_lt hp hk),
      getElem?_flatMap_range _ (bytesPerPack w) _ _ _ (fun _ _ => length_packBytes _ _) hp hk]
    rfl
  apply BitVec.eq_of_toNat_eq
  rw [codeOfBuffer, e1, e2, hr, codeAt_toNat, hs.2 j hj]

/-- Byte j of element i of a stored row. -/
theorem getElem?_storeRow (t : Fmt) (d : Nat) : ∀ (vs : List FVal) (a i j : Nat), i < vs.length → j < fmtSize t →
    (storeRow t d a vs)[i * fmtSize t + j]? =
      (storeBytes t d (a + i * fmtSize t) (vs.getD i (.fin false 0)))[j]?
  | [], _, _, _, h, _ => by simp at h
  | v :: vs, a, 0, j, _, hj => by
    rw [storeRow, Nat.zero_mul, Nat.zero_add, List.getElem?_append_left (by simpa using hj)]
    simp
  | v :: vs, a, i + 1, j, h, hj => by
    rw [storeRow, List.getElem?_append_right (by rw [length_storeBytes, Nat.succ_mul]; omega), length_storeBytes,
      show (i + 1) * fmtSize t + j - fmtSize t = i * fmtSize t + j by rw [Nat.succ_mul]; omega,
      getElem?_storeRow t d vs _ i j (by simpa using h) hj,
      show a + fmtSize t + i * fmtSize t = a + (i + 1) * fmtSize t by ring]
    simp

/-- Element i of a stored row reads back as its encoding. -/
theorem Memory.read_storeRow {m : Memory} (t : Fmt) (d a : Nat) (vs : List FVal) (hm : m.wf = true) {i : Nat}
    (hi : i < vs.length) :
    (m.setBytes a (storeRow t d a vs)).read (a + i * fmtSize t) (fmtSize t) =
      encodeFmt t (Config.freeNaN d (a + i * fmtSize t)) (vs.getD i (.fin false 0)) % 256 ^ fmtSize t := by
  apply Memory.read_of_bytes
  intro j hj
  rw [Nat.add_assoc, Memory.getElem?_setBytes _ _ hm (by rw [length_storeRow]; exact flat_lt hi hj),
    getElem?_storeRow t d vs a i j hi hj]
  rfl

/-- The codes of a group, one for each element. -/
theorem getElem?_quantCodes (nm : Numerics) (w : Width) (draw : Nat) (scale bias : FVal) :
    ∀ (vs : List FVal) (index j : Nat), (quantCodes nm w draw scale bias index vs)[j]? =
      (vs[j]?).map (quantCode nm w draw (index + j) scale bias)
  | [], _, _ => by simp [quantCodes]
  | v :: vs, index, 0 => by simp [quantCodes]
  | v :: vs, index, j + 1 => by
    simp [quantCodes, getElem?_quantCodes nm w draw scale bias vs, Nat.add_assoc, Nat.add_comm 1]

end Sys2Proof.Machine
end

