-- ==== Sys2Proof/Laws/State.lean ====
section
/-! SUPPORT. One lemma per field of State for each shared update: what it sets and what it leaves. -/

namespace Sys2Proof.Machine

section Reject

variable (c : ErrCode) (s : State)

@[simp] theorem reject_status : (reject c s).status = rejectedStatus c := rfl
@[simp] theorem reject_params : (reject c s).params = s.params := rfl
@[simp] theorem reject_cmd : (reject c s).cmd = s.cmd := rfl
@[simp] theorem reject_regs : (reject c s).regs = s.regs := rfl
@[simp] theorem reject_running : (reject c s).running = s.running := rfl
@[simp] theorem reject_unobserved : (reject c s).unobserved = s.unobserved := rfl
@[simp] theorem reject_resetAsserted : (reject c s).resetAsserted = s.resetAsserted := rfl
@[simp] theorem reject_mem : (reject c s).mem = s.mem := rfl
@[simp] theorem reject_agenda : (reject c s).agenda = s.agenda := rfl
@[simp] theorem reject_hostData : (reject c s).hostData = s.hostData := rfl
@[simp] theorem reject_draws : (reject c s).draws = s.draws := rfl

end Reject

section Accept

variable (i : Instr) (simd : Bool) (s : State)

@[simp] theorem accept_status : (accept i simd s).status = busyStatus := rfl
@[simp] theorem accept_params : (accept i simd s).params = s.params := rfl
@[simp] theorem accept_cmd : (accept i simd s).cmd = s.cmd := rfl
@[simp] theorem accept_regs : (accept i simd s).regs = s.regs := rfl
@[simp] theorem accept_running :
    (accept i simd s).running = some { instr := i, latched := s.regs, simd := simd, written := [] } := rfl
@[simp] theorem accept_unobserved : (accept i simd s).unobserved = s.unobserved := rfl
@[simp] theorem accept_resetAsserted : (accept i simd s).resetAsserted = s.resetAsserted := rfl
@[simp] theorem accept_mem : (accept i simd s).mem = s.mem := rfl
@[simp] theorem accept_agenda : (accept i simd s).agenda = s.agenda := rfl
@[simp] theorem accept_hostData : (accept i simd s).hostData = s.hostData := rfl
@[simp] theorem accept_draws : (accept i simd s).draws = s.draws := rfl

end Accept

section Launch

variable (i : Instr) (e : Option ErrCode) (simd : Bool) (s : State)

@[simp] theorem launch_some (c : ErrCode) : launch i (some c) simd s = reject c s := rfl
@[simp] theorem launch_none : launch i none simd s = accept i simd s := rfl
@[simp] theorem launch_params : (launch i e simd s).params = s.params := by cases e <;> rfl
@[simp] theorem launch_cmd : (launch i e simd s).cmd = s.cmd := by cases e <;> rfl
@[simp] theorem launch_regs : (launch i e simd s).regs = s.regs := by cases e <;> rfl
@[simp] theorem launch_unobserved : (launch i e simd s).unobserved = s.unobserved := by cases e <;> rfl
@[simp] theorem launch_resetAsserted : (launch i e simd s).resetAsserted = s.resetAsserted := by cases e <;> rfl
@[simp] theorem launch_mem : (launch i e simd s).mem = s.mem := by cases e <;> rfl
@[simp] theorem launch_agenda : (launch i e simd s).agenda = s.agenda := by cases e <;> rfl
@[simp] theorem launch_hostData : (launch i e simd s).hostData = s.hostData := by cases e <;> rfl
@[simp] theorem launch_draws : (launch i e simd s).draws = s.draws := by cases e <;> rfl

end Launch

section Complete

variable (r : Run) (bs : List Block) (s : State)

@[simp] theorem complete_status : (complete r bs s).status = doneStatus r.simd := rfl
@[simp] theorem complete_params : (complete r bs s).params = s.params := rfl
@[simp] theorem complete_cmd : (complete r bs s).cmd = s.cmd := rfl
@[simp] theorem complete_regs : (complete r bs s).regs = s.regs := rfl
@[simp] theorem complete_running : (complete r bs s).running = none := rfl
@[simp] theorem complete_unobserved : (complete r bs s).unobserved = r :: s.unobserved := rfl
@[simp] theorem complete_resetAsserted : (complete r bs s).resetAsserted = s.resetAsserted := rfl
@[simp] theorem complete_mem : (complete r bs s).mem = commit r s.draws bs s.mem := rfl
@[simp] theorem complete_agenda : (complete r bs s).agenda = s.agenda := rfl
@[simp] theorem complete_hostData : (complete r bs s).hostData = s.hostData := rfl
@[simp] theorem complete_draws : (complete r bs s).draws = s.draws + 1 := rfl

end Complete

section PushEvents

variable (es : List Event) (s : State)

@[simp] theorem pushEvents_agenda : (pushEvents es s).agenda = es ++ s.agenda := rfl
@[simp] theorem pushEvents_params : (pushEvents es s).params = s.params := rfl
@[simp] theorem pushEvents_cmd : (pushEvents es s).cmd = s.cmd := rfl
@[simp] theorem pushEvents_status : (pushEvents es s).status = s.status := rfl
@[simp] theorem pushEvents_regs : (pushEvents es s).regs = s.regs := rfl
@[simp] theorem pushEvents_running : (pushEvents es s).running = s.running := rfl
@[simp] theorem pushEvents_unobserved : (pushEvents es s).unobserved = s.unobserved := rfl
@[simp] theorem pushEvents_resetAsserted : (pushEvents es s).resetAsserted = s.resetAsserted := rfl
@[simp] theorem pushEvents_mem : (pushEvents es s).mem = s.mem := rfl
@[simp] theorem pushEvents_hostData : (pushEvents es s).hostData = s.hostData := rfl
@[simp] theorem pushEvents_draws : (pushEvents es s).draws = s.draws := rfl

end PushEvents

section ResetInput

variable (s : State)

@[simp] theorem assertReset_params : (assertReset s).params = s.params := rfl
@[simp] theorem assertReset_cmd : (assertReset s).cmd = 0 := rfl
@[simp] theorem assertReset_status : (assertReset s).status = idleStatus := rfl
@[simp] theorem assertReset_regs : (assertReset s).regs = OperandRegs.reset := rfl
@[simp] theorem assertReset_running : (assertReset s).running = none := rfl
@[simp] theorem assertReset_unobserved : (assertReset s).unobserved = s.unobserved := rfl
@[simp] theorem assertReset_resetAsserted : (assertReset s).resetAsserted = true := rfl
@[simp] theorem assertReset_mem : (assertReset s).mem = s.mem.setBlocks (abandonedBlocks s) := rfl
@[simp] theorem assertReset_agenda : (assertReset s).agenda = s.agenda := rfl
@[simp] theorem assertReset_hostData : (assertReset s).hostData = s.hostData := rfl
@[simp] theorem assertReset_draws : (assertReset s).draws = s.draws + 1 := rfl

@[simp] theorem releaseReset_unobserved : (releaseReset s).unobserved = s.unobserved := rfl
@[simp] theorem releaseReset_resetAsserted : (releaseReset s).resetAsserted = false := rfl
@[simp] theorem releaseReset_params : (releaseReset s).params = s.params := rfl
@[simp] theorem releaseReset_cmd : (releaseReset s).cmd = s.cmd := rfl
@[simp] theorem releaseReset_status : (releaseReset s).status = s.status := rfl
@[simp] theorem releaseReset_regs : (releaseReset s).regs = s.regs := rfl
@[simp] theorem releaseReset_running : (releaseReset s).running = s.running := rfl
@[simp] theorem releaseReset_mem : (releaseReset s).mem = s.mem := rfl
@[simp] theorem releaseReset_agenda : (releaseReset s).agenda = s.agenda := rfl
@[simp] theorem releaseReset_hostData : (releaseReset s).hostData = s.hostData := rfl
@[simp] theorem releaseReset_draws : (releaseReset s).draws = s.draws := rfl

end ResetInput

section HostReads

variable (r : Reg) (s : State)

@[simp] theorem hostReads_hostData : (hostReads r s).hostData = readReg r s := rfl
@[simp] theorem hostReads_params : (hostReads r s).params = s.params := rfl
@[simp] theorem hostReads_cmd : (hostReads r s).cmd = s.cmd := rfl
@[simp] theorem hostReads_status : (hostReads r s).status = s.status := rfl
@[simp] theorem hostReads_regs : (hostReads r s).regs = s.regs := rfl
@[simp] theorem hostReads_running : (hostReads r s).running = s.running := rfl
@[simp] theorem hostReads_resetAsserted : (hostReads r s).resetAsserted = s.resetAsserted := rfl
@[simp] theorem hostReads_mem : (hostReads r s).mem = s.mem := rfl
@[simp] theorem hostReads_agenda : (hostReads r s).agenda = s.agenda := rfl
@[simp] theorem hostReads_draws : (hostReads r s).draws = s.draws := rfl

@[simp] theorem hostReads_unobserved : (hostReads r s).unobserved =
    if r = .status ∧ showsCompletion s.status = true then [] else s.unobserved := rfl

end HostReads

section NoteStores

variable (a n : Nat) (r : Run)

@[simp] theorem noteStores_instr : (noteStores a n r).instr = r.instr := rfl
@[simp] theorem noteStores_latched : (noteStores a n r).latched = r.latched := rfl
@[simp] theorem noteStores_simd : (noteStores a n r).simd = r.simd := rfl
@[simp] theorem noteStores_written : (noteStores a n r).written = storedIn r a n ++ r.written := rfl

end NoteStores

end Sys2Proof.Machine
end

