-- ==== Sys2Proof/Laws/Commands.lean ====
section
/-! SUPPORT. Everything `exec` can do, once for all commands: a launch, an execution, or a dropped write. -/

namespace Sys2Proof.Machine

/-- With no command in flight, `exec` launches. -/
theorem exec_idle {i : Instr} {s : State} (h : s.running = none) :
    exec i s = .next (launch i (commandCheck i s.params s.regs) (commandSimd i s.params.lanes) s) := by
  cases i <;>
    simp [exec, execQuantize, execQmm, execQmmT, execPack, execUnpack, commandStep, h, commandCheck, commandSimd]

/-- With the command in flight, `exec` executes it. -/
theorem exec_running {i : Instr} {s : State} {r : Run} (h : s.running = some r) (hi : r.instr = i) :
    exec i s = finish r (commandBlocks i r s.params s.draws s.mem) s := by
  cases i <;>
    simp [exec, execQuantize, execQmm, execQmmT, execPack, execUnpack, commandStep, h, hi, commandBlocks]

/-- With another command in flight, `exec` changes nothing. -/
theorem exec_other {i : Instr} {s : State} {r : Run} (h : s.running = some r) (hi : r.instr ≠ i) :
    exec i s = .next s := by
  cases i <;> simp [exec, execQuantize, execQmm, execQmmT, execPack, execUnpack, commandStep, h, hi]

/-- The command in flight completes with known outputs. -/
theorem exec_completes {s : State} {r : Run} {bs : List Block} (h : s.running = some r)
    (hb : commandBlocks r.instr r s.params s.draws s.mem = some bs) :
    exec r.instr s = .next (complete r bs s) := by
  rw [exec_running h rfl, hb, finish]

/-- Everything `exec` can answer with a next state. -/
theorem exec_next_cases {i : Instr} {s t : State} (h : exec i s = .next t) :
    (s.running = none ∧ t = launch i (commandCheck i s.params s.regs) (commandSimd i s.params.lanes) s) ∨
    (∃ r bs, s.running = some r ∧ r.instr = i ∧ commandBlocks i r s.params s.draws s.mem = some bs ∧
      t = complete r bs s) ∨
    (∃ r, s.running = some r ∧ r.instr ≠ i ∧ t = s) := by
  cases hr : s.running with
  | none =>
    rw [exec_idle hr, Host.Outcome.next.injEq] at h
    exact .inl ⟨rfl, h.symm⟩
  | some r =>
    by_cases hi : r.instr = i
    · rw [exec_running hr hi] at h
      cases hb : commandBlocks i r s.params s.draws s.mem with
      | none => simp [hb, finish] at h
      | some bs =>
        rw [hb, finish, Host.Outcome.next.injEq] at h
        exact .inr (.inl ⟨r, bs, rfl, hi, hb, h.symm⟩)
    · rw [exec_other hr hi, Host.Outcome.next.injEq] at h
      exact .inr (.inr ⟨r, rfl, hi, h.symm⟩)

/-- Blocks that match the out buffers cover an address exactly when an out buffer has it. -/
theorem covers_of_sameRanges {bs : List Block} {os : List Buffer} (h : sameRanges bs os) (x : Nat) :
    (∃ b ∈ bs, b.covers x = true) ↔ ∃ o ∈ os, o.has x = true := by
  induction bs generalizing os with
  | nil =>
    cases os with
    | nil => simp
    | cons o os => simp [sameRanges] at h
  | cons b bs ih =>
    cases os with
    | nil => simp [sameRanges] at h
    | cons o os =>
      simp only [sameRanges, List.map_cons, List.cons.injEq, Prod.mk.injEq] at h
      have := ih h.2
      simp only [List.mem_cons, exists_eq_or_imp, this]
      simp only [Block.covers, Buffer.has, h.1.1, h.1.2]

end Sys2Proof.Machine
end

