-- ==== Sys2Proof/Laws/Float.lean ====
section
/-! SUPPORT. The default NUMERICS record field by field, and `RN_F` of a real number however it is written as a
quotient. -/

namespace Sys2Proof.Machine

@[simp] theorem ieee_add : Numerics.ieee.add = fAdd := rfl
@[simp] theorem ieee_sub : Numerics.ieee.sub = fSub := rfl
@[simp] theorem ieee_mul : Numerics.ieee.mul = fMul := rfl
@[simp] theorem ieee_div : Numerics.ieee.div = fDiv := rfl
@[simp] theorem ieee_fma : Numerics.ieee.fma = fFma := rfl
@[simp] theorem ieee_cvt : Numerics.ieee.cvt = fCvt := rfl
@[simp] theorem ieee_rint : Numerics.ieee.rint = fRint := rfl
@[simp] theorem ieee_min32 : Numerics.ieee.min32 = min32 := rfl
@[simp] theorem ieee_max32 : Numerics.ieee.max32 = max32 := rfl
@[simp] theorem ieee_toU : Numerics.ieee.toU = toU := rfl
@[simp] theorem ieee_mac : Numerics.ieee.mac = macStep Primitives.ieee := rfl
@[simp] theorem ieee_simdMac : Numerics.ieee.simdMac = simdMacStep Primitives.ieee := rfl
@[simp] theorem ieee_reduce : Numerics.ieee.reduce = reduceTree Primitives.ieee := rfl

theorem oneMag_pos : 0 < oneMag := Nat.two_pow_pos _

@[simp] theorem realOf_fin (neg : Bool) (mag : Nat) : realOf (.fin neg mag) = (signed neg mag : ℚ) / oneMag := by
  rw [realOf]

/-- The default parameters run the default record. -/
theorem numericsOf_ieee {p : Params} (h : p.numerics = .ieee) : numericsOf p = Numerics.ieee := by
  simp [numericsOf, h]

/-- The nearest integer depends on the quotient alone. -/
theorem nearestEven_scale {c : Nat} (hc : 0 < c) (a b : Nat) : nearestEven (c * a) (c * b) = nearestEven a b := by
  have hlt : c * b < 2 * (c * (a % b)) ↔ b < 2 * (a % b) := by
    rw [Nat.mul_left_comm]
    exact Nat.mul_lt_mul_left hc
  have heq : 2 * (c * (a % b)) = c * b ↔ 2 * (a % b) = b := by
    rw [Nat.mul_left_comm]
    exact Nat.mul_right_inj hc.ne'
  simp only [nearestEven, Nat.mul_div_mul_left _ _ hc, Nat.mul_mod_mul_left, hlt, heq]

/-- `RN_F` depends on the real number alone (00_scope.md R14). -/
theorem roundReal_scale (t : Fmt) (neg : Bool) {c : Nat} (hc : 0 < c) (num den : Nat) :
    roundReal t neg (c * num) (c * den) = roundReal t neg num den := by
  have hm : roundMag t (c * num) (c * den) = roundMag t num den := by
    simp only [roundMag]
    rw [mul_assoc c num, Nat.mul_div_mul_left _ _ hc, mul_assoc c den, nearestEven_scale hc]
  simp only [roundReal, hm]

theorem roundReal_zero (t : Fmt) (neg : Bool) (den : Nat) : roundReal t neg 0 den = .fin neg 0 := by
  have hm : roundMag t 0 den = 0 := by simp [roundMag, nearestEven]
  have ho : ¬overflowMag t ≤ 0 := by simp [overflowMag]
  simp [roundReal, hm, ho]

/-- `RN_F` of a rational number, from any way of writing it as a quotient of integers. -/
theorem roundRat_eq (t : Fmt) {i : Int} {den : Nat} (hd : 0 < den) {q : ℚ} (hq : q = (i : ℚ) / den) :
    roundRat t q = roundReal t (decide (i < 0)) i.natAbs den := by
  have hlt : q < 0 ↔ i < 0 := by
    rw [hq, div_lt_iff₀ (Nat.cast_pos.2 hd), zero_mul, Int.cast_lt_zero]
  have hcross : q.num * (den : ℤ) = i * (q.den : ℤ) := by
    have hden : (q.den : ℚ) ≠ 0 := Nat.cast_ne_zero.2 q.den_ne_zero
    have hd' : (den : ℚ) ≠ 0 := Nat.cast_ne_zero.2 hd.ne'
    have h := hq
    rw [← Rat.num_div_den q, div_eq_div_iff hden hd'] at h
    exact_mod_cast h
  have habs : den * q.num.natAbs = q.den * i.natAbs := by
    have h := congrArg Int.natAbs hcross
    simpa only [Int.natAbs_mul, Int.natAbs_natCast, mul_comm] using h
  rw [roundRat, decide_eq_decide.2 hlt, ← roundReal_scale t _ hd q.num.natAbs q.den, habs, mul_comm den,
    roundReal_scale t _ q.den_pos]

end Sys2Proof.Machine
end

