-- ==== Sys2Proof/Laws/PerInstr.lean ====
section
/-! SUPPORT. Statements about every command, one lemma per constructor of Instr. -/

namespace Sys2Proof.Laws

/-- The encoded word of a command selects the row of the opcode map that bears its mnemonic (30_encoding.md R159). -/
def SelectsOwnRow.Statement (i : Instr) : Prop :=
  ∃ r ∈ opcodeMap, r.mnemonic = i.mnemonic ∧ r.selects (encode i) = true

/-- Outside BITS, GSIZE and DTYPE a command word holds OP and TRANS. -/
theorem commandWord_opcode_bits (op bits : BitVec 4) (gsize : BitVec 8) (dtype : BitVec 2) (trans : Bool) :
    commandWord op bits gsize dtype trans &&& 0xFFFFFFFFFFFC000F = commandWord op 0 0 0 trans := by
  apply BitVec.eq_of_getLsbD_eq
  intro j hj
  simp only [commandWord, BitVec.getLsbD_and, BitVec.getLsbD_or, BitVec.getLsbD_shiftLeft, BitVec.getLsbD_setWidth]
  interval_cases j <;> simp

/-- Outside BITS a codec command word holds OP. -/
theorem commandWord_codec_bits (op bits : BitVec 4) :
    commandWord op bits 0 0 false &&& 0xFFFFFFFFFFFFFF0F = commandWord op 0 0 0 false := by
  apply BitVec.eq_of_getLsbD_eq
  intro j hj
  simp only [commandWord, BitVec.getLsbD_and, BitVec.getLsbD_or, BitVec.getLsbD_shiftLeft, BitVec.getLsbD_setWidth]
  interval_cases j <;> simp

theorem SelectsOwnRow.quantize (bits : BitVec 4) (gsize : BitVec 8) (dtype : BitVec 2) :
    SelectsOwnRow.Statement (.quantize bits gsize dtype) := by
  refine ⟨⟨"QUANTIZE", 0x0000000000000001, 0xFFFFFFFFFFFC000F⟩, by simp [opcodeMap], rfl, ?_⟩
  simp only [OpcodeRow.selects, encode, commandWord_opcode_bits, beq_iff_eq]
  decide

theorem SelectsOwnRow.qmm (bits : BitVec 4) (gsize : BitVec 8) (dtype : BitVec 2) :
    SelectsOwnRow.Statement (.qmm bits gsize dtype) := by
  refine ⟨⟨"QMM", 0x0000000000000002, 0xFFFFFFFFFFFC000F⟩, by simp [opcodeMap], rfl, ?_⟩
  simp only [OpcodeRow.selects, encode, commandWord_opcode_bits, beq_iff_eq]
  decide

theorem SelectsOwnRow.qmmT (bits : BitVec 4) (gsize : BitVec 8) (dtype : BitVec 2) :
    SelectsOwnRow.Statement (.qmmT bits gsize dtype) := by
  refine ⟨⟨"QMM.T", 0x0000000000040002, 0xFFFFFFFFFFFC000F⟩, by simp [opcodeMap], rfl, ?_⟩
  simp only [OpcodeRow.selects, encode, commandWord_opcode_bits, beq_iff_eq]
  decide

theorem SelectsOwnRow.pack (bits : BitVec 4) : SelectsOwnRow.Statement (.pack bits) := by
  refine ⟨⟨"PACK", 0x0000000000000003, 0xFFFFFFFFFFFFFF0F⟩, by simp [opcodeMap], rfl, ?_⟩
  simp only [OpcodeRow.selects, encode, commandWord_codec_bits, beq_iff_eq]
  decide

theorem SelectsOwnRow.unpack (bits : BitVec 4) : SelectsOwnRow.Statement (.unpack bits) := by
  refine ⟨⟨"UNPACK", 0x0000000000000004, 0xFFFFFFFFFFFFFF0F⟩, by simp [opcodeMap], rfl, ?_⟩
  simp only [OpcodeRow.selects, encode, commandWord_codec_bits, beq_iff_eq]
  decide

end Sys2Proof.Laws
end

