-- ==== Sys2Proof/Laws/Steps.lean ====
section
/-! SUPPORT. Everything `step` can do, once for all moves. -/

namespace Sys2Proof.Machine

/-- The host address of a register reaches it (10_state.md R51, R64). -/
@[simp] theorem regOfAccess_regAddr (p : Params) (r : Reg) : regOfAccess p (regAddr p r) 8 = .ok r := by
  cases r <;> simp [regOfAccess, regAddr, regOffset, regAt]

/-- An access that reaches a register is 8 bytes wide and at its address, or at a reserved offset. -/
theorem regOfAccess_ok {p : Params} {addr size : Nat} {r : Reg} (h : regOfAccess p addr size = .ok r) :
    size = 8 ∧ (r = .reserved ∨ addr = regAddr p r) := by
  unfold regOfAccess at h
  split at h
  · simp at h
  split at h
  · simp at h
  next h1 h2 =>
  simp only [Except.ok.injEq] at h
  push Not at h1 h2
  refine ⟨h2.1, ?_⟩
  obtain ⟨k, hk⟩ : ∃ k, (addr - p.regBase) / 8 = k := ⟨_, rfl⟩
  rw [hk] at h
  have hlt : k < 32 := by omega
  have ha : addr = p.regBase + 8 * k := by omega
  interval_cases k <;> simp [regAt] at h <;> subst h <;> simp [regAddr, regOffset, ha]

/-- A step is the engine's turn on an empty agenda, or the first move of the agenda. -/
theorem step_cases {s t : State} (h : step s = .next t) :
    (s.agenda = [] ∧ engineTurn s = .next t) ∨
    ∃ e rest, s.agenda = e :: rest ∧ eventStep e { s with agenda := rest } = .next t := by
  unfold step at h
  split at h
  · exact .inl ⟨‹_›, h⟩
  · exact .inr ⟨_, _, ‹_›, h⟩

/-- The state differs from another only in the model's own fields, the unobserved commands staying unless the host has
read STATUS. -/
def quietOf (s t : State) : Prop := ∃ agenda hostData draws unobserved,
  (unobserved = s.unobserved ∨ unobserved = [] ∧ showsCompletion s.status = true) ∧
  t = { s with agenda, hostData, draws, unobserved }

/-- A move that leaves the unobserved commands alone and nothing but the model's own fields changed is quiet. -/
theorem quietOf_mk (s : State) (agenda : List Event) (hostData : Word) (draws : Nat) :
    quietOf s { s with agenda, hostData, draws } := ⟨_, _, _, _, .inl rfl, rfl⟩

theorem hostReads_quiet (r : Reg) (s : State) (agenda : List Event) :
    quietOf s { hostReads r s with agenda := agenda } := by
  refine ⟨_, _, _, _, ?_, rfl⟩
  simp only [hostReads_unobserved]
  split
  · next h => exact .inr ⟨rfl, h.2⟩
  · exact .inl rfl

theorem hostRegWrite_cases {addr size : Nat} {v : Word} {s t : State} (h : hostRegWrite addr size v s = .next t) :
    t = s ∨
    (takesWrites s ∧ Event.regWrite addr size v = cmdWrite s.params v ∧ writeCmd v s = .next t) ∨
    ∃ r, takesWrites s ∧ r ≠ .cmd ∧ Event.regWrite addr size v = wr s.params r v ∧
      t = { s with regs := writeOperandReg r v s.regs } := by
  unfold hostRegWrite at h
  split at h
  · simp at h
  next r hr =>
  split at h
  · exact .inl (by simpa using h.symm)
  next hb =>
  simp only [Bool.or_eq_true, not_or, Bool.not_eq_true] at hb
  have ht : takesWrites s := ⟨hb.2, hb.1⟩
  obtain ⟨rfl, hs⟩ := regOfAccess_ok hr
  split at h
  · refine .inr (.inl ⟨ht, ?_, h⟩)
    rcases hs with hx | rfl
    · cases hx
    · rfl
  · next hne =>
    simp only [Host.Outcome.next.injEq] at h
    rcases hs with rfl | rfl
    · exact .inl (by simpa [writeOperandReg] using h.symm)
    · exact .inr (.inr ⟨r, ht, hne, rfl, h.symm⟩)

theorem gatherNext_quiet {g : Gather} {i : Nat} {s t : State} (h : gatherNext g i s = .next t) : quietOf s t := by
  unfold gatherNext at h
  repeat' split at h
  all_goals cases h
  all_goals exact quietOf_mk s _ _ _

theorem batchedNext_quiet (b : Batched) (i : Nat) (s : State) : quietOf s (batchedNext b i s) := by
  unfold batchedNext
  repeat' split
  all_goals exact quietOf_mk s _ _ _

theorem pollOnce_quiet {s t : State} (h : pollOnce s = .next t) : quietOf s t := by
  unfold pollOnce at h
  repeat' split at h
  all_goals cases h
  all_goals exact hostReads_quiet .status s _

theorem hostRegRead_quiet {addr size : Nat} {s t : State} (h : hostRegRead addr size s = .next t) : quietOf s t := by
  unfold hostRegRead at h
  repeat' split at h
  all_goals cases h
  exact hostReads_quiet _ s _

theorem hostMemRead_quiet {size : AccessSize} {a : Nat} {s t : State} (h : hostMemRead size a s = .next t) :
    quietOf s t := by
  unfold hostMemRead at h
  split at h
  all_goals cases h
  exact quietOf_mk s _ _ _

/-- Everything one move can do: nothing outside the model's own fields, a CMD write, an operand register write, a host
store, the engine's turn, an edge of reset. -/
theorem eventStep_cases {e : Event} {s t : State} (h : eventStep e s = .next t) :
    quietOf s t ∨
    (∃ v, e = cmdWrite s.params v ∧ takesWrites s ∧ writeCmd v s = .next t) ∨
    (∃ r v, e = wr s.params r v ∧ r ≠ .cmd ∧ takesWrites s ∧ t = { s with regs := writeOperandReg r v s.regs }) ∨
    (∃ size a v, e = .memWrite size a v ∧ hostMemWrite size a v s = .next t) ∨
    (e = .engineTurn ∧ engineTurn s = .next t) ∨
    (e = .resetAssert ∧ t = assertReset s) ∨
    (e = .resetRelease ∧ t = releaseReset s) := by
  cases e with
  | regWrite addr size v =>
    rcases hostRegWrite_cases h with rfl | ⟨ht, he, hw⟩ | ⟨r, ht, hr, he, rfl⟩
    · exact .inl (quietOf_mk t _ _ _)
    · exact .inr (.inl ⟨v, he, ht, hw⟩)
    · exact .inr (.inr (.inl ⟨r, v, he, hr, ht, rfl⟩))
  | regRead addr size => exact .inl (hostRegRead_quiet h)
  | memWrite size a v => exact .inr (.inr (.inr (.inl ⟨_, _, _, rfl, h⟩)))
  | memRead size a => exact .inl (hostMemRead_quiet h)
  | poll => exact .inl (pollOnce_quiet h)
  | engineTurn => exact .inr (.inr (.inr (.inr (.inl ⟨rfl, h⟩))))
  | resetAssert => cases h; exact .inr (.inr (.inr (.inr (.inr (.inl ⟨rfl, rfl⟩)))))
  | resetRelease => cases h; exact .inr (.inr (.inr (.inr (.inr (.inr ⟨rfl, rfl⟩)))))
  | batched b => cases h; exact .inl (quietOf_mk s _ _ _)
  | batchedAt b i => cases h; exact .inl (batchedNext_quiet b i s)
  | gather g => cases h; exact .inl (quietOf_mk s _ _ _)
  | gatherAt g i => exact .inl (gatherNext_quiet h)

/-- The STATUS values that show completion are the two of a completed command (10_state.md R58). -/
theorem showsCompletion_of_legal {w : Word} (h : legalStatus w = true) (hc : showsCompletion w = true) :
    w = doneStatus false ∨ w = doneStatus true := by
  simp only [legalStatus, Bool.or_eq_true, beq_iff_eq, List.any_eq_true] at h
  rcases h with (((rfl | rfl) | rfl) | rfl) | ⟨c, -, rfl⟩
  · exact absurd hc (by decide)
  · exact absurd hc (by decide)
  · exact .inl rfl
  · exact .inr rfl
  · exact absurd hc (by cases c <;> decide)

/-- What the values of STATUS say (10_state.md R56, R58). -/
theorem doneStatus_fields : ∀ simd, legalStatus (doneStatus simd) = true ∧ statusBusy (doneStatus simd) = false ∧
    statusDone (doneStatus simd) = true ∧ statusErr (doneStatus simd) = false ∧
    statusSimd (doneStatus simd) = simd ∧ doneStatus simd ≠ idleStatus := by decide

theorem busyStatus_fields : legalStatus busyStatus = true ∧ statusBusy busyStatus = true ∧
    statusDone busyStatus = false ∧ statusErr busyStatus = false ∧ statusSimd busyStatus = false ∧
    busyStatus ≠ idleStatus := by decide

theorem idleStatus_fields : legalStatus idleStatus = true ∧ statusBusy idleStatus = false ∧
    statusDone idleStatus = false ∧ statusErr idleStatus = false ∧ statusSimd idleStatus = false := by decide

theorem rejectedStatus_fields (c : ErrCode) : (c ≠ .simdUnsupported → legalStatus (rejectedStatus c) = true) ∧
    statusBusy (rejectedStatus c) = false ∧ statusDone (rejectedStatus c) = true ∧
    statusErr (rejectedStatus c) = true ∧ statusSimd (rejectedStatus c) = false ∧ rejectedStatus c ≠ idleStatus := by
  cases c <;> decide

end Sys2Proof.Machine
end

