-- ==== Sys2Proof/Tests/Slice0.lean ====
section
/-! SUPPORT. Tests of the model and witnesses of the statements' hypotheses. Every expected result is taken from
95_test_vectors.md (its vector is named) or written out from the rule named. -/

namespace Sys2Proof.Machine.Tests

-- One theorem after another: elaborated in parallel, the tests wait for each other on too many threads.
set_option Elab.async false

/-! ### Ill-formed commands are refused by WellFormed -/

theorem test_wellFormed_refuses_bits : Instr.wellFormed (.quantize 7 32 0) = false ∧
    Instr.wellFormed (.qmm 0 32 0) = false ∧ Instr.wellFormed (.qmmT 1 32 0) = false ∧
    Instr.wellFormed (.pack 7) = false ∧ Instr.wellFormed (.unpack 15) = false := by decide

theorem test_wellFormed_refuses_gsize : Instr.wellFormed (.quantize 4 100 0) = false ∧
    Instr.wellFormed (.qmm 4 0 0) = false ∧ Instr.wellFormed (.qmmT 4 255 0) = false := by decide

theorem test_wellFormed_refuses_dtype : Instr.wellFormed (.quantize 4 32 3) = false ∧
    Instr.wellFormed (.qmm 4 32 3) = false ∧ Instr.wellFormed (.qmmT 4 32 3) = false := by decide

theorem test_wellFormed_accepts : Instr.wellFormed (.quantize 2 32 0) = true ∧
    Instr.wellFormed (.qmm 8 128 2) = true ∧ Instr.wellFormed (.qmmT 5 64 1) = true ∧
    Instr.wellFormed (.pack 3) = true ∧ Instr.wellFormed (.unpack 6) = true := by decide

/-! ### Decoding words written out bit by bit (30_encoding.md R150 to R155): reserved, TRANS, DTYPE, GSIZE, BITS, OP -/

/-- QUANTIZE.b4.g128.f32, 0x8041. -/
theorem test_decode_quantize :
    decode ((0b000000000000000000000000000000000000000000000 : BitVec 45) ++ (0b0 : BitVec 1) ++ (0b00 : BitVec 2) ++
      (0b10000000 : BitVec 8) ++ (0b0100 : BitVec 4) ++ (0b0001 : BitVec 4)) = .command (.quantize 4 128 0) := by decide

/-- QMM.b8.g32.f16: DTYPE 1. -/
theorem test_decode_qmm :
    decode ((0b000000000000000000000000000000000000000000000 : BitVec 45) ++ (0b0 : BitVec 1) ++ (0b01 : BitVec 2) ++
      (0b00100000 : BitVec 8) ++ (0b1000 : BitVec 4) ++ (0b0010 : BitVec 4)) = .command (.qmm 8 32 1) := by decide

/-- QMM.T.b2.g32.bf16, 0x62022. -/
theorem test_decode_qmmT :
    decode ((0b000000000000000000000000000000000000000000000 : BitVec 45) ++ (0b1 : BitVec 1) ++ (0b10 : BitVec 2) ++
      (0b00100000 : BitVec 8) ++ (0b0010 : BitVec 4) ++ (0b0010 : BitVec 4)) = .command (.qmmT 2 32 2) := by decide

/-- PACK.b3, 0x33. -/
theorem test_decode_pack :
    decode ((0b000000000000000000000000000000000000000000000 : BitVec 45) ++ (0b0 : BitVec 1) ++ (0b00 : BitVec 2) ++
      (0b00000000 : BitVec 8) ++ (0b0011 : BitVec 4) ++ (0b0011 : BitVec 4)) = .command (.pack 3) := by decide

/-- UNPACK.b5, 0x54. -/
theorem test_decode_unpack :
    decode ((0b000000000000000000000000000000000000000000000 : BitVec 45) ++ (0b0 : BitVec 1) ++ (0b00 : BitVec 2) ++
      (0b00000000 : BitVec 8) ++ (0b0101 : BitVec 4) ++ (0b0100 : BitVec 4)) = .command (.unpack 5) := by decide

/-- V-ENC-1, the illegal words and the words with unsupported fields. -/
theorem test_decode_illegal : decode 0x0 = .illegal .reservedOp ∧ decode 0x2045 = .illegal .reservedOp ∧
    decode 0x100002042 = .illegal .reservedHighBits ∧ decode 0x80000 = .illegal .reservedHighBits ∧
    decode 0x42041 = .illegal .transReserved ∧ decode 0x2033 = .illegal .codecFieldsReserved ∧
    decode 0x10034 = .illegal .codecFieldsReserved := by decide

theorem test_decode_unsupported_fields : decode 0x2072 = .command (.qmm 7 32 0) ∧
    decode 0x6442 = .command (.qmm 4 100 0) ∧ decode 0x32042 = .command (.qmm 4 32 3) := by decide

theorem test_encode_words : encode (.quantize 4 128 0) = 0x8041 ∧ encode (.qmm 8 32 0) = 0x2082 ∧
    encode (.qmmT 2 32 2) = 0x62022 ∧ encode (.pack 3) = 0x33 ∧ encode (.unpack 5) = 0x54 := by decide

/-- The host's question about a row answers the row's command. -/
theorem test_decodeTableWord : decodeTableWord 64 0x42042 = some (.qmmT 4 32 0) ∧ decodeTableWord 64 0x5 = none := by
  decide

/-- The step after `withFetchWord` launches the word as the first command after reset: V-ST-4's word is rejected. -/
theorem test_withFetchWord_runs : ∃ t, step (State.reset.withFetchWord 64 0x2072) = .next t ∧ t.cmd = 0x2072 ∧
    t.status = 0x0206 := ⟨_, rfl, by decide, by decide⟩

/-! ### States -/

/-- The state in which the command `i`, written as the word `w`, is in flight with the registers `r`. -/
def flying (p : Params) (w : Word) (i : Instr) (r : OperandRegs) (m : Memory) : State :=
  { State.resetWith p with
    cmd := w
    status := busyStatus
    regs := r
    running := some { instr := i, latched := r, simd := commandSimd i p.lanes, written := [] }
    mem := m }

/-- The record of that command. -/
def flyingRun (p : Params) (i : Instr) (r : OperandRegs) : Run :=
  { instr := i, latched := r, simd := commandSimd i p.lanes, written := [] }

theorem flying_inv {p : Params} {w : Word} {i : Instr} {r : OperandRegs} {m : Memory} (hp : paramsOk p = true)
    (hw : decode w = .command i) (hc : commandCheck i p r = none) (hm : m.wf = true)
    (hb : m.below p.memSize = true) : (flying p w i r m).Inv where
  params := hp
  memWf := hm
  memBelow := hb
  status := busyStatus_fields.1
  busy := busyStatus_fields.2.1
  run := by
    intro r' h
    simp only [flying, Option.some.injEq] at h
    subst h
    exact ⟨hw, rfl, hc, rfl, by simp⟩
  unobserved := by simp [flying, State.resetWith]
  idle := fun h => absurd h busyStatus_fields.2.2.2.2.2
  simd := fun h => absurd (busyStatus_fields.2.2.2.2.1.symm.trans h) (by simp)
  reset := by simp [flying, State.resetWith]

theorem flying_inFlight (p : Params) (w : Word) (i : Instr) (r : OperandRegs) (m : Memory) :
    inFlight (flying p w i r m) (flyingRun p i r) i := ⟨rfl, rfl, rfl⟩

/-- An idle engine after reset, with a memory and an agenda. -/
def idle (m : Memory) (agenda : List Event) : State := { State.reset with mem := m, agenda := agenda }

theorem idle_inv {m : Memory} {agenda : List Event} (hm : m.wf = true) (hb : m.below 0x10000 = true) :
    (idle m agenda).Inv where
  params := (by decide : paramsOk defaultParams = true)
  memWf := hm
  memBelow := hb
  status := idleStatus_fields.1
  busy := idleStatus_fields.2.1
  run := by simp [idle, State.reset, State.resetWith]
  unobserved := by simp [idle, State.reset, State.resetWith]
  idle := fun _ => rfl
  simd := fun h => absurd (idleStatus_fields.2.2.2.2.symm.trans h) (by simp)
  reset := by simp [idle, State.reset, State.resetWith]

theorem idle_takesWrites (m : Memory) (agenda : List Event) : takesWrites (idle m agenda) :=
  ⟨idleStatus_fields.2.1, rfl⟩

/-- The registers of the codec and quantizer tests: R = 1, C = `cols`. -/
def matrixRegs (cols : Dim) : OperandRegs :=
  { OperandRegs.reset with
    rows := 1, cols := cols, xAddr := 0x1000, wAddr := 0x2000, sAddr := 0x3000, bAddr := 0x3100, oAddr := 0x4000 }

/-- The registers of the matrix product tests. -/
def productRegs (m n k : Dim) : OperandRegs :=
  { OperandRegs.reset with
    dimM := m, dimN := n, dimK := k, xAddr := 0x1000, wAddr := 0x2000, sAddr := 0x3000, bAddr := 0x3100,
    oAddr := 0x4000 }

/-- What a next state must satisfy. -/
def nextHas (o : Result) (p : State → Bool) : Bool :=
  match o with
  | .next t => p t
  | .fault _ => false
  | .refused _ => false

/-- The `n` bytes from `a` on, as numbers. -/
def bytesAt (m : Memory) (a n : Nat) : List Nat := (List.range n).map fun j => (m.get (a + j)).toNat

/-! ### One step of each command -/

def codes3 : Memory := Memory.setBytes [] 0x1000 [0, 1, 2, 3, 4, 5, 6, 7]

/-- V-COD-3: codes 0 to 7 in 3 bits pack to 88 C6 FA. -/
theorem test_pack3 : nextHas (exec (.pack 3) (flying defaultParams 0x33 (.pack 3) (matrixRegs 8) codes3))
    (fun t => bytesAt t.mem 0x2000 3 == [0x88, 0xC6, 0xFA] && t.status == 0x2) = true := by decide +kernel

/-- V-COD-20: PACK.b3 masks the code byte 09 to 1. -/
theorem test_pack_masks :
    nextHas (exec (.pack 3) (flying defaultParams 0x33 (.pack 3) (matrixRegs 8) (Memory.setBytes [] 0x1000 [9])))
    (fun t => bytesAt t.mem 0x2000 3 == [1, 0, 0]) = true := by decide +kernel

/-- V-COD-19: bytes 01 02 03 in 3 bits unpack to 1,0,0,1,0,6,0,0. -/
theorem test_unpack3 :
    nextHas (exec (.unpack 3) (flying defaultParams 0x34 (.unpack 3) (matrixRegs 8)
      (Memory.setBytes [] 0x2000 [1, 2, 3])))
    (fun t => bytesAt t.mem 0x4000 8 == [1, 0, 0, 1, 0, 6, 0, 0] && t.status == 0x2) = true := by decide +kernel

/-- V-COD-9: bytes 01 23 45 67 89 in 5 bits unpack to 1,24,8,10,20,19,5,17. -/
theorem test_unpack5 :
    nextHas (exec (.unpack 5) (flying defaultParams 0x54 (.unpack 5) (matrixRegs 8)
      (Memory.setBytes [] 0x2000 [0x01, 0x23, 0x45, 0x67, 0x89])))
    (fun t => bytesAt t.mem 0x4000 8 == [1, 24, 8, 10, 20, 19, 5, 17]) = true := by decide +kernel

/-- V-Q-3's scale and bias: a constant group of ones has bits 0xB3D6BF95 and 0x3F800000. -/
theorem test_quantize_constant_group :
    groupParams Numerics.ieee .w4 (List.replicate 32 (fOfNat 1)) =
      (decodeFmt .f32 0xB3D6BF95, decodeFmt .f32 0x3F800000) := by
  decide +kernel

/-- The alignment check applies to an output of length 0 (60_exceptions.md R405): BAD_ALIGN. -/
theorem test_qmm_misaligned_empty :
    nextHas (exec (.qmm 4 32 0) { State.reset with regs := { productRegs 0 32 0 with oAddr := 0x4001 } })
    (fun t => t.status == 0x0606) = true := by decide +kernel

/-- Float primitives on hand-computed values: 1/3 rounds to 0x3EAAAAAB, 65520 overflows f16, 2.5 rounds to 2. -/
theorem test_rounding :
    encodeFmt .f32 0 (fDiv .f32 (fOfNat 1) (fOfNat 3)) = 0x3EAAAAAB ∧ fCvt .f16 (fOfNat 65520) = .inf false ∧
    encodeFmt .f16 0 (fCvt .f16 (fOfNat 65519)) = 0x7BFF ∧ fRint (fDiv .f32 (fOfNat 5) (fOfNat 2)) = fOfNat 2 := by
  decide +kernel

/-! ### Witnesses: states and operands that meet the hypotheses of the statements -/

/-- An idle engine, the agenda its only content. -/
theorem idle_ok (agenda : List Event) : (idle [] agenda).Inv ∧ takesWrites (idle [] agenda) :=
  ⟨idle_inv rfl rfl, idle_takesWrites _ _⟩

theorem inv_withAgenda {s : State} (h : s.Inv) (a : List Event) : State.Inv { s with agenda := a } where
  params := h.params
  memWf := h.memWf
  memBelow := h.memBelow
  status := h.status
  busy := h.busy
  run := fun r hr => ⟨(h.run r hr).word, (h.run r hr).latched, (h.run r hr).valid, (h.run r hr).simd,
    (h.run r hr).written⟩
  unobserved := fun r hr => ⟨(h.unobserved r hr).valid, (h.unobserved r hr).written⟩
  idle := h.idle
  simd := h.simd
  reset := h.reset

/-- A command in flight executes to some next state. -/
theorem flying_completes {p : Params} (w : Word) {i : Instr} {r : OperandRegs} (m : Memory)
    (hc : commandCheck i p r = none) : ∃ t, exec i (flying p w i r m) = .next t := by
  obtain ⟨bs, hb, -⟩ := commandBlocks_ranges (r := flyingRun p i r) p 0 m hc
  exact ⟨_, exec_completes (s := flying p w i r m) (r := flyingRun p i r) rfl hb⟩

/-- PACK.b3 of the codes 0 to 7 in flight (V-COD-3). -/
def packing : State := flying defaultParams 0x33 (.pack 3) (matrixRegs 8) codes3

def packingRun : Run := flyingRun defaultParams (.pack 3) (matrixRegs 8)

theorem packing_inv : packing.Inv :=
  flying_inv (by decide) (by decide) (by decide +kernel) (by decide +kernel) (by decide +kernel)

theorem packing_inFlight : inFlight packing packingRun (.pack 3) := flying_inFlight _ _ _ _ _

theorem packing_completes : ∃ t, exec (.pack 3) packing = .next t := flying_completes _ _ (by decide +kernel)

theorem witness_stepRunsTheDecodedCommand :
    (takesWrites (idle [] [cmdWrite defaultParams 0x33]) ∧
      (idle [] [cmdWrite defaultParams 0x33]).agenda = [cmdWrite State.reset.params 0x33] ∧
      decode 0x33 = .command (.pack 3)) ∧
    (packing.running = some packingRun ∧ packing.agenda = []) ∧
    (State.running { packing with agenda := [.engineTurn] } = some packingRun) :=
  ⟨⟨(idle_ok _).2, rfl, by decide⟩, ⟨rfl, rfl⟩, rfl⟩

theorem witness_launchRejectsOrLatches : State.reset.running = none ∧
    commandCheck (.pack 7) defaultParams OperandRegs.reset = some .badBits ∧
    commandCheck (.pack 3) defaultParams OperandRegs.reset = none := ⟨rfl, by decide, by decide⟩

theorem witness_rejectedWrite :
    takesWrites (idle [] [cmdWrite defaultParams 0x2072]) ∧ (idle [] [cmdWrite defaultParams 0x2072]).running = none ∧
    launchError (idle [] [cmdWrite defaultParams 0x2072]) 0x2072 .badBits ∧
    launchError (idle [] [cmdWrite defaultParams 0x0]) 0x0 .illegalCmd :=
  ⟨(idle_ok _).2, rfl, .inr ⟨.qmm 7 32 0, by decide, by decide⟩, .inl ⟨.reservedOp, by decide, rfl⟩⟩

theorem witness_illegalWord : takesWrites (idle [] [cmdWrite defaultParams 0x80000]) ∧
    (idle [] [cmdWrite defaultParams 0x80000]).agenda = [cmdWrite State.reset.params 0x80000] ∧
    (∃ e, decode 0x80000 = .illegal e) := ⟨(idle_ok _).2, rfl, .reservedHighBits, by decide⟩

/-- R = 3, C = 64 in 5 bits; N and K are 0 here, a multiple of everything. -/
theorem witness_buffers : floatFields 5 64 1 = some ⟨.w5, .g64, .f16⟩ ∧
    ({ matrixRegs 64 with rows := 3 } : OperandRegs).cols.toNat % groupElems .g64 = 0 ∧
    (matrixRegs 64).dimN.toNat % groupElems .g64 = 0 ∧ (productRegs 1 0 128).dimK.toNat % groupElems .g64 = 0 ∧
    widthOfField 3 = some .w3 ∧ (matrixRegs 8).cols.toNat % packFactor .w3 = 0 := by decide

theorem witness_encodeOfDecode : decode 0x42042 = .command (.qmmT 4 32 0) := by decide

theorem witness_capWrite : State.reset.params.lanes = .lanes8 ∧
    (idle [] [wr defaultParams .cap 5]).agenda = wr (idle [] []).params .cap 5 :: [] := ⟨rfl, rfl⟩

/-- A step from a state of the invariant: the engine's turn of PACK. -/
theorem witness_step : ∃ t, packing.Inv ∧ step packing = .next t := by
  obtain ⟨t, ht⟩ := packing_completes
  exact ⟨t, packing_inv, ht⟩

theorem witness_registerWriteThenRead :
    (takesWrites (idle [] [wr defaultParams .dimM 5, rd defaultParams .status]) ∧ Reg.dimM ≠ .cmd ∧
      (idle [] [wr defaultParams .dimM 5, rd defaultParams .status]).agenda =
        wr State.reset.params .dimM 5 :: rd State.reset.params .status :: []) ∧
    (takesWrites (idle [] [.regWrite 0x68 8 5]) ∧
      (idle [] [.regWrite 0x68 8 5]).agenda = [.regWrite (State.reset.params.regBase + 8 * 13) 8 5]) ∧
    (takesWrites (idle [] [.regRead 0xF8 8]) ∧
      (idle [] [.regRead 0xF8 8]).agenda = [.regRead (State.reset.params.regBase + 8 * 31) 8]) :=
  ⟨⟨(idle_ok _).2, by decide, rfl⟩, ⟨(idle_ok _).2, rfl⟩, ⟨(idle_ok _).2, rfl⟩⟩

theorem witness_busyDropsRegisterWrites :
    State.Inv { packing with agenda := [wr defaultParams .dimM 5] } ∧ statusBusy packing.status = true ∧
    State.Inv { packing with agenda := [rd defaultParams .dimM] } :=
  ⟨inv_withAgenda packing_inv _, busyStatus_fields.2.1, inv_withAgenda packing_inv _⟩

theorem witness_cmdWrite :
    (idle [] [cmdWrite defaultParams 0x42042]).Inv ∧ takesWrites (idle [] [cmdWrite defaultParams 0x42042]) ∧
    (idle [] [cmdWrite defaultParams 0x42042]).agenda = [cmdWrite State.reset.params 0x42042] ∧
    ∃ t, step (idle [] [cmdWrite defaultParams 0x42042]) = .next t := ⟨(idle_ok _).1, (idle_ok _).2, rfl, ⟨_, rfl⟩⟩

theorem witness_cmdRead : (idle [] [rd defaultParams .cmd]).resetAsserted = false ∧
    (idle [] [rd defaultParams .cmd]).agenda = [rd State.reset.params .cmd] := ⟨rfl, rfl⟩

/-- A CMD write that reports an error, one that reports none, one while BUSY. -/
theorem witness_statusTransitions :
    launchError (idle [] [cmdWrite defaultParams 0x2072]) 0x2072 .badBits ∧
    (∀ c, ¬launchError (idle [] [cmdWrite defaultParams 0x33]) 0x33 c) ∧
    statusBusy (State.status { packing with agenda := [cmdWrite defaultParams 0x33] }) = true := by
  refine ⟨.inr ⟨.qmm 7 32 0, by decide, by decide⟩, ?_, busyStatus_fields.2.1⟩
  have hd : decode 0x33 = .command (.pack 3) := by decide
  have hc : commandCheck (.pack 3) defaultParams OperandRegs.reset = none := by decide
  rintro c (⟨e, he, -⟩ | ⟨i, hi, h⟩)
  · rw [hd] at he; cases he
  · rw [hd] at hi
    cases hi
    exact absurd (hc.symm.trans h) (by simp)

theorem witness_exec_next : ∃ t, exec (.pack 3) State.reset = .next t := ⟨_, rfl⟩

theorem witness_oddAccess :
    (State.reset.params.regBase ≤ 0 ∧ 0 < State.reset.params.regBase + 256 ∧ (4 ≠ 8 ∨ 0 % 8 ≠ 0)) ∧
    (State.reset.params.regBase ≤ 255 ∧ 255 < State.reset.params.regBase + 256 ∧
      (8 ≠ 8 ∨ (255 - State.reset.params.regBase) % 8 ≠ 0)) ∧
    (idle [] [.regWrite 255 8 1]).agenda = [.regWrite 255 8 1] ∧ (idle [] [.regRead 0 4]).agenda = [.regRead 0 4] :=
  ⟨by decide, by decide, rfl, rfl⟩

theorem witness_reset :
    State.Inv { packing with agenda := [.resetAssert] } ∧
    (∃ b ∈ outBuffers packingRun.instr packingRun.latched, b.has 0x2002 = true) ∧
    State.resetAsserted { State.reset with resetAsserted := true, agenda := [wr defaultParams .dimM 1] } = true ∧
    (idle [] [.resetRelease]).agenda = [.resetRelease] :=
  ⟨inv_withAgenda packing_inv _, by decide +kernel, rfl, rfl⟩

theorem witness_poll :
    (State.Inv { packing with agenda := [.poll] } ∧ statusBusy packing.status = true) ∧
    ((idle [] [.poll]).status = 0 ∧ (idle [] [.poll]).resetAsserted = false ∧ (idle [] [.poll]).agenda = [.poll]) ∧
    (statusDone 0x0206 = true ∧ statusBusy 0x0206 = false ∧ statusErr 0x0206 = true) ∧
    (statusDone 0xA = true ∧ statusBusy 0xA = false ∧ statusErr 0xA = false) :=
  ⟨⟨inv_withAgenda packing_inv _, busyStatus_fields.2.1⟩, ⟨rfl, rfl, rfl⟩, by decide, by decide⟩

/-- Memory after PACK.b3 of the codes 0 to 7 (V-COD-3). -/
def packed3 : Memory := Memory.setBytes codes3 0x2000 [0x88, 0xC6, 0xFA]

theorem nextHas_eq {o : Result} {t : State} (h : nextHas o (· == t) = true) : o = .next t := by
  cases o <;> simp_all [nextHas]

/-- PACK.b3 of the codes 0 to 7 complete, its DONE not read by the host. -/
def finished : State := completedWith packing packingRun false packed3

theorem finished_of_packing : exec (.pack 3) packing = .next finished := nextHas_eq (by decide +kernel)

theorem finished_inv : finished.Inv where
  params := packing_inv.params
  memWf := (by decide +kernel : packed3.wf = true)
  memBelow := (by decide +kernel : packed3.below 0x10000 = true)
  status := (doneStatus_fields false).1
  busy := (doneStatus_fields false).2.1
  run := by simp [finished, completedWith]
  unobserved := by
    intro r hr
    have : r = packingRun := List.mem_singleton.1 hr
    subst this
    exact ⟨by decide +kernel, by simp [packingRun, flyingRun]⟩
  idle := fun h => absurd h (doneStatus_fields false).2.2.2.2.2
  simd := fun h => absurd ((doneStatus_fields false).2.2.2.2.1.symm.trans h) (by simp)
  reset := by simp [finished, completedWith, packing, flying, State.resetWith]

/-- 20_memory.md R120: after completion a host read of an out byte still gives a free value, until the host reads
STATUS; then it gives the stored byte, 0x88 of V-COD-3. -/
theorem test_outputs_visible_after_status_read :
    (∃ t, step { finished with agenda := [.memRead .b1 0x2000] } = .next t ∧
      t.hostData.toNat % 256 = (Config.freeByte finished.draws 0x2000).toNat) ∧
    ∃ t u, step { finished with agenda := [rd defaultParams .status, .memRead .b1 0x2000] } = .next t ∧
      step t = .next u ∧ u.hostData = 0x88 := by
  refine ⟨⟨_, rfl, ?_⟩, _, _, rfl, rfl, by decide +kernel⟩
  have h : readsUnspecified { finished with agenda := [] } 0x2000 = true := by decide +kernel
  have hd : ∀ s : State, readsUnspecified s 0x2000 = true →
      (BitVec.ofNat 64 (hostRead s 0x2000 1)).toNat % 256 = (Config.freeByte s.draws 0x2000).toNat := by
    intro s hs
    have := (Config.freeByte s.draws 0x2000).isLt
    simp only [hostRead, hostByte, hs, if_true, BitVec.toNat_ofNat]
    omega
  exact hd _ h

/-- While a command runs: the last out byte, and the first in byte, of PACK, and the last byte of data memory; after it,
before the host's STATUS read, the same. -/
theorem witness_hostReadsWhileBusy :
    packing.running = some packingRun ∧ packingRun ∈ openRuns packing ∧ packingRun ∈ openRuns finished ∧
    0x2002 + accessBytes .b1 ≤ packing.params.memSize ∧ 0xFFFF + accessBytes .b1 ≤ packing.params.memSize ∧
    (∃ b ∈ outBuffers packingRun.instr packingRun.latched, b.has (0x2002 + 0) = true) ∧
    (∀ r ∈ openRuns finished, (∀ b ∈ outBuffers r.instr r.latched, b.has (0x1000 + 0) = false) ∧
      0x1000 + 0 ∉ r.written) ∧
    (State.reset.running = none ∧ commandCheck (.pack 3) defaultParams OperandRegs.reset = none ∧
      ∃ t, exec (.pack 3) State.reset = .next t) ∧
    (∃ t, step { finished with agenda := [rd defaultParams .status] } = .next t) ∧
    finished.resetAsserted = false :=
  ⟨rfl, by decide, by decide, by decide, by decide, by decide +kernel, by decide +kernel,
    ⟨rfl, by decide, _, rfl⟩, ⟨_, rfl⟩, rfl⟩

/-- A store to the last in byte of PACK, in flight and complete. -/
theorem witness_hostWritesWhileBusy :
    packing.Inv ∧ packing.running = some packingRun ∧ (∃ u, hostMemWrite .b1 0x1007 9 packing = .next u) ∧
    finished.Inv ∧ packingRun ∈ finished.unobserved ∧ (∃ u, hostMemWrite .b1 0x1007 9 finished = .next u) ∧
    ∃ j < accessBytes .b1, (commandBuffers packingRun.instr packingRun.latched).any (·.has (0x1007 + j)) = true :=
  ⟨packing_inv, rfl, ⟨_, rfl⟩, finished_inv, by decide, ⟨_, rfl⟩, 0, by decide, by decide +kernel⟩

theorem witness_memory : Memory.wf codes3 = true := by decide +kernel

/-- A host store to the last byte of data memory changes it. -/
theorem witness_memoryChanges :
    ∃ t, (idle [] [.memWrite .b1 0xFFFF 1]).Inv ∧ step (idle [] [.memWrite .b1 0xFFFF 1]) = .next t ∧
      t.mem.get 0xFFFF ≠ (idle [] [.memWrite .b1 0xFFFF 1]).mem.get 0xFFFF :=
  ⟨_, (idle_ok _).1, rfl, by decide⟩

theorem witness_packFormulas :
    (∀ c ∈ List.replicate 8 (7 : Byte), c.toNat < 2 ^ 3) ∧ (∀ c ∈ List.replicate 8 (31 : Byte), c.toNat < 2 ^ 5) ∧
    (∀ c ∈ List.replicate 4 (63 : Byte), c.toNat < 2 ^ 6) ∧
    pack3 7 7 7 7 7 7 7 7 = [255, 255, 255] ∧ pack5 31 31 31 31 31 31 31 31 = [255, 255, 255, 255, 255] ∧
    pack6 63 63 63 63 = [255, 255, 255] := by decide

theorem witness_packAndExtract : (Memory.wf [] = true) ∧ ([0, 7, 1, 6, 2, 5, 3, 4] : List Byte).length = packFactor .w3 ∧
    ∀ c ∈ ([0, 7, 1, 6, 2, 5, 3, 4] : List Byte), c.toNat < 2 ^ widthBits .w3 := by decide

theorem witness_simdExtractor : simdOk .lanes8 .w4 = true ∧ simdOk .lanes4 .w8 = true ∧ 7 < laneCount .lanes8 := by
  decide

theorem witness_pack : packing.Inv ∧ inFlight packing packingRun (.pack 3) ∧ widthOfField 3 = some .w3 :=
  ⟨packing_inv, packing_inFlight, by decide⟩

/-- UNPACK.b3 in flight on a memory. -/
def unpacking (m : Memory) : State := flying defaultParams 0x34 (.unpack 3) (matrixRegs 8) m

theorem unpacking_inv {m : Memory} (hm : m.wf = true) (hb : m.below 0x10000 = true) : (unpacking m).Inv :=
  flying_inv (by decide) (by decide) (by decide +kernel) hm hb

theorem witness_unpack : (unpacking codes3).Inv ∧
    inFlight (unpacking codes3) (flyingRun defaultParams (.unpack 3) (matrixRegs 8)) (.unpack 3) ∧
    widthOfField 3 = some .w3 :=
  ⟨unpacking_inv (by decide +kernel) (by decide +kernel), flying_inFlight _ _ _ _ _, by decide⟩

theorem witness_packThenUnpack :
    packing.Inv ∧ (unpacking packed3).Inv ∧ inFlight packing packingRun (.pack 3) ∧
    exec (.pack 3) packing = .next (completedWith packing packingRun false packed3) ∧
    (unpacking packed3).mem = (completedWith packing packingRun false packed3).mem ∧
    inFlight (unpacking packed3) (flyingRun defaultParams (.unpack 3) (matrixRegs 8)) (.unpack 3) ∧
    widthOfField 3 = some .w3 ∧
    ∀ i < matrixSize packingRun.latched,
      (packing.mem.get (packingRun.latched.xAddr.toNat + i)).toNat < 2 ^ widthBits .w3 :=
  ⟨packing_inv, unpacking_inv (by decide +kernel) (by decide +kernel), packing_inFlight,
    nextHas_eq (by decide +kernel), rfl, flying_inFlight _ _ _ _ _, by decide, by decide +kernel⟩

theorem witness_formats : 0x3C00 < 2 ^ (8 * fmtSize .f16) ∧ decodeFmt .f16 0x3C00 ≠ .nan ∧
    decodeFmt .f16 0x7C00 = .inf false ∧ decodeFmt .bf16 0x0001 ≠ .nan := by decide +kernel

theorem witness_representable : representable .f16 (fOfNat 1) ∧ representable .f32 (.fin true 1) ∧
    representable .bf16 (fOfNat 1) :=
  ⟨⟨0x3C00, by decide +kernel⟩, ⟨0x80000001, by decide +kernel⟩, ⟨0x3F80, by decide +kernel⟩⟩

/-- 1/3 is rounded, 65520 in f16 is the tie that overflows. -/
theorem witness_rounding : roundReal .f32 false 1 3 = .fin false (0xAAAAAB * 2 ^ 124) ∧
    roundReal .f16 true 65520 1 = .inf true ∧ roundReal .f16 false 65519 1 = .fin false (65504 * 2 ^ 149) :=
  ⟨by decide +kernel, by decide +kernel, by decide +kernel⟩

theorem witness_rint : representable .f32 (decodeFmt .f32 0x40200000) := ⟨0x40200000, by decide +kernel⟩

theorem witness_initialScale : nonFinite (fOfNat 0) = false ∧ nonFinite (fOfNat 15) = false ∧
    fLt (fOfNat 15) (fOfNat 0) = false ∧ fLt (fOfNat 0) (fOfNat 0) = false ∧
    nonFinite (fSub .f32 (fOfNat 15) (fOfNat 0)) = false ∧
    fLt (decodeFmt .f32 0x7F7FFFFF) (decodeFmt .f32 0xFF7FFFFF) = false ∧
    nonFinite (fSub .f32 (decodeFmt .f32 0x7F7FFFFF) (decodeFmt .f32 0xFF7FFFFF)) = true := by decide +kernel

/-- Quotients that are +∞ and -∞: 1 / ±0, so that the code is n_bins and 0. -/
theorem witness_infiniteQuotients :
    fRint (fDiv .f32 (fSub .f32 (fOfNat 1) (fOfNat 0)) (fOfNat 0)) = .inf false ∧
    fRint (fDiv .f32 (fSub .f32 (fOfNat 1) (fOfNat 0)) (fNeg (fOfNat 0))) = .inf true ∧
    quantCode Numerics.ieee .w4 0 0 (fOfNat 0) (fOfNat 0) (fOfNat 1) = 15 ∧
    quantCode Numerics.ieee .w4 0 0 (fNeg (fOfNat 0)) (fOfNat 0) (fOfNat 1) = 0 := by decide +kernel

/-- Quotients that round to a negative zero, to -3 and to 20, so that the code is 0, 0 and n_bins. -/
theorem witness_quotients :
    Numerics.ieee.rint (Numerics.ieee.div .f32 (fOfNat 0) (fNeg (fOfNat 1))) = .fin true 0 ∧
    Numerics.ieee.rint (Numerics.ieee.div .f32 (Numerics.ieee.sub .f32 (fOfNat 1) (fOfNat 4)) (fOfNat 1)) =
      .fin true (3 * oneMag) ∧
    Numerics.ieee.rint (Numerics.ieee.div .f32 (Numerics.ieee.sub .f32 (fOfNat 24) (fOfNat 4)) (fOfNat 1)) =
      .fin false (20 * oneMag) := by decide +kernel

theorem witness_signedZeros : ([.fin true 0, .fin false 0] : List FVal) ≠ [] ∧
    ∀ v ∈ ([.fin true 0, .fin false 0] : List FVal), ∃ s, v = .fin s 0 :=
  ⟨by decide, by simp⟩

/-- The group 0, 15 in 4 bits: scale0 -1, edge 15, q0 -15, scale -1, bias 15. -/
theorem witness_anchor :
    ([fOfNat 0, fOfNat 15] : List FVal) ≠ [] ∧ (∀ v ∈ [fOfNat 0, fOfNat 15], representable .f32 v) ∧
    signAndEdge (extremum min32 [fOfNat 0, fOfNat 15]) (extremum max32 [fOfNat 0, fOfNat 15])
      (initialScale Numerics.ieee .w4 (extremum min32 [fOfNat 0, fOfNat 15]) (extremum max32 [fOfNat 0, fOfNat 15])) =
      (fNeg (fOfNat 1), fOfNat 15) ∧
    groupParams Numerics.ieee .w4 [fOfNat 0, fOfNat 15] = (fNeg (fOfNat 1), fOfNat 15) ∧
    isZero (fRint (fDiv .f32 (fOfNat 15) (fNeg (fOfNat 1)))) = false ∧ isZero (fNeg (fOfNat 1)) = false := by
  refine ⟨by simp, ?_, by decide +kernel, by decide +kernel, by decide +kernel, by decide +kernel⟩
  intro v hv
  simp only [List.mem_cons, List.not_mem_nil, or_false] at hv
  rcases hv with rfl | rfl
  · exact ⟨0, by decide +kernel⟩
  · exact ⟨0x41700000, by decide +kernel⟩

/-- The largest finite binary32 value, twice: q0 overflows to -∞, the refined scale is a zero, the bias is the value and
by 41_quantize.md R250 and R260 its code is 0. -/
def hugeGroup : List FVal := List.replicate 2 (decodeFmt .f32 0x7F7FFFFF)

theorem witness_anchor_hugeConstant :
    hugeGroup ≠ [] ∧ (∀ v ∈ hugeGroup, representable .f32 v) ∧ (∀ v ∈ hugeGroup, v = decodeFmt .f32 0x7F7FFFFF) ∧
    signAndEdge (extremum min32 hugeGroup) (extremum max32 hugeGroup)
      (initialScale Numerics.ieee .w4 (extremum min32 hugeGroup) (extremum max32 hugeGroup)) =
      (fNeg epsVal, decodeFmt .f32 0x7F7FFFFF) ∧
    fRint (fDiv .f32 (decodeFmt .f32 0x7F7FFFFF) (fNeg epsVal)) = .inf true ∧
    groupParams Numerics.ieee .w4 hugeGroup = (.fin true 0, decodeFmt .f32 0x7F7FFFFF) ∧
    quantCode Numerics.ieee .w4 0 0 (.fin true 0) (decodeFmt .f32 0x7F7FFFFF) (decodeFmt .f32 0x7F7FFFFF) = 0 := by
  have hv : ∀ v ∈ hugeGroup, v = decodeFmt .f32 0x7F7FFFFF := fun v h => List.eq_of_mem_replicate h
  refine ⟨by simp [hugeGroup], fun v h => ⟨0x7F7FFFFF, ?_⟩, hv, by decide +kernel, by decide +kernel, by decide +kernel,
    by decide +kernel⟩
  rw [hv v h]
  decide +kernel

/-- Finite operands with a sum that is an exact zero, an infinite and a NaN operand, and four lanes. -/
theorem witness_defaultNumerics : nonFinite (fOfNat 1) = false ∧ nonFinite (.fin true oneMag) = false ∧
    nonFinite (.fin true 0) = false ∧ realOf (fOfNat 1) + realOf (.fin true oneMag) = 0 ∧
    ((.nan : FVal) = .nan ∨ fOfNat 1 = .nan) ∧ fOfNat 1 ≠ .nan ∧ FVal.inf true ≠ .nan ∧
    ([fOfNat 1, fOfNat 2] : List FVal).length = 2 ^ 1 ∧ ([fOfNat 3, fOfNat 4] : List FVal).length = 2 ^ 1 := by
  refine ⟨rfl, rfl, rfl, ?_, .inl rfl, by simp [fOfNat], by simp, rfl, rfl⟩
  simp only [realOf, fOfNat, signed, one_mul, Bool.false_eq_true, if_false, if_true, Int.cast_neg]
  ring

/-- QUANTIZE.b4.g32.f32 in flight on a group of zeros. -/
def quantizing : State := flying defaultParams 0x2041 (.quantize 4 32 0) (matrixRegs 32) []

theorem witness_quantize : quantizing.Inv ∧
    inFlight quantizing (flyingRun defaultParams (.quantize 4 32 0) (matrixRegs 32)) (.quantize 4 32 0) ∧
    floatFields 4 32 0 = some ⟨.w4, .g32, .f32⟩ ∧ 0 < matrixSize (matrixRegs 32) / groupElems .g32 ∧
    groupNonFinite ⟨.w4, .g32, .f32⟩ (matrixRegs 32) quantizing.mem 0 = false :=
  ⟨flying_inv (by decide) (by decide) (by decide +kernel) rfl rfl, flying_inFlight _ _ _ _ _, by decide, by decide,
    by decide +kernel⟩

/-- QMM or QMM.T in flight. -/
theorem product_inv {p : Params} {w : Word} {i : Instr} {r : OperandRegs} (hp : paramsOk p = true)
    (hw : decode w = .command i) (hc : commandCheck i p r = none) : (flying p w i r []).Inv :=
  flying_inv hp hw hc rfl rfl

theorem witness_qmm :
    (flying defaultParams 0x2082 (.qmm 8 32 0) (productRegs 1 32 1) []).Inv ∧
    inFlight (flying defaultParams 0x2082 (.qmm 8 32 0) (productRegs 1 32 1) [])
      (flyingRun defaultParams (.qmm 8 32 0) (productRegs 1 32 1)) (.qmm 8 32 0) ∧
    floatFields 8 32 0 = some ⟨.w8, .g32, .f32⟩ :=
  ⟨product_inv (by decide) (by decide) (by decide +kernel), flying_inFlight _ _ _ _ _, by decide⟩

theorem witness_qmmT_scalar :
    (flying defaultParams 0x42022 (.qmmT 2 32 0) (productRegs 1 1 32) []).Inv ∧
    inFlight (flying defaultParams 0x42022 (.qmmT 2 32 0) (productRegs 1 1 32) [])
      (flyingRun defaultParams (.qmmT 2 32 0) (productRegs 1 1 32)) (.qmmT 2 32 0) ∧
    floatFields 2 32 0 = some ⟨.w2, .g32, .f32⟩ ∧ simdOk defaultParams.lanes .w2 = false :=
  ⟨product_inv (by decide) (by decide) (by decide +kernel), flying_inFlight _ _ _ _ _, by decide, by decide⟩

theorem witness_qmmT_simd :
    (flying defaultParams 0x42082 (.qmmT 8 32 0) (productRegs 1 1 32) []).Inv ∧
    inFlight (flying defaultParams 0x42082 (.qmmT 8 32 0) (productRegs 1 1 32) [])
      (flyingRun defaultParams (.qmmT 8 32 0) (productRegs 1 1 32)) (.qmmT 8 32 0) ∧
    floatFields 8 32 0 = some ⟨.w8, .g32, .f32⟩ ∧ simdOk defaultParams.lanes .w8 = true :=
  ⟨product_inv (by decide) (by decide) (by decide +kernel), flying_inFlight _ _ _ _ _, by decide, by decide⟩

/-- K = 0 for a QMM with one row (V-QMM-3), M = 0 for a QMM.T. -/
theorem witness_zeroDimensions :
    ((flying defaultParams 0x2042 (.qmm 4 32 0) (productRegs 1 32 0) []).Inv ∧ (productRegs 1 32 0).dimK = 0 ∧
      ∃ b ∈ outBuffers (.qmm 4 32 0) (productRegs 1 32 0), b.has 0x407F = true) ∧
    ((flying defaultParams 0x42042 (.qmmT 4 32 0) (productRegs 0 1 32) []).Inv ∧ (productRegs 0 1 32).dimM = 0) ∧
    (∀ b ∈ commandBuffers (.qmm 4 32 0) { productRegs 1 32 0 with wAddr := 0xFFFFFFFFFFFFFFFC }, b.isOut = false →
      b.len = 0) :=
  ⟨⟨product_inv (by decide) (by decide) (by decide +kernel), rfl, by decide +kernel⟩,
    ⟨product_inv (by decide) (by decide) (by decide +kernel), rfl⟩, by decide +kernel⟩

/-- The activation 1.0 and nothing else. -/
def memOne : Memory := [(0x1002, 0x80), (0x1003, 0x3F)]

theorem read_memOne : ∀ (n a : Nat), 0x2000 ≤ a → memOne.read a n = 0
  | 0, _, _ => rfl
  | n + 1, a, h => by
    have hg : memOne.get a = 0 := by
      simp only [memOne, Memory.get]
      rw [if_neg (by omega), if_neg (by omega)]
      rfl
    rw [Memory.read, hg, read_memOne n (a + 1) (by omega)]
    rfl

theorem codeAt_zero (w : Width) (j : Nat) : codeAt w 0 j = 0 := by simp [codeAt]

theorem weightAt_memOne (w : Width) (g : GroupSize) (cols row col : Nat) :
    weightAt ⟨w, g, .f32⟩ (productRegs 1 32 64) memOne cols row col = ⟨0, decodeFmt .f32 0, decodeFmt .f32 0⟩ := by
  have hw : (productRegs 1 32 64).wAddr.toNat = 0x2000 := rfl
  have hs : (productRegs 1 32 64).sAddr.toNat = 0x3000 := rfl
  have hb : (productRegs 1 32 64).bAddr.toNat = 0x3100 := rfl
  simp only [weightAt, codeOfBuffer, loadFmt, hw, hs, hb]
  rw [read_memOne _ _ (by omega), read_memOne _ _ (by omega), read_memOne _ _ (by omega), codeAt_zero]

/-- QMM.b2.g32.f32 and QMM.T.b5.g64.f32: other widths and group sizes, equal triples. -/
theorem witness_orientations :
    (flying defaultParams 0x2022 (.qmm 2 32 0) (productRegs 1 32 64) memOne).Inv ∧
    (flying defaultParams 0x44052 (.qmmT 5 64 0) (productRegs 1 32 64) memOne).Inv ∧
    floatFields 2 32 0 = some ⟨.w2, .g32, .f32⟩ ∧ floatFields 5 64 0 = some ⟨.w5, .g64, .f32⟩ ∧
    simdOk defaultParams.lanes .w5 = false ∧
    (∀ k < 64, ∀ n < 32, weightAt ⟨.w2, .g32, .f32⟩ (productRegs 1 32 64) memOne 32 k n =
      weightAt ⟨.w5, .g64, .f32⟩ (productRegs 1 32 64) memOne 64 n k) ∧
    (∃ t, exec (.qmm 2 32 0) (flying defaultParams 0x2022 (.qmm 2 32 0) (productRegs 1 32 64) memOne) = .next t) ∧
    (∃ t, exec (.qmmT 5 64 0) (flying defaultParams 0x44052 (.qmmT 5 64 0) (productRegs 1 32 64) memOne) = .next t) ∧
    ∃ b ∈ outBuffers (.qmm 2 32 0) (productRegs 1 32 64), b.has 0x4000 = true := by
  have h1 : commandCheck (.qmm 2 32 0) defaultParams (productRegs 1 32 64) = none := by decide +kernel
  have h2 : commandCheck (.qmmT 5 64 0) defaultParams (productRegs 1 32 64) = none := by decide +kernel
  refine ⟨flying_inv (by decide) (by decide) h1 (by decide) (by decide),
    flying_inv (by decide) (by decide) h2 (by decide) (by decide), by decide, by decide, by decide, ?_,
    flying_completes _ _ h1, flying_completes _ _ h2, by decide +kernel⟩
  intro k _ n _
  rw [weightAt_memOne, weightAt_memOne]

theorem witness_batchOffset : [1, 2].length = [2, 3].length ∧ [100, 10].length = [2, 3].length ∧
    (∀ p ∈ List.zip [2, 3] [1, 2], p.2 < p.1) ∧ ∀ x ∈ [0, 0], x = 0 := by decide

/-- A batched call over two batches. -/
def twoBatches : Batched :=
  { product := ⟨true, 4, 32, 0, 1, 1, 32, 0x1000, 0x2000, 0x3000, 0x3100, 0x4000⟩
    shape := [2], xStrides := [128], wStrides := [16], sStrides := [0], bStrides := [0] }

theorem witness_batched :
    (idle [] [.batched twoBatches]).agenda = [.batched twoBatches] ∧
    ((idle [] [.batchedAt twoBatches 2]).agenda = [.batchedAt twoBatches 2] ∧ twoBatches.shape.prod ≤ 2) ∧
    (0 < 1 ∧ statusErr 0x0206 = true) ∧
    (statusErr (idle [] [.batchedAt twoBatches 1]).hostData = false ∧ 1 < twoBatches.shape.prod) :=
  ⟨rfl, ⟨rfl, by decide⟩, by decide, by decide, by decide⟩

/-- A batched call with bits 7, group size 100 or dtype 3: its command is rejected (43_host_batched.md R354). -/
theorem test_batch_unsupported :
    launchError State.reset (encode (batchInstr { twoBatches.product with bits := 7 })) .badBits ∧
    launchError State.reset (encode (batchInstr { twoBatches.product with gsize := 100 })) .badGsize ∧
    launchError State.reset (encode (batchInstr { twoBatches.product with dtype := 3 })) .badDtype :=
  ⟨.inr ⟨.qmmT 7 32 0, by decide, by decide⟩, .inr ⟨.qmmT 4 100 0, by decide, by decide⟩,
    .inr ⟨.qmmT 4 32 3, by decide, by decide⟩⟩

/-- A gathered call of three positions over two activation and two weight batches: index 2 is out of
range. -/
def gatherThree : Gather :=
  { product := twoBatches.product, count := 3, lhsAddr := 0x5000, rhsAddr := 0x5100, xShape := [2], wShape := [2],
    xStrides := [128], wStrides := [16], sStrides := [0], bStrides := [0] }

/-- At position 1 the index 2 of lhs is out of range; at position 2, the last one, all that remain are in range. -/
theorem witness_gather :
    statusErr (idle [(0x5004, 2)] [.gatherAt gatherThree 1]).hostData = false ∧ 1 < gatherThree.count ∧
    2 < gatherThree.count ∧ gatherThree.lhsAddr + 4 * gatherThree.count ≤ State.reset.params.memSize ∧
    gatherThree.rhsAddr + 4 * gatherThree.count ≤ State.reset.params.memSize ∧
    gatherThree.xShape.prod ≤ hostRead (idle [(0x5004, 2)] []) (gatherThree.lhsAddr + 4 * 1) 4 ∧
    hostRead (idle [(0x5004, 2)] []) (gatherThree.lhsAddr + 4 * 2) 4 < gatherThree.xShape.prod ∧
    hostRead (idle [(0x5004, 2)] []) (gatherThree.rhsAddr + 4 * 2) 4 < gatherThree.wShape.prod ∧
    ∀ j < 4, readsUnspecified finished (gatherThree.lhsAddr + j) = false :=
  ⟨by decide, by decide, by decide, by decide, by decide, by decide +kernel, by decide +kernel, by decide +kernel,
    by decide +kernel⟩

/-- The first line of a gathered call, its stop at the last position, and its stop after an error. -/
theorem witness_gatherStarts :
    (idle [] [.gather gatherThree]).agenda = [.gather gatherThree] ∧ gatherThree.count ≤ 3 ∧
    (0 < 1 ∧ statusErr (State.hostData { State.reset with hostData := 0x0206 }) = true) := ⟨rfl, by decide, by decide⟩

theorem witness_params : paramsOk defaultParams = true ∧
    paramsOk { defaultParams with memSize := 1, regBase := 0x7FF8 } = true := by decide

/-- Parameters that differ from the default ones in MEM_SIZE and REG_BASE. -/
def otherParams : Params := { defaultParams with memSize := 0x20000, regBase := 0x40000 }

/-- Two states of PACK in flight whose memories differ outside the in buffer, in machines of other sizes. -/
theorem witness_determinism :
    packing.Inv ∧ (flying otherParams 0x33 (.pack 3) (matrixRegs 8) (codes3.set 0x2001 0xAA)).Inv ∧
    inFlight packing packingRun (.pack 3) ∧
    inFlight (flying otherParams 0x33 (.pack 3) (matrixRegs 8) (codes3.set 0x2001 0xAA)) packingRun (.pack 3) ∧
    defaultParams.lanes = otherParams.lanes ∧ defaultParams.numerics = otherParams.numerics ∧
    (∀ b ∈ commandBuffers packingRun.instr packingRun.latched, b.isOut = false → ∀ x, b.has x = true →
      packing.mem.get x = (codes3.set 0x2001 0xAA).get x) ∧
    ∃ t, exec packingRun.instr packing = .next t := by
  refine ⟨packing_inv, flying_inv (by decide) (by decide) (by decide +kernel) (by decide +kernel) (by decide +kernel),
    packing_inFlight, flying_inFlight _ _ _ _ _, rfl, rfl, ?_, packing_completes⟩
  intro b hb ho x hx
  have key : ∀ b ∈ commandBuffers packingRun.instr packingRun.latched, b.isOut = false → b.base + b.len ≤ 0x1008 := by
    decide +kernel
  have h := key b hb ho
  simp only [Buffer.has, Bool.and_eq_true, decide_eq_true_eq] at hx
  exact (Memory.get_set_of_ne (by omega)).symm

/-! ### One step of the commands on floating-point data -/

/-- Elements 0 and 31 of a group are -15 and -1, the others 0. By the steps of 41_quantize.md R252 to R257: scale 1.0,
bias -15.0, codes 0, 15, …, 15, 14. -/
theorem test_quantize_positive_scale :
    nextHas (exec (.quantize 4 32 0) (flying defaultParams 0x2041 (.quantize 4 32 0) (matrixRegs 32)
      [(0x1002, 0x70), (0x1003, 0xC1), (0x107E, 0x80), (0x107F, 0xBF)]))
    (fun t => (t.mem.read 0x3000 4 == 0x3F800000) && (t.mem.read 0x3100 4 == 0xC1700000) &&
      (t.mem.read 0x2000 8 == 0xFFFFFFFFFFFFFFF0) && (t.mem.read 0x2008 8 == 0xEFFFFFFFFFFFFFFF) &&
      (t.status == 0x2)) = true := by decide +kernel

/-- x = 3.0, code 7 at column 5 and 0 elsewhere, scale 0.5, bias -1.0: by 42_qmm.md R303 and R306 the output is
3·(0.5·7 - 1) = 7.5 at column 5 and -3.0 elsewhere. -/
theorem test_qmm :
    nextHas (exec (.qmm 8 32 0) (flying defaultParams 0x2082 (.qmm 8 32 0) (productRegs 1 32 1)
      [(0x1002, 0x40), (0x1003, 0x40), (0x2005, 7), (0x3003, 0x3F), (0x3102, 0x80), (0x3103, 0xBF)]))
    (fun t => (t.mem.read 0x4010 4 == 0xC0400000) && (t.mem.read 0x4014 4 == 0x40F00000) &&
      (t.mem.read 0x407C 4 == 0xC0400000) && (t.status == 0x2)) = true := by decide +kernel

/-- x = 2^24, 1, 1, 1, 0, …; every weight is the bias 1.0. -/
def memQmmT : Memory :=
  [(0x1002, 0x80), (0x1003, 0x4B), (0x1006, 0x80), (0x1007, 0x3F), (0x100A, 0x80), (0x100B, 0x3F), (0x100E, 0x80),
   (0x100F, 0x3F), (0x3102, 0x80), (0x3103, 0x3F)]

/-- As V-QMMT-5 on the SIMD datapath with S = 8: (2^24 + 1) + (1 + 1) is 2^24 + 2. -/
theorem test_qmmT_simd :
    nextHas (exec (.qmmT 8 32 0) (flying defaultParams 0x42082 (.qmmT 8 32 0) (productRegs 1 1 32) memQmmT))
    (fun t => (t.mem.read 0x4000 4 == 0x4B800001) && (t.status == 0xA)) = true := by decide +kernel

/-- As V-QMMT-5 on the scalar datapath, which S = 2 selects: each 1 is lost, the output is 2^24. -/
theorem test_qmmT_scalar :
    nextHas (exec (.qmmT 8 32 0) (flying { defaultParams with lanes := .lanes2 } 0x42082 (.qmmT 8 32 0)
      (productRegs 1 1 32) memQmmT))
    (fun t => (t.mem.read 0x4000 4 == 0x4B800000) && (t.status == 0x2)) = true := by decide +kernel

end Sys2Proof.Machine.Tests
end

/-! PROOFS. `rint` (00_scope.md R16): the distance of `nearestEven` to its quotient, and the finite data of a format
as significands times powers of two, which is how a rounded binary32 datum is seen to be one again. -/

namespace Sys2Proof.Machine

/-! ### The nearest integer -/

theorem nearestEven_cases (a b : Nat) :
    (b < 2 * (a % b) ∧ nearestEven a b = a / b + 1) ∨
    (2 * (a % b) = b ∧ nearestEven a b = a / b + a / b % 2) ∨
    (2 * (a % b) < b ∧ nearestEven a b = a / b) := by
  rcases lt_trichotomy b (2 * (a % b)) with h | h | h
  · exact .inl ⟨h, by simp [nearestEven, h]⟩
  · exact .inr (.inl ⟨h.symm, by simp [nearestEven, ← h]⟩)
  · exact .inr (.inr ⟨h, by simp [nearestEven, h.not_gt, h.ne]⟩)

theorem nearestEven_le_succ (a b : Nat) : nearestEven a b ≤ a / b + 1 := by
  rcases nearestEven_cases a b with ⟨-, h⟩ | ⟨-, h⟩ | ⟨-, h⟩ <;> omega

theorem nearestEven_mul (n : Nat) {b : Nat} (hb : 0 < b) : nearestEven (n * b) b = n := by
  simp [nearestEven, Nat.mul_div_cancel n hb, hb.ne]

/-- `nearestEven a b` times `b` is at most half of `b` away from `a`, and at exactly half of it the integer is even. -/
theorem nearestEven_dist (a : Nat) {b : Nat} (hb : 0 < b) :
    2 * |(a : ℤ) - nearestEven a b * b| ≤ b ∧
    (2 * |(a : ℤ) - nearestEven a b * b| = b → nearestEven a b % 2 = 0) := by
  have hr : a % b < b := Nat.mod_lt a hb
  have ha : (a : ℤ) = (a / b : ℕ) * b + (a % b : ℕ) := by exact_mod_cast (Nat.div_add_mod' a b).symm
  have down {n : Nat} (hn : n = a / b) : |(a : ℤ) - n * b| = (a % b : ℕ) := by
    rw [hn, ha, add_sub_cancel_left, Nat.abs_cast]
  have up {n : Nat} (hn : n = a / b + 1) : |(a : ℤ) - n * b| = b - (a % b : ℕ) := by
    have hd : (a : ℤ) - n * b = -(b - (a % b : ℕ)) := by
      rw [hn, ha]
      push_cast
      ring
    rw [hd, abs_neg, abs_of_nonneg (by omega)]
  rcases nearestEven_cases a b with ⟨h, hn⟩ | ⟨h, hn⟩ | ⟨h, hn⟩
  · rw [up hn]
    omega
  · rcases Nat.mod_two_eq_zero_or_one (a / b) with hq | hq
    · rw [down (by omega)]
      omega
    · rw [up (by omega)]
      omega
  · rw [down hn]
    omega

/-! ### The finite data of a format -/

theorem signBit_eq (t : Fmt) (neg : Bool) : signBit t neg = neg.toNat * 2 ^ expBits t * 2 ^ fracBits t := by
  cases t <;> cases neg <;> rfl

/-- `decode_T` of an element given by its three fields (00_scope.md R13). -/
theorem decodeFmt_fields (t : Fmt) (neg : Bool) {e frac : Nat} (he : e < 2 ^ expBits t) (hf : frac < 2 ^ fracBits t) :
    decodeFmt t (signBit t neg + (e * 2 ^ fracBits t + frac)) =
      if e = 2 ^ expBits t - 1 then (if frac = 0 then .inf neg else .nan)
      else if e = 0 then .fin neg (frac * 2 ^ (unitExp - leastExp t))
      else .fin neg ((2 ^ fracBits t + frac) * 2 ^ (e - 1) * 2 ^ (unitExp - leastExp t)) := by
  have hbits : signBit t neg + (e * 2 ^ fracBits t + frac) =
      frac + (e + neg.toNat * 2 ^ expBits t) * 2 ^ fracBits t := by
    rw [signBit_eq]
    ring
  have hrest : (frac + (e + neg.toNat * 2 ^ expBits t) * 2 ^ fracBits t) / 2 ^ fracBits t =
      e + neg.toNat * 2 ^ expBits t := by
    rw [Nat.add_mul_div_right _ _ (Nat.two_pow_pos _), Nat.div_eq_of_lt hf, Nat.zero_add]
  have hsign : 8 * fmtSize t - 1 = fracBits t + expBits t := by cases t <;> rfl
  have hneg : (frac + (e + neg.toNat * 2 ^ expBits t) * 2 ^ fracBits t).testBit (8 * fmtSize t - 1) = neg := by
    rw [Nat.testBit_eq_decide_div_mod_eq, hsign, pow_add, ← Nat.div_div_eq_div_mul, hrest,
      Nat.add_mul_div_right _ _ (Nat.two_pow_pos _), Nat.div_eq_of_lt he]
    cases neg <;> rfl
  rw [hbits]
  simp only [decodeFmt, hrest, hneg, Nat.add_mul_mod_self_right, Nat.mod_eq_of_lt hf, Nat.mod_eq_of_lt he]

/-- A finite magnitude that `decode_T` gives is a significand of the format's precision times a power of two in the
format's range. -/
theorem decodeFmt_fin {t : Fmt} {bits : Nat} {s : Bool} {m : Nat} (h : decodeFmt t bits = .fin s m) :
    ∃ a e, a < 2 ^ (fracBits t + 1) ∧ e < 2 ^ expBits t - 2 ∧ m = a * 2 ^ e * 2 ^ (unitExp - leastExp t) := by
  have hf : bits % 2 ^ fracBits t < 2 ^ fracBits t := Nat.mod_lt _ (Nat.two_pow_pos _)
  have he : bits / 2 ^ fracBits t % 2 ^ expBits t < 2 ^ expBits t := Nat.mod_lt _ (Nat.two_pow_pos _)
  have hp : 0 < 2 ^ expBits t - 2 := by cases t <;> decide
  have hs : 2 ^ (fracBits t + 1) = 2 * 2 ^ fracBits t := pow_succ' 2 _
  simp only [decodeFmt] at h
  split_ifs at h with h1 h2 h3 <;> cases h
  · exact ⟨bits % 2 ^ fracBits t, 0, by omega, hp, by rw [pow_zero, mul_one]⟩
  · exact ⟨2 ^ fracBits t + bits % 2 ^ fracBits t, bits / 2 ^ fracBits t % 2 ^ expBits t - 1, by omega, by omega, rfl⟩

/-- Every such product is a finite datum of the format; by induction on the power of two, of which a significand
without its leading bit takes a factor. -/
theorem representable_of_significand {t : Fmt} (s : Bool) {a e : Nat} (ha : a < 2 ^ (fracBits t + 1))
    (he : e < 2 ^ expBits t - 2) : representable t (.fin s (a * 2 ^ e * 2 ^ (unitExp - leastExp t))) := by
  have normal {a e : Nat} (hlead : 2 ^ fracBits t ≤ a) (ha : a < 2 ^ (fracBits t + 1)) (he : e < 2 ^ expBits t - 2) :
      representable t (.fin s (a * 2 ^ e * 2 ^ (unitExp - leastExp t))) := by
    refine ⟨signBit t s + ((e + 1) * 2 ^ fracBits t + (a - 2 ^ fracBits t)), ?_, rfl⟩
    rw [decodeFmt_fields t s (by omega) (by omega), if_neg (by omega), if_neg e.succ_ne_zero,
      Nat.add_sub_cancel' hlead, Nat.add_sub_cancel]
  rcases le_or_gt (2 ^ fracBits t) a with hlead | hsub
  · exact normal hlead ha he
  · induction e generalizing a with
    | zero =>
      refine ⟨signBit t s + (0 * 2 ^ fracBits t + a), ?_, rfl⟩
      rw [decodeFmt_fields t s (by omega) hsub, if_neg (by omega), if_pos rfl, pow_zero, mul_one]
    | succ e ih =>
      have hdouble : a * 2 ^ (e + 1) = 2 * a * 2 ^ e := by ring
      rw [hdouble]
      rcases le_or_gt (2 ^ fracBits t) (2 * a) with h | h
      · exact normal h (by omega) (by omega)
      · exact ih (by omega) (by omega) h

/-- The finite data of a format: significands of its precision times powers of two in its range (00_scope.md R13). -/
theorem representable_fin_iff (t : Fmt) (s : Bool) (m : Nat) :
    representable t (.fin s m) ↔
      ∃ a e, a < 2 ^ (fracBits t + 1) ∧ e < 2 ^ expBits t - 2 ∧ m = a * 2 ^ e * 2 ^ (unitExp - leastExp t) := by
  constructor
  · rintro ⟨bits, h, -⟩
    exact decodeFmt_fin h
  · rintro ⟨a, e, ha, he, rfl⟩
    exact representable_of_significand s ha he

/-- The finite data of binary32: its least positive value is the unit. -/
theorem representable_f32_fin_iff (s : Bool) (m : Nat) :
    representable .f32 (.fin s m) ↔ ∃ a e, a < 2 ^ 24 ∧ e < 254 ∧ m = a * 2 ^ e := by
  simpa [fracBits, expBits, leastExp, unitExp] using representable_fin_iff .f32 s m

/-! ### `rint` -/

/-- A binary32 magnitude of 2^23 integers or more is an integer already; below, the nearest integer has at most 24
bits. -/
theorem representable_fRint_fin {s : Bool} {m : Nat} (h : representable .f32 (.fin s m)) :
    representable .f32 (fRint (.fin s m)) := by
  obtain ⟨a, e, ha, he, rfl⟩ := (representable_f32_fin_iff s m).1 h
  rcases le_or_gt 149 e with hint | hfrac
  · have hm : a * 2 ^ e = a * 2 ^ (e - 149) * oneMag := by
      rw [oneMag, unitExp, mul_assoc, ← pow_add, Nat.sub_add_cancel hint]
    rwa [fRint, hm, nearestEven_mul _ oneMag_pos, ← hm]
  · have hlt : a * 2 ^ e < 2 ^ 23 * oneMag := by
      calc a * 2 ^ e < 2 ^ 24 * 2 ^ e := Nat.mul_lt_mul_of_pos_right ha (Nat.two_pow_pos e)
        _ ≤ 2 ^ 24 * 2 ^ 148 := Nat.mul_le_mul_left _ (Nat.pow_le_pow_right (by decide) (by omega))
        _ = 2 ^ 23 * oneMag := by decide
    have hquot : a * 2 ^ e / oneMag < 2 ^ 23 := Nat.div_lt_of_lt_mul (by rwa [mul_comm oneMag])
    have hn := nearestEven_le_succ (a * 2 ^ e) oneMag
    exact (representable_f32_fin_iff s _).2 ⟨nearestEven (a * 2 ^ e) oneMag, 149, by omega, by decide, rfl⟩

theorem representable_fRint {v : FVal} (h : representable .f32 v) : representable .f32 (fRint v) := by
  cases v with
  | nan => exact h
  | inf => exact h
  | fin => exact representable_fRint_fin h

/-- Settles O40: the nearest integer by `nearestEven_dist`, a binary32 value by `representable_fRint`. -/
theorem rintIsNearestEvenInteger : Obligations.RintIsNearestEvenInteger := by
  have hunit : ((oneMag : ℕ) : ℤ) = 2 ^ 149 := by norm_num [oneMag, unitExp]
  refine ⟨fun s m => ⟨nearestEven m oneMag, rfl, ?_⟩, fun _ => representable_fRint, fun _ => rfl, rfl⟩
  rw [← hunit]
  exact nearestEven_dist m oneMag_pos

end Sys2Proof.Machine

/-! PROOFS. The register block under every step (10_state.md R50 to R63): what each kind of host access does, and every
way in which a step can change CMD, STATUS or an operand register. -/

namespace Sys2Proof.Machine

/-! ### One step, by what moves next -/

theorem step_event {s : State} {e : Event} {rest : List Event} (ha : s.agenda = e :: rest) :
    step s = eventStep e { s with agenda := rest } := by
  simp only [step, ha]

/-- The engine moves next: the agenda is empty, or its first move is the engine's turn (log entry 1). -/
def engineTurnNext (s : State) : Prop := s.agenda = [] ∨ ∃ rest, s.agenda = .engineTurn :: rest

theorem step_engine {s : State} (hn : engineTurnNext s) : step s = engineTurn { s with agenda := s.agenda.tail } := by
  rcases hn with ha | ⟨rest, ha⟩
  · simp only [step, ha, List.tail_nil]
    rw [← ha]
  · rw [step_event ha, ha, List.tail_cons, eventStep]

/-- A write to any register is dropped while BUSY is 1 or reset is asserted (10_state.md R63,
70_reset_and_hazards.md R450). -/
theorem step_wr_dropped {s : State} {r : Reg} {v : Word} {rest : List Event} (ht : ¬takesWrites s)
    (ha : s.agenda = wr s.params r v :: rest) : step s = .next { s with agenda := rest } := by
  have hd : (s.resetAsserted || statusBusy s.status) = true := by
    rw [Bool.or_comm, ← Bool.not_eq_false, Bool.or_eq_false_iff]
    exact ht
  rw [step_event ha]
  simp [wr, eventStep, hostRegWrite, hd]

/-- A write that is taken to a register other than CMD changes that register alone. -/
theorem step_wr_taken {s : State} {r : Reg} {v : Word} {rest : List Event} (ht : takesWrites s) (hr : r ≠ .cmd)
    (ha : s.agenda = wr s.params r v :: rest) :
    step s = .next { s with agenda := rest, regs := writeOperandReg r v s.regs } := by
  obtain ⟨hb, hz⟩ := ht
  rw [step_event ha]
  simp [wr, eventStep, hostRegWrite, hb, hz]

theorem step_cmdWrite {s : State} {w : Word} {rest : List Event} (ht : takesWrites s)
    (ha : s.agenda = cmdWrite s.params w :: rest) : step s = writeCmd w { s with agenda := rest } := by
  obtain ⟨hb, hz⟩ := ht
  rw [step_event ha]
  simp [cmdWrite, wr, eventStep, hostRegWrite, hb, hz]

/-- A register read leaves everything but the host's datum, unless it is a STATUS read that shows completion. -/
theorem step_rd {s : State} {r : Reg} {rest : List Event} (hz : s.resetAsserted = false)
    (hq : ¬(r = .status ∧ showsCompletion s.status = true)) (ha : s.agenda = rd s.params r :: rest) :
    step s = .next { s with agenda := rest, hostData := readReg r s } := by
  have hread : readReg r { s with agenda := rest } = readReg r s := by cases r <;> rfl
  have hnext : eventStep (rd s.params r) { s with agenda := rest } = .next (hostReads r { s with agenda := rest }) := by
    simp [rd, eventStep, hostRegRead, hz]
  rw [step_event ha, hnext]
  simp only [hostReads, hread, hq, if_false]

/-! ### Commands and the registers -/

/-- No command writes a register other than STATUS (10_state.md R65). -/
theorem exec_frame {i : Instr} {s t : State} (h : exec i s = .next t) :
    t.regs = s.regs ∧ t.cmd = s.cmd ∧ t.params = s.params ∧ t.resetAsserted = s.resetAsserted ∧
      t.agenda = s.agenda ∧ t.hostData = s.hostData := by
  rcases exec_next_cases h with ⟨-, rfl⟩ | ⟨r, bs, -, -, -, rfl⟩ | ⟨r, -, -, rfl⟩ <;> simp

theorem engineTurn_cases {s t : State} (h : engineTurn s = .next t) :
    (s.running = none ∧ t = s) ∨ ∃ r bs, s.running = some r ∧ t = complete r bs s := by
  unfold engineTurn at h
  split at h
  · next hr => exact .inl ⟨hr, by simpa using h.symm⟩
  · next r hr =>
    rcases exec_next_cases h with ⟨hr', -⟩ | ⟨r', bs, hr', -, -, rfl⟩ | ⟨r', hr', hne, -⟩
    · simp [hr] at hr'
    · exact .inr ⟨r', bs, hr', rfl⟩
    · cases hr.symm.trans hr'
      exact absurd rfl hne

/-- With its validation passed, the command in flight completes at the engine's turn. -/
theorem engineTurn_completes {s : State} {r : Run} (hr : s.running = some r)
    (hv : commandCheck r.instr s.params r.latched = none) : ∃ bs, engineTurn s = .next (complete r bs s) := by
  obtain ⟨bs, hbs, -⟩ := commandBlocks_ranges s.params s.draws s.mem hv
  exact ⟨bs, by simpa only [engineTurn, hr] using exec_completes hr hbs⟩

/-- CMD takes every written word, rejected or not (10_state.md R55). -/
theorem writeCmd_frame {w : Word} {s t : State} (h : writeCmd w s = .next t) :
    t.cmd = w ∧ t.params = s.params ∧ t.regs = s.regs := by
  unfold writeCmd at h
  split at h
  · cases h
    simp
  · obtain ⟨hregs, hcmd, hparams, -⟩ := exec_frame h
    exact ⟨hcmd, hparams, hregs⟩

theorem writeCmd_rejects {w : Word} {c : ErrCode} {s : State} (hr : s.running = none) (hl : launchError s w c) :
    writeCmd w s = .next (reject c { s with cmd := w }) := by
  rcases hl with ⟨e, hd, rfl⟩ | ⟨i, hd, hc⟩
  · simp [writeCmd, hd]
  · simp [writeCmd, hd, exec_idle, hr, hc]

theorem writeCmd_accepts {w : Word} {s : State} (hr : s.running = none) (hl : ∀ c, ¬launchError s w c) :
    ∃ i, decode w = .command i ∧
      writeCmd w s = .next (accept i (commandSimd i s.params.lanes) { s with cmd := w }) := by
  cases hd : decode w with
  | illegal e => exact absurd (.inl ⟨e, hd, rfl⟩) (hl .illegalCmd)
  | command i =>
    refine ⟨i, rfl, ?_⟩
    cases hc : commandCheck i s.params s.regs with
    | none => simp [writeCmd, hd, exec_idle, hr, hc]
    | some c => exact absurd (.inr ⟨i, hd, hc⟩) (hl c)

theorem writeCmd_next {w : Word} {s : State} (hr : s.running = none) : ∃ t, writeCmd w s = .next t := by
  by_cases hl : ∃ c, launchError s w c
  · obtain ⟨c, hc⟩ := hl
    exact ⟨_, writeCmd_rejects hr hc⟩
  · obtain ⟨i, -, h⟩ := writeCmd_accepts hr (not_exists.1 hl)
    exact ⟨_, h⟩

/-- A state of the invariant that takes writes has no command in flight. -/
theorem running_none_of_takesWrites {s : State} (hi : s.Inv) (ht : takesWrites s) : s.running = none := by
  have hb := hi.busy
  rwa [ht.1, eq_comm, Option.isSome_eq_false_iff, Option.isNone_iff_eq_none] at hb

/-- A busy engine of the invariant is out of reset. -/
theorem resetAsserted_false_of_busy {s : State} (hi : s.Inv) (hb : statusBusy s.status = true) :
    s.resetAsserted = false := by
  by_contra hz
  obtain ⟨-, hs, -⟩ := hi.reset (by simpa using hz)
  rw [hs, idleStatus_fields.2.1] at hb
  exact Bool.false_ne_true hb

theorem not_takesWrites_of_busy {s : State} (hb : statusBusy s.status = true) : ¬takesWrites s :=
  fun ht => Bool.false_ne_true (ht.1.symm.trans hb)

theorem not_showsCompletion_of_busy {w : Word} (hb : statusBusy w = true) : showsCompletion w = false := by
  simp [showsCompletion, hb]

/-! ### Every way to change a register -/

/-- Parameters and registers agree. -/
structure SameRegisters (s t : State) : Prop where
  params : t.params = s.params
  cmd : t.cmd = s.cmd
  status : t.status = s.status
  regs : t.regs = s.regs

theorem SameRegisters.of_withAgenda {s t : State} {a : List Event} (h : SameRegisters { s with agenda := a } t) :
    SameRegisters s t := ⟨h.params, h.cmd, h.status, h.regs⟩

theorem quietOf.sameRegisters {s t : State} (h : quietOf s t) : SameRegisters s t := by
  obtain ⟨_, _, _, _, -, rfl⟩ := h
  exact ⟨rfl, rfl, rfl, rfl⟩

theorem hostMemWrite_sameRegisters {size : AccessSize} {a : Nat} {v : Word} {s t : State}
    (h : hostMemWrite size a v s = .next t) : SameRegisters s t := by
  unfold hostMemWrite at h
  split at h
  · cases h
  · cases h
    exact ⟨rfl, rfl, rfl, rfl⟩

/-- A step leaves every register, or it is a taken register write, a completion, or an assertion of reset. -/
theorem step_register_cases {s t : State} (h : step s = .next t) :
    SameRegisters s t ∨
    (∃ w rest, s.agenda = cmdWrite s.params w :: rest ∧ takesWrites s ∧
      writeCmd w { s with agenda := rest } = .next t) ∨
    (∃ r v rest, s.agenda = wr s.params r v :: rest ∧ r ≠ .cmd ∧ takesWrites s ∧
      t = { s with agenda := rest, regs := writeOperandReg r v s.regs }) ∨
    (∃ r bs, engineTurnNext s ∧ s.running = some r ∧ t = complete r bs { s with agenda := s.agenda.tail }) ∨
    (∃ rest, s.agenda = .resetAssert :: rest ∧ t = assertReset { s with agenda := rest }) := by
  have hengine (hn : engineTurnNext s) : SameRegisters s t ∨ ∃ r bs, engineTurnNext s ∧ s.running = some r ∧
      t = complete r bs { s with agenda := s.agenda.tail } := by
    rw [step_engine hn] at h
    rcases engineTurn_cases h with ⟨-, rfl⟩ | ⟨r, bs, hr, rfl⟩
    · exact .inl ⟨rfl, rfl, rfl, rfl⟩
    · exact .inr ⟨r, bs, hn, hr, rfl⟩
  rcases step_cases h with ⟨ha, -⟩ | ⟨e, rest, ha, he⟩
  · exact (hengine (.inl ha)).imp_right fun hc => .inr (.inr (.inl hc))
  rcases eventStep_cases he with hq | ⟨w, rfl, ht, hw⟩ | ⟨r, v, rfl, hr, ht, rfl⟩ | ⟨_, _, _, rfl, hm⟩ | ⟨rfl, -⟩ |
    ⟨rfl, rfl⟩ | ⟨rfl, rfl⟩
  · exact .inl hq.sameRegisters.of_withAgenda
  · exact .inr (.inl ⟨w, rest, ha, ht, hw⟩)
  · exact .inr (.inr (.inl ⟨r, v, rest, ha, hr, ht, rfl⟩))
  · exact .inl (hostMemWrite_sameRegisters hm).of_withAgenda
  · exact (hengine (.inr ⟨rest, ha⟩)).imp_right fun hc => .inr (.inr (.inl hc))
  · exact .inr (.inr (.inr (.inr ⟨rest, ha, rfl⟩)))
  · exact .inl ⟨rfl, rfl, rfl, rfl⟩

theorem step_params {s t : State} (h : step s = .next t) : t.params = s.params := by
  rcases step_register_cases h with hs | ⟨w, rest, -, -, hw⟩ | ⟨r, v, rest, -, -, -, rfl⟩ | ⟨r, bs, -, -, rfl⟩ |
    ⟨rest, -, rfl⟩
  · exact hs.params
  · exact (writeCmd_frame hw).2.1
  · rfl
  · rfl
  · rfl

/-! ### The obligations -/

/-- Settles O16: CAP is a function of the parameters, which no step changes. -/
theorem capIsConstant : Obligations.CapIsConstant :=
  fun _ _ h => congrArg capValue (step_params h)

/-- Settles O18: a busy engine takes no write, is out of reset, and its STATUS does not show completion. -/
theorem busyDropsRegisterWrites : Obligations.BusyDropsRegisterWrites := by
  intro s r rest hi hb
  refine ⟨fun v => step_wr_dropped (not_takesWrites_of_busy hb), step_rd (resetAsserted_false_of_busy hi hb) ?_⟩
  rw [not_showsCompletion_of_busy hb]
  exact fun hq => Bool.false_ne_true hq.2

/-- Settles O19, by the cases of `step_register_cases`. -/
theorem cmdHoldsTheLastIdleWrite : Obligations.CmdHoldsTheLastIdleWrite := by
  refine ⟨fun s t h => ?_, fun s w rest hi ht ha => ?_, fun s rest hz ha => step_rd hz (by simp) ha⟩
  · rcases step_register_cases h with hs | ⟨w, rest, ha, ht, hw⟩ | ⟨r, v, rest, -, -, -, rfl⟩ | ⟨r, bs, -, -, rfl⟩ |
      ⟨rest, ha, rfl⟩
    · exact .inl hs.cmd
    · exact .inr (.inl ⟨w, rest, ha, ht, (writeCmd_frame hw).1⟩)
    · exact .inl rfl
    · exact .inl rfl
    · exact .inr (.inr ⟨rest, ha, rfl⟩)
  · have hr := running_none_of_takesWrites hi ht
    obtain ⟨t, hw⟩ := writeCmd_next (w := w) (s := { s with agenda := rest }) hr
    exact ⟨t, (step_cmdWrite ht ha).trans hw, (writeCmd_frame hw).1⟩

theorem rejectedStatus_eq (c : ErrCode) : rejectedStatus c = BitVec.ofNat 64 (256 * errNumber c + 6) := by
  cases c <;> rfl

/-- A taken CMD write always steps, and STATUS then reports the error or shows BUSY (10_state.md R58). -/
theorem step_cmdWrite_status {s : State} {w : Word} {rest : List Event} (hi : s.Inv) (ht : takesWrites s)
    (ha : s.agenda = cmdWrite s.params w :: rest) :
    ∃ t, step s = .next t ∧ (∀ c, launchError s w c → t.status = rejectedStatus c) ∧
      ((∀ c, ¬launchError s w c) → t.status = busyStatus) := by
  have hr : State.running { s with agenda := rest } = none :=
    show s.running = none from running_none_of_takesWrites hi ht
  obtain ⟨t, hw⟩ := writeCmd_next (w := w) hr
  refine ⟨t, (step_cmdWrite ht ha).trans hw, fun c hc => ?_, fun hn => ?_⟩
  · rw [writeCmd_rejects hr hc, Host.Outcome.next.injEq] at hw
    rw [← hw, reject_status]
  · obtain ⟨i, -, hacc⟩ := writeCmd_accepts hr hn
    rw [hacc, Host.Outcome.next.injEq] at hw
    rw [← hw, accept_status]

/-- Settles O20: the changes by the cases of `step_register_cases`, each value by the lemma about its transition. -/
theorem statusChangesOnlyByItsTransitions : Obligations.StatusChangesOnlyByItsTransitions := by
  refine ⟨fun s t _ h hne => ?_, fun s rest ha => ⟨_, step_event ha, rfl⟩, fun s w rest hi ht ha => ?_,
    fun s r hi hr hn => ?_, fun s w rest hb => step_wr_dropped (not_takesWrites_of_busy hb)⟩
  · rcases step_register_cases h with hs | ⟨w, rest, ha, ht, -⟩ | ⟨r, v, rest, -, -, -, rfl⟩ | ⟨r, bs, hn, hr, rfl⟩ |
      ⟨rest, ha, rfl⟩
    · exact absurd hs.status hne
    · exact .inr (.inl ⟨w, rest, ha, ht⟩)
    · exact absurd rfl hne
    · exact .inr (.inr ⟨by rw [hr, Option.isSome_some], rfl, hn⟩)
    · exact .inl ⟨rest, ha⟩
  · simpa only [rejectedStatus_eq, busyStatus] using step_cmdWrite_status hi ht ha
  · obtain ⟨-, -, hv, hsimd, -⟩ := hi.run r hr
    obtain ⟨bs, hc⟩ := engineTurn_completes (s := { s with agenda := s.agenda.tail }) hr hv
    refine ⟨_, (step_engine hn).trans hc, ?_⟩
    rw [complete_status, doneStatus, hsimd]

/-- The fields of CAP (10_state.md R52), for each of the six widths. -/
theorem capValue_fields (p : Params) :
    (capValue p).extractLsb' 0 8 = BitVec.ofNat 8 (laneCount p.lanes) ∧
    (capValue p).extractLsb' 8 8 = 0 ∧ (capValue p).extractLsb' 16 3 = 0b111 ∧
    (capValue p).extractLsb' 19 13 = 0 ∧ (capValue p).extractLsb' 32 9 = 0x17C ∧
    (capValue p).extractLsb' 41 7 = 0 ∧ (capValue p).extractLsb' 48 3 = 0b111 ∧
    (capValue p).extractLsb' 51 13 = 0 ∧ (p.lanes = .lanes8 → capValue p = 0x0007017C00070008) := by
  unfold capValue
  cases p.lanes <;> decide

theorem step_capWrite {s : State} {v : Word} {rest : List Event} (ha : s.agenda = wr s.params .cap v :: rest) :
    step s = .next { s with agenda := rest } := by
  by_cases ht : takesWrites s
  · exact step_wr_taken ht (by decide) ha
  · exact step_wr_dropped ht ha

/-- Settles O15: the fields by `capValue_fields`, the ignored write by `step_capWrite`. -/
theorem capReportsTheCapabilities : Obligations.CapReportsTheCapabilities := by
  intro s
  obtain ⟨hlanes, h8, hfmt, h19, hbits, h41, hgroups, h51, hvalue⟩ := capValue_fields s.params
  exact ⟨hlanes, h8, hfmt, h19, hbits, h41, hgroups, h51, hvalue, fun _ _ => step_capWrite⟩

end Sys2Proof.Machine

/-! PROOFS. The buffers of each command (20_memory.md R104): the list behind a supported command, and why a packed
buffer whose rows are whole packs is a whole number of bytes. -/

namespace Sys2Proof.Machine

/-! ### The buffers of a supported command -/

section FloatCommands

variable {bits : BitVec 4} {gsize : BitVec 8} {dtype : BitVec 2} {f : FloatFields} (r : OperandRegs)

theorem commandBuffers_quantize (hf : floatFields bits gsize dtype = some f) :
    commandBuffers (.quantize bits gsize dtype) r = quantizeBuffers f r := by simp [commandBuffers, hf]

theorem commandBuffers_qmm (hf : floatFields bits gsize dtype = some f) :
    commandBuffers (.qmm bits gsize dtype) r = qmmBuffers f r := by simp [commandBuffers, hf]

theorem commandBuffers_qmmT (hf : floatFields bits gsize dtype = some f) :
    commandBuffers (.qmmT bits gsize dtype) r = qmmTBuffers f r := by simp [commandBuffers, hf]

end FloatCommands

section CodecCommands

variable {bits : BitVec 4} {w : Width} (r : OperandRegs)

theorem commandBuffers_pack (hw : widthOfField bits = some w) :
    commandBuffers (.pack bits) r = packBuffers w r := by simp [commandBuffers, hw]

theorem commandBuffers_unpack (hw : widthOfField bits = some w) :
    commandBuffers (.unpack bits) r = unpackBuffers w r := by simp [commandBuffers, hw]

end CodecCommands

/-! ### Whole bytes -/

/-- A pack is a whole number of bytes (`pack_bits`), so a matrix whose innermost dimension is a multiple of the pack
factor is too (40_codec.md R202). -/
theorem packed_bits_whole {w : Width} (rows : Nat) {cols : Nat} (h : packFactor w ∣ cols) :
    rows * cols * widthBits w % 8 = 0 := by
  have hpack : 8 ∣ packFactor w * widthBits w := pack_bits w ▸ Nat.dvd_mul_right 8 (bytesPerPack w)
  exact Nat.mod_eq_zero_of_dvd (hpack.trans (Nat.mul_dvd_mul_right (h.mul_left rows) _))

/-- A whole number of groups is a whole number of packs, at every width (`packFactor_dvd_group`). -/
theorem grouped_bits_whole (f : FloatFields) (rows : Nat) {cols : Nat} (h : cols % groupElems f.group = 0) :
    rows * cols * widthBits f.width % 8 = 0 :=
  packed_bits_whole rows ((packFactor_dvd_group f.width f.group).trans (Nat.dvd_of_mod_eq_zero h))

/-- Settles O11: each buffer list by the command's `commandBuffers` lemma, the whole bytes by `grouped_bits_whole` and
`packed_bits_whole`. -/
theorem buffersFollowTheTable : Obligations.BuffersFollowTheTable :=
  ⟨fun _ _ _ f r hf => ⟨commandBuffers_quantize r hf, commandBuffers_qmm r hf, commandBuffers_qmmT r hf,
      grouped_bits_whole f _, grouped_bits_whole f _, grouped_bits_whole f _⟩,
    fun _ _ r hw => ⟨commandBuffers_pack r hw, commandBuffers_unpack r hw,
      fun h => packed_bits_whole _ (Nat.dvd_of_mod_eq_zero h)⟩⟩

end Sys2Proof.Machine

/-! PROOFS. The decoder (30_encoding.md R155 to R161): the fields of a command word as numbers, and the words that name
no command. -/

namespace Sys2Proof

/-! ### The fields of a command word as numbers -/

theorem extractLsb'_ne_zero_iff (w : Word) (start len : Nat) :
    w.extractLsb' start len ≠ 0 ↔ w.toNat / 2 ^ start % 2 ^ len ≠ 0 := by
  rw [← BitVec.toNat_ne_iff_ne, BitVec.extractLsb'_toNat, Nat.shiftRight_eq_div_pow, BitVec.ofNat_eq_ofNat,
    BitVec.toNat_ofNat, Nat.zero_mod]

/-- Bits 63:19 are all that is left above bit 18, so they need no mask. -/
theorem highBits_ne_zero_iff (w : Word) : w.extractLsb' 19 45 ≠ 0 ↔ w.toNat / 2 ^ 19 ≠ 0 := by
  have hw : w.toNat / 2 ^ 19 < 2 ^ 45 := Nat.div_lt_of_lt_mul w.isLt
  rw [extractLsb'_ne_zero_iff, Nat.mod_eq_of_lt hw]

theorem opField_toNat (w : Word) : (opField w).toNat = w.toNat % 16 := by
  rw [opField, BitVec.extractLsb'_toNat, Nat.shiftRight_zero]

theorem transField_iff (w : Word) : transField w = true ↔ w.toNat / 2 ^ 18 % 2 = 1 := by
  rw [transField, BitVec.getLsbD, Nat.testBit_eq_decide_div_mod_eq, decide_eq_true_iff]

/-! ### The words that name no command -/

theorem exists_ite_illegal_iff {p : Prop} [Decidable p] {e : DecodeError} {d : Decoded} :
    (∃ e', (if p then .illegal e else d) = .illegal e') ↔ p ∨ ∃ e', d = .illegal e' := by
  by_cases hp : p <;> simp [hp]

/-- The reserved words of 30_encoding.md R156 and R160, by the branches of the decoder: each check answers illegal when
its bits are set, and else hands the word on. -/
theorem decode_illegal_iff (w : Word) :
    (∃ e, decode w = .illegal e) ↔
      (w.extractLsb' 19 45 ≠ 0 ∨ (transField w = true ∧ (opField w).toNat ≠ 2) ∨
        (((opField w).toNat = 3 ∨ (opField w).toNat = 4) ∧ w.extractLsb' 8 10 ≠ 0) ∨
        (opField w).toNat ∉ [1, 2, 3, 4]) := by
  rw [decode, exists_ite_illegal_iff]
  refine or_congr_right ?_
  split
  · next hop => simp [exists_ite_illegal_iff, hop]
  · next hop => by_cases ht : transField w <;> simp [hop, ht]
  · next hop =>
    rw [exists_ite_illegal_iff, exists_ite_illegal_iff]
    simp [hop]
  · next hop =>
    rw [exists_ite_illegal_iff, exists_ite_illegal_iff]
    simp [hop]
  · next h1 h2 h3 h4 =>
    have hop : (opField w).toNat ∉ [1, 2, 3, 4] := by
      simp only [List.mem_cons, List.not_mem_nil, or_false, not_or]
      exact ⟨h1, h2, h3, h4⟩
    simp [hop]

end Sys2Proof

namespace Sys2Proof.Machine

/-- An illegal word is rejected before any other check, whatever the engine holds (30_encoding.md R156). -/
theorem writeCmd_illegal {w : Word} {e : DecodeError} (s : State) (hd : decode w = .illegal e) :
    writeCmd w s = .next (reject .illegalCmd { s with cmd := w }) := by
  simp only [writeCmd, hd]

/-- Settles O8: the reserved words by `decode_illegal_iff`, with the fields read as numbers; the rejection by
`writeCmd_illegal`. -/
theorem illegalWordsAreTheReservedOnes : Obligations.IllegalWordsAreTheReservedOnes := by
  refine ⟨fun w => ?_, fun s w rest ht ha ⟨e, hd⟩ => ?_⟩
  · rw [decode_illegal_iff, highBits_ne_zero_iff, extractLsb'_ne_zero_iff, transField_iff, opField_toNat]
  · exact (step_cmdWrite ht ha).trans (writeCmd_illegal _ hd)

end Sys2Proof.Machine

/-! PROOFS. The bit codec (40_codec.md R200 to R221): a pack as the little-endian integer of its bytes, bit by bit;
packing and extracting undo each other; the per-width formulas are the extractor and the packer. -/

namespace Sys2Proof.Machine

/-! ### Bytes as a little-endian integer -/

/-- The integer whose little-endian bytes are given (00_scope.md R9): what `Memory.read` gives of bytes that stand in
memory (`Memory.read_eq_valueLE`), and the inverse of `bytesLE`. -/
def valueLE : List Byte → Nat
  | [] => 0
  | b :: bs => b.toNat + 256 * valueLE bs

/-- The `n` bytes of data memory from `a` on. -/
def Memory.bytes (m : Memory) (a n : Nat) : List Byte := (List.range n).map fun k => m.get (a + k)

@[simp] theorem Memory.length_bytes (m : Memory) (a n : Nat) : (m.bytes a n).length = n := by simp [Memory.bytes]

theorem Memory.bytes_succ (m : Memory) (a n : Nat) : m.bytes a (n + 1) = m.get a :: m.bytes (a + 1) n := by
  simp [Memory.bytes, List.range_succ_eq_map, Function.comp_def, Nat.add_assoc, Nat.add_comm 1]

theorem Memory.read_eq_valueLE (m : Memory) : ∀ n a : Nat, m.read a n = valueLE (m.bytes a n)
  | 0, _ => rfl
  | n + 1, a => by rw [Memory.read, Memory.read_eq_valueLE m n, Memory.bytes_succ, valueLE]

/-- Bytes just written stand in memory. -/
theorem Memory.bytes_setBytes {m : Memory} (a : Nat) (bs : List Byte) (hm : m.wf = true) :
    (m.setBytes a bs).bytes a bs.length = bs := by
  apply List.ext_getElem (by simp)
  intro k _ hk
  simp [Memory.bytes, Memory.get_setBytes_inside a bs k hk hm]

theorem bytesLE_valueLE : ∀ bs : List Byte, bytesLE bs.length (valueLE bs) = bs
  | [] => rfl
  | b :: bs => by
    have hq : (b.toNat + 256 * valueLE bs) / 256 = valueLE bs := by omega
    have hb : BitVec.ofNat 8 (b.toNat + 256 * valueLE bs) = b := BitVec.eq_of_toNat_eq (by
      rw [BitVec.toNat_ofNat]; omega)
    rw [List.length_cons, valueLE, bytesLE, hq, hb, bytesLE_valueLE bs]

theorem valueLE_bytesLE : ∀ n v : Nat, valueLE (bytesLE n v) = v % 256 ^ n
  | 0, v => (Nat.mod_one v).symm
  | n + 1, v => by
    rw [bytesLE, valueLE, valueLE_bytesLE n, BitVec.toNat_ofNat, pow_succ 256, Nat.mul_comm (256 ^ n), Nat.mod_mul]

theorem valueLE_lt : ∀ bs : List Byte, valueLE bs < 256 ^ bs.length
  | [] => Nat.one_pos
  | b :: bs => by
    have hbs := valueLE_lt bs
    rw [valueLE, List.length_cons, pow_succ]
    omega

/-- Bit n of the integer is bit n % 8 of byte n / 8. -/
theorem testBit_valueLE : ∀ (bs : List Byte) (n : Nat), (valueLE bs).testBit n = (bs.getD (n / 8) 0).getLsbD (n % 8)
  | [], n => by simp [valueLE]
  | b :: bs, n => by
    rw [valueLE, Nat.add_comm, show 256 = 2 ^ 8 from rfl, Nat.testBit_two_pow_mul_add _ b.isLt]
    by_cases hn : n < 8
    · rw [if_pos hn, Nat.div_eq_of_lt hn, Nat.mod_eq_of_lt hn]
      exact BitVec.testBit_toNat b
    · obtain ⟨k, rfl⟩ : ∃ k, n = k + 8 := ⟨n - 8, by omega⟩
      rw [if_neg hn, Nat.add_sub_cancel, testBit_valueLE bs k, Nat.add_div_right k (by decide), Nat.add_mod_right]
      rfl

/-! ### A pack bit by bit -/

theorem widthBits_pos (w : Width) : 0 < widthBits w := by cases w <;> decide

/-- Bit i of code j of a pack is bit j·bits + i of its integer (40_codec.md R204). -/
theorem getLsbD_codeAt (w : Width) (u j i : Nat) :
    (codeAt w u j).getLsbD i = (decide (i < widthBits w) && u.testBit (j * widthBits w + i)) := by
  rw [← BitVec.testBit_toNat, codeAt_toNat, Nat.testBit_mod_two_pow, Nat.testBit_div_two_pow, Nat.add_comm i]

/-- Bit n of a pack's scratch value is bit n % bits of code n / bits (40_codec.md R208). -/
theorem testBit_packScratch {w : Width} {cs : List Byte} (hc : ∀ c ∈ cs, c.toNat < 2 ^ widthBits w) {n : Nat}
    (hn : n < packFactor w * widthBits w) :
    (packScratch w cs).testBit n = (cs.getD (n / widthBits w) 0).getLsbD (n % widthBits w) := by
  have hfield := (packScratch_fields w cs hc).2 (n / widthBits w) (Nat.div_lt_of_lt_mul (by rwa [Nat.mul_comm]))
  rw [← BitVec.testBit_toNat, ← hfield, Nat.testBit_mod_two_pow, Nat.testBit_div_two_pow, Nat.mod_add_div']
  simp [Nat.mod_lt n (widthBits_pos w)]

theorem getElem_codesOf (w : Width) (u j : Nat) (hj : j < (codesOf w u).length) : (codesOf w u)[j] = codeAt w u j := by
  simp [codesOf]

/-! ### Packing and extracting undo each other -/

theorem codeAt_lt (w : Width) (u j : Nat) : (codeAt w u j).toNat < 2 ^ widthBits w := by
  rw [codeAt_toNat]
  exact Nat.mod_lt _ (by positivity)

theorem codesOf_lt (w : Width) (u : Nat) : ∀ c ∈ codesOf w u, c.toNat < 2 ^ widthBits w := by
  intro c hc
  obtain ⟨j, -, rfl⟩ := List.mem_map.1 hc
  exact codeAt_lt w u j

/-- The codes of the pack of codes in range are these codes (40_codec.md R210 (a)). -/
theorem codesOf_packBytes {w : Width} {cs : List Byte} (hlen : cs.length = packFactor w)
    (hc : ∀ c ∈ cs, c.toNat < 2 ^ widthBits w) : codesOf w (valueLE (packBytes w cs)) = cs := by
  obtain ⟨hlt, hfield⟩ := packScratch_fields w cs hc
  rw [packBytes, valueLE_bytesLE, Nat.mod_eq_of_lt hlt]
  apply List.ext_getElem (by simp [hlen])
  intro j _ hj
  apply BitVec.eq_of_toNat_eq
  rw [getElem_codesOf, codeAt_toNat, hfield j (hlen ▸ hj), List.getD_eq_getElem _ _ hj]

/-- The codes of an integer of a pack's size make up its bits again. -/
theorem packScratch_codesOf {w : Width} {u : Nat} (hu : u < 256 ^ bytesPerPack w) :
    packScratch w (codesOf w u) = u := by
  apply Nat.eq_of_testBit_eq
  intro n
  by_cases hn : n < packFactor w * widthBits w
  · have hj : n / widthBits w < packFactor w := Nat.div_lt_of_lt_mul (by rwa [Nat.mul_comm])
    have hcode : (codesOf w u).getD (n / widthBits w) 0 = codeAt w u (n / widthBits w) := by simp [codesOf, hj]
    rw [testBit_packScratch (codesOf_lt w u) hn, hcode, getLsbD_codeAt, Nat.div_add_mod']
    simp [Nat.mod_lt n (widthBits_pos w)]
  · have hsize : 256 ^ bytesPerPack w ≤ 2 ^ n := by
      rw [show 256 = 2 ^ 8 from rfl, ← pow_mul, ← pack_bits]
      exact Nat.pow_le_pow_right (by decide) (by omega)
    rw [Nat.testBit_lt_two_pow ((packScratch_fields w _ (codesOf_lt w u)).1.trans_le hsize),
      Nat.testBit_lt_two_pow (hu.trans_le hsize)]

/-- The pack of the codes of a pack is this pack (40_codec.md R210 (b)). -/
theorem packBytes_codesOf {w : Width} {bs : List Byte} (hlen : bs.length = bytesPerPack w) :
    packBytes w (codesOf w (valueLE bs)) = bs := by
  rw [packBytes, packScratch_codesOf (hlen ▸ valueLE_lt bs), ← hlen, bytesLE_valueLE]

theorem extract_eq_codesOf (m : Memory) (a : Nat) (w : Width) :
    extract m a w = codesOf w (valueLE (m.bytes a (bytesPerPack w))) := by rw [extract, Memory.read_eq_valueLE]

/-- Settles O32: a pack is its bytes in memory, for which `codesOf_packBytes` and `packBytes_codesOf` are the two
directions. -/
theorem packAndExtractAreInverse : Obligations.PackAndExtractAreInverse := by
  refine ⟨fun w codes m a hm hlen hc => ?_, fun w m a => ?_⟩
  · have hstored := Memory.bytes_setBytes a (packBytes w codes) hm
    rw [length_packBytes] at hstored
    rw [extract_eq_codesOf, hstored, codesOf_packBytes hlen hc]
  · rw [extract_eq_codesOf]
    exact packBytes_codesOf (Memory.length_bytes m a _)

/-- Settles O29: the tables by evaluation, the invariant by `pack_bits`. -/
theorem packGeometryTables : Obligations.PackGeometryTables := ⟨rfl, rfl, rfl, pack_bits⟩

/-! ### The decode formulas of each width -/

/-- The byte with its low k bits set. -/
def lowMask (k : Nat) : Byte := BitVec.ofNat 8 (2 ^ k - 1)

theorem getLsbD_lowMask (k i : Nat) : (lowMask k).getLsbD i = (decide (i < 8) && decide (i < k)) := by
  rw [lowMask, BitVec.getLsbD_ofNat, Nat.testBit_two_pow_sub_one]

/-- Code j of a pack cut from the bytes it lies in, as 40_codec.md R206 writes it: it lies inside byte k, or ends with
it, or goes on in byte k + 1. -/
def codeFormula (w : Width) (bs : List Byte) (j : Nat) : Byte :=
  let k := j * widthBits w / 8
  let s := j * widthBits w % 8
  if s + widthBits w < 8 then (bs.getD k 0 >>> s) &&& lowMask (widthBits w)
  else if s + widthBits w = 8 then bs.getD k 0 >>> s
  else (bs.getD k 0 >>> s) ||| ((bs.getD (k + 1) 0 &&& lowMask (s + widthBits w - 8)) <<< (8 - s))

/-- Each bit of the code is the bit of byte k or of byte k + 1 that the formula puts there. -/
theorem codeAt_valueLE (w : Width) (bs : List Byte) (j : Nat) : codeAt w (valueLE bs) j = codeFormula w bs j := by
  have hb : widthBits w ≤ 8 := by cases w <;> decide
  obtain ⟨k, s, hs, hpos⟩ : ∃ k s, s < 8 ∧ j * widthBits w = 8 * k + s :=
    ⟨_, _, Nat.mod_lt _ (by decide), (Nat.div_add_mod _ 8).symm⟩
  have hk : (8 * k + s) / 8 = k := by omega
  have hmod : (8 * k + s) % 8 = s := by omega
  apply BitVec.eq_of_getLsbD_eq
  intro i hi
  simp only [getLsbD_codeAt, testBit_valueLE, codeFormula, hpos, hk, hmod]
  by_cases hbyte : s + i < 8
  · -- The bit lies in byte k.
    rw [show (8 * k + s + i) / 8 = k by omega, show (8 * k + s + i) % 8 = s + i by omega]
    split
    · rw [BitVec.getLsbD_and, BitVec.getLsbD_ushiftRight, getLsbD_lowMask]
      simp [hi, Bool.and_comm]
    · split
      · simp [show i < widthBits w by omega]
      · rw [BitVec.getLsbD_or, BitVec.getLsbD_ushiftRight, BitVec.getLsbD_shiftLeft]
        simp [show i < widthBits w by omega, show i < 8 - s by omega]
  · -- The bit lies in byte k + 1, or above the code.
    rw [show (8 * k + s + i) / 8 = k + 1 by omega, show (8 * k + s + i) % 8 = i - (8 - s) by omega]
    have htop : (bs.getD k 0).getLsbD (s + i) = false := BitVec.getLsbD_of_ge _ _ (by omega)
    split
    · rw [BitVec.getLsbD_and, BitVec.getLsbD_ushiftRight, htop]
      simp [show ¬ i < widthBits w by omega]
    · split
      · rw [BitVec.getLsbD_ushiftRight, htop]
        simp [show ¬ i < widthBits w by omega]
      · rw [BitVec.getLsbD_or, BitVec.getLsbD_ushiftRight, htop, BitVec.getLsbD_shiftLeft, BitVec.getLsbD_and,
          getLsbD_lowMask]
        simp [hi, show ¬ i < 8 - s by omega, show i - (8 - s) < 8 by omega,
          show i - (8 - s) < s + widthBits w - 8 ↔ i < widthBits w by omega, Bool.and_comm]

theorem extract3_eq_codesOf (b0 b1 b2 : Byte) : extract3 b0 b1 b2 = codesOf .w3 (valueLE [b0, b1, b2]) := by
  rw [codesOf, funext (codeAt_valueLE .w3 [b0, b1, b2])]
  rfl

theorem extract5_eq_codesOf (b0 b1 b2 b3 b4 : Byte) :
    extract5 b0 b1 b2 b3 b4 = codesOf .w5 (valueLE [b0, b1, b2, b3, b4]) := by
  rw [codesOf, funext (codeAt_valueLE .w5 _)]
  rfl

theorem extract6_eq_codesOf (b0 b1 b2 : Byte) : extract6 b0 b1 b2 = codesOf .w6 (valueLE [b0, b1, b2]) := by
  rw [codesOf, funext (codeAt_valueLE .w6 _)]
  rfl

/-- Settles O30: the formulas are `codeFormula` at each code of the pack (`extract3_eq_codesOf` and its like), and the
integer is that of the pack's bytes. -/
theorem decodeFormulasEqualTheExtractor : Obligations.DecodeFormulasEqualTheExtractor := by
  have hvalue3 (b0 b1 b2 : Byte) :
      b0.toNat + 2 ^ 8 * b1.toNat + 2 ^ 16 * b2.toNat = valueLE [b0, b1, b2] := by
    simp only [valueLE]
    ring
  have hvalue5 (b0 b1 b2 b3 b4 : Byte) :
      b0.toNat + 2 ^ 8 * b1.toNat + 2 ^ 16 * b2.toNat + 2 ^ 24 * b3.toNat + 2 ^ 32 * b4.toNat =
        valueLE [b0, b1, b2, b3, b4] := by
    simp only [valueLE]
    ring
  refine ⟨fun b0 b1 b2 => ?_, fun b0 b1 b2 b3 b4 => ?_⟩
  · rw [hvalue3]
    exact ⟨extract3_eq_codesOf b0 b1 b2, extract6_eq_codesOf b0 b1 b2⟩
  · rw [hvalue5]
    exact extract5_eq_codesOf b0 b1 b2 b3 b4

/-! ### The encode formulas of each width -/

theorem bytesLE_eq_map : ∀ n v : Nat, bytesLE n v = (List.range n).map fun k => BitVec.ofNat 8 (v >>> (8 * k))
  | 0, _ => rfl
  | n + 1, v => by
    rw [bytesLE, bytesLE_eq_map n, List.range_succ_eq_map, List.map_cons, List.map_map]
    simp [Function.comp_def, Nat.mul_succ, Nat.add_comm _ 8, Nat.shiftRight_add, Nat.shiftRight_eq_div_pow v 8]

/-- What a code whose bit 0 is bit p of a pack puts into the byte whose bit 0 is bit q. -/
def codeInByte (c : Byte) (p q : Nat) : Byte := if q ≤ p then c <<< (p - q) else c >>> (q - p)

theorem ofNat_shiftLeft_shiftRight (c : Byte) (p q : Nat) :
    BitVec.ofNat 8 (c.toNat <<< p >>> q) = codeInByte c p q := by
  apply BitVec.eq_of_getLsbD_eq
  intro i hi
  rw [BitVec.getLsbD_ofNat, Nat.testBit_shiftRight, Nat.testBit_shiftLeft, BitVec.testBit_toNat, codeInByte]
  split
  · next h =>
    rw [BitVec.getLsbD_shiftLeft, show q + i - p = i - (p - q) by omega,
      decide_eq_decide.2 (show q + i ≥ p ↔ ¬ i < p - q by omega), decide_not, Bool.and_assoc]
  · next h =>
    rw [BitVec.getLsbD_ushiftRight, show q + i - p = q - p + i by omega]
    simp [hi, show p ≤ q + i by omega]

/-- Byte k of a pack is the OR of what each code puts into it (40_codec.md R208). -/
theorem packBytes_eq_map (w : Width) (cs : List Byte) : packBytes w cs = (List.range (bytesPerPack w)).map fun k =>
    (List.range (packFactor w)).foldl (fun v j => v ||| codeInByte (cs.getD j 0) (j * widthBits w) (8 * k)) 0 := by
  rw [packBytes, bytesLE_eq_map]
  refine List.map_congr_left fun k _ => ?_
  have hzero : BitVec.ofNat 8 (0 >>> (8 * k)) = 0 := by simp
  have hbyte := List.foldl_hom (fun u => BitVec.ofNat 8 (u >>> (8 * k))) (init := 0) (l := List.range (packFactor w))
    (g₁ := fun u j => u ||| (cs.getD j 0).toNat <<< (j * widthBits w))
    (g₂ := fun v j => v ||| codeInByte (cs.getD j 0) (j * widthBits w) (8 * k)) fun u j => by
      rw [Nat.shiftRight_or_distrib, BitVec.ofNat_or, ofNat_shiftLeft_shiftRight]
  rw [hzero] at hbyte
  exact hbyte.symm

/-- Codes below 2^b put nothing into the byte that begins b bits or more after their first bit. -/
theorem shiftRight_eq_zero_of_mem {cs : List Byte} {b : Nat} (hc : ∀ c ∈ cs, c.toNat < 2 ^ b) :
    ∀ c ∈ cs, ∀ s, b ≤ s → c >>> s = 0 := by
  intro c hm s hs
  apply BitVec.eq_of_toNat_eq
  have hlt : c.toNat < 2 ^ s := (hc c hm).trans_le (Nat.pow_le_pow_right (by decide) hs)
  rw [BitVec.toNat_ushiftRight, Nat.shiftRight_eq_div_pow, Nat.div_eq_of_lt hlt]
  rfl

/-- The bits that a shift moves out of the byte need not be masked off first. -/
theorem and_lowMask_shiftLeft {c mask : Byte} {s : Nat} (hmask : mask.toNat = (lowMask (8 - s)).toNat) :
    (c &&& mask) <<< s = c <<< s := by
  apply BitVec.eq_of_getLsbD_eq
  intro i hi
  simp only [BitVec.eq_of_toNat_eq hmask, BitVec.getLsbD_shiftLeft, BitVec.getLsbD_and, getLsbD_lowMask]
  by_cases hs : i < s
  · simp [hs]
  · simp [show i - s < 8 - s by omega, show i - s < 8 by omega]

section EncodeFormulas

variable {c0 c1 c2 c3 c4 c5 c6 c7 : Byte}

theorem pack3_eq_packBytes (hc : ∀ c ∈ [c0, c1, c2, c3, c4, c5, c6, c7], c.toNat < 2 ^ 3) :
    pack3 c0 c1 c2 c3 c4 c5 c6 c7 = packBytes .w3 [c0, c1, c2, c3, c4, c5, c6, c7] := by
  have hgone := shiftRight_eq_zero_of_mem hc
  simp only [List.forall_mem_cons] at hgone
  rw [packBytes_eq_map]
  simp [pack3, packFactor, widthBits, bytesPerPack, codeInByte, List.range_succ, hgone, and_lowMask_shiftLeft, lowMask]

theorem pack5_eq_packBytes (hc : ∀ c ∈ [c0, c1, c2, c3, c4, c5, c6, c7], c.toNat < 2 ^ 5) :
    pack5 c0 c1 c2 c3 c4 c5 c6 c7 = packBytes .w5 [c0, c1, c2, c3, c4, c5, c6, c7] := by
  have hgone := shiftRight_eq_zero_of_mem hc
  simp only [List.forall_mem_cons] at hgone
  rw [packBytes_eq_map]
  simp [pack5, packFactor, widthBits, bytesPerPack, codeInByte, List.range_succ, hgone, and_lowMask_shiftLeft, lowMask]

theorem pack6_eq_packBytes (hc : ∀ c ∈ [c0, c1, c2, c3], c.toNat < 2 ^ 6) :
    pack6 c0 c1 c2 c3 = packBytes .w6 [c0, c1, c2, c3] := by
  have hgone := shiftRight_eq_zero_of_mem hc
  simp only [List.forall_mem_cons] at hgone
  rw [packBytes_eq_map]
  simp [pack6, packFactor, widthBits, bytesPerPack, codeInByte, List.range_succ, hgone, and_lowMask_shiftLeft, lowMask]

end EncodeFormulas

/-- Settles O31: the formulas give the packer's bytes (`pack3_eq_packBytes` and its like), of which the decode formulas,
being the extractor, give the codes back (`codesOf_packBytes`). -/
theorem encodeFormulasEqualThePacker : Obligations.EncodeFormulasEqualThePacker := by
  refine ⟨fun _ _ _ _ _ _ _ _ hc => ⟨pack3_eq_packBytes hc, fun b0 b1 b2 hb => ?_⟩,
    fun _ _ _ _ _ _ _ _ hc => ⟨pack5_eq_packBytes hc, fun b0 b1 b2 b3 b4 hb => ?_⟩,
    fun _ _ _ _ hc => ⟨pack6_eq_packBytes hc, fun b0 b1 b2 hb => ?_⟩⟩
  · rw [extract3_eq_codesOf, ← hb, pack3_eq_packBytes hc]
    exact codesOf_packBytes rfl hc
  · rw [extract5_eq_codesOf, ← hb, pack5_eq_packBytes hc]
    exact codesOf_packBytes rfl hc
  · rw [extract6_eq_codesOf, ← hb, pack6_eq_packBytes hc]
    exact codesOf_packBytes rfl hc

/-! ### PACK and UNPACK in flight -/

theorem maskCode_toNat (w : Width) (c : Byte) : (maskCode w c).toNat = c.toNat % 2 ^ widthBits w := by
  have hmask : nBins w % 2 ^ 8 = 2 ^ widthBits w - 1 := by cases w <;> rfl
  rw [maskCode, BitVec.toNat_and, BitVec.toNat_ofNat, hmask, Nat.and_two_pow_sub_one_eq_mod]

/-- A code in range is its own low bits. -/
theorem maskCode_of_lt {w : Width} {c : Byte} (hc : c.toNat < 2 ^ widthBits w) : maskCode w c = c :=
  BitVec.eq_of_toNat_eq (by rw [maskCode_toNat, Nat.mod_eq_of_lt hc])

theorem packCodes_lt (w : Width) (r : OperandRegs) (m : Memory) (p : Nat) :
    ∀ c ∈ packCodes w r m p, c.toNat < 2 ^ widthBits w := by
  intro c hc
  obtain ⟨j, -, rfl⟩ := List.mem_map.1 hc
  rw [maskCode_toNat]
  exact Nat.mod_lt _ (by positivity)

theorem getD_packCodes (w : Width) (r : OperandRegs) (m : Memory) (p : Nat) {j : Nat} (hj : j < packFactor w) :
    (packCodes w r m p).getD j 0 = maskCode w (m.get (r.xAddr.toNat + (p * packFactor w + j))) := by
  simp [packCodes, hj, Nat.add_assoc]

/-- A command in flight whose buffers the host has not touched completes with its outputs written over memory. -/
theorem exec_inFlight {s : State} {r : Run} {i : Instr} {bs : List Block} (hr : inFlight s r i)
    (hb : commandBlocks i r s.params s.draws s.mem = some bs) :
    exec i s = .next (completedWith s r r.simd (s.mem.setBlocks bs)) := by
  obtain ⟨hrun, hinstr, hwritten⟩ := hr
  have hcommit : commit r s.draws bs s.mem = s.mem.setBlocks bs := by simp [commit, hwritten]
  rw [exec_running hrun hinstr, hb, finish, complete, completedWith, hcommit]

section CodecRuns

variable {s : State} {r : Run} {bits : BitVec 4} {w : Width}

theorem exec_pack_inFlight (hr : inFlight s r (.pack bits)) (hw : widthOfField bits = some w) :
    exec (.pack bits) s =
      .next (completedWith s r r.simd (s.mem.setBlocks (packBlocks w r.latched s.mem))) :=
  exec_inFlight hr (by rw [commandBlocks, hw, Option.map_some])

theorem exec_unpack_inFlight (hr : inFlight s r (.unpack bits)) (hw : widthOfField bits = some w) :
    exec (.unpack bits) s =
      .next (completedWith s r r.simd (s.mem.setBlocks (unpackBlocks w r.latched s.mem))) :=
  exec_inFlight hr (by rw [commandBlocks, hw, Option.map_some])

/-- The matrix of an accepted PACK is whole packs (60_exceptions.md R404). -/
theorem packFactor_dvd_of_pack (hi : s.Inv) (hr : inFlight s r (.pack bits)) (hw : widthOfField bits = some w) :
    packFactor w ∣ matrixSize r.latched := by
  obtain ⟨hrun, hinstr, -⟩ := hr
  have hvalid := (hi.run r hrun).valid
  simp only [hinstr, commandCheck, packCheck, hw] at hvalid
  exact matrix_dvd (checkShape_none hvalid).1

end CodecRuns

/-- Code i of PACK's output is code byte i reduced to its low bits (40_codec.md R220, R211). -/
theorem codeOfBuffer_packBlocks {w : Width} {r : OperandRegs} {m : Memory} (hm : m.wf = true)
    (hd : packFactor w ∣ matrixSize r) {i : Nat} (hi : i < matrixSize r) :
    codeOfBuffer (m.setBlocks (packBlocks w r m)) r.wAddr.toNat w i = maskCode w (m.get (r.xAddr.toNat + i)) := by
  have hpack : i / packFactor w < matrixSize r / packFactor w := Nat.div_lt_div_of_lt_of_dvd hd hi
  have hj : i % packFactor w < packFactor w := Nat.mod_lt i (packFactor_pos w)
  have hbytes : ∀ k < matrixSize r / packFactor w * bytesPerPack w,
      some ((m.setBlocks (packBlocks w r m)).get (r.wAddr.toNat + k)) =
        ((List.range (matrixSize r / packFactor w)).flatMap fun p => packBytes w (packCodes w r m p))[k]? := by
    intro k hk
    refine Memory.getElem?_setBytes _ _ hm ?_
    rwa [length_flatMap_const _ (bytesPerPack w) _ fun _ _ => length_packBytes _ _, List.length_range]
  have hcode := codeOfBuffer_of_packs (fun p _ => packCodes_lt w r m p) hbytes hpack hj
  rwa [getD_packCodes w r m _ hj, Nat.div_add_mod'] at hcode

/-- Byte i of UNPACK's output is code i of the packed input (40_codec.md R230, R211). -/
theorem get_unpackBlocks {w : Width} {r : OperandRegs} {m : Memory} (hm : m.wf = true)
    (hd : packFactor w ∣ matrixSize r) {i : Nat} (hi : i < matrixSize r) :
    (m.setBlocks (unpackBlocks w r m)).get (r.oAddr.toNat + i) = codeOfBuffer m r.wAddr.toNat w i := by
  have hpack : i / packFactor w < matrixSize r / packFactor w := Nat.div_lt_div_of_lt_of_dvd hd hi
  have hj : i % packFactor w < packFactor w := Nat.mod_lt i (packFactor_pos w)
  have hbyte := getElem?_flatMap_range (fun p => extract m (r.wAddr.toNat + p * bytesPerPack w) w) (packFactor w) _ _ _
    (fun _ _ => length_extract _ _ _) hpack hj
  rw [Nat.div_add_mod'] at hbyte
  apply Option.some_injective
  refine (Memory.getElem?_setBytes _ _ hm ?_).trans (hbyte.trans ?_)
  · rwa [length_flatMap_const _ (packFactor w) _ fun _ _ => length_extract _ _ _, List.length_range,
      Nat.div_mul_cancel hd]
  · rw [List.getElem?_eq_getElem (by simpa using hj)]
    exact congrArg some (getElem_codesOf _ _ _ _)

/-- Settles O36: UNPACK's byte i is code i of the packed buffer (`get_unpackBlocks`), which PACK made of code byte i
(`codeOfBuffer_packBlocks`), which is its own low bits. -/
theorem packThenUnpackRestoresTheCodes : Obligations.PackThenUnpackRestoresTheCodes := by
  intro s t u r q bits w hs hu hr ht htu hq hw hrows hcols hwAddr hcodes
  have hd := packFactor_dvd_of_pack hs hr hw
  have hsize : matrixSize q.latched = matrixSize r.latched := by rw [matrixSize, matrixSize, hrows, hcols]
  have hpacked : u.mem = s.mem.setBlocks (packBlocks w r.latched s.mem) := by
    cases ht.symm.trans (exec_pack_inFlight hr hw)
    exact htu
  refine ⟨_, exec_unpack_inFlight hq hw, fun i hi => ?_⟩
  calc (u.mem.setBlocks (unpackBlocks w q.latched u.mem)).get (q.latched.oAddr.toNat + i)
      = codeOfBuffer u.mem q.latched.wAddr.toNat w i := get_unpackBlocks hu.memWf (hsize ▸ hd) (hsize ▸ hi)
    _ = maskCode w (s.mem.get (r.latched.xAddr.toNat + i)) := by
        rw [hpacked, hwAddr]
        exact codeOfBuffer_packBlocks hs.memWf hd hi
    _ = s.mem.get (r.latched.xAddr.toNat + i) := maskCode_of_lt (hcodes i hi)

end Sys2Proof.Machine

/-! PROOFS. The group parameters (41_quantize.md R252 to R256, R262): zeros under each primitive that the quantizer
uses, when `RN_F` stays finite, and the lower bound that `eps` puts under the initial scale. -/

namespace Sys2Proof.Machine

/-! ### Zeros of either sign -/

theorem isZero_iff (v : FVal) : isZero v = true ↔ ∃ s, v = .fin s 0 := by
  cases v <;> simp [isZero]

theorem fSub_zeros (t : Fmt) (a b : Bool) : fSub t (.fin a 0) (.fin b 0) = .fin (a && !b) 0 := by
  cases a <;> cases b <;> rfl

theorem fDiv_zero (t : Fmt) (a b : Bool) {m : Nat} (hm : m ≠ 0) : fDiv t (.fin a 0) (.fin b m) = .fin (a != b) 0 := by
  rw [fDiv, if_neg hm, roundReal_zero]

theorem fRint_zero (s : Bool) : fRint (.fin s 0) = .fin s 0 := by
  have h := nearestEven_mul 0 oneMag_pos
  rw [Nat.zero_mul] at h
  rw [fRint, h, Nat.zero_mul]

/-- Whichever zero the free choice of R17 picks, it is a zero. -/
theorem min32_zeros (a b : Bool) : ∃ s, min32 (.fin a 0) (.fin b 0) = .fin s 0 := by
  unfold min32
  split_ifs <;> exact ⟨_, rfl⟩

theorem max32_zeros (a b : Bool) : ∃ s, max32 (.fin a 0) (.fin b 0) = .fin s 0 := by
  unfold max32
  split_ifs <;> exact ⟨_, rfl⟩

/-- An extremum of zeros is a zero, when `pick` of two zeros is one. -/
theorem extremum_zeros {pick : FVal → FVal → FVal} (hp : ∀ a b, ∃ s, pick (.fin a 0) (.fin b 0) = .fin s 0) :
    ∀ {ws : List FVal}, (∀ v ∈ ws, ∃ s, v = .fin s 0) → ∃ s, extremum pick ws = .fin s 0
  | [], _ => ⟨false, rfl⟩
  | v :: vs, h => by
    obtain ⟨hv, hvs⟩ := List.forall_mem_cons.1 h
    refine List.foldlRecOn (motive := fun v => ∃ s, v = .fin s 0) vs pick hv ?_
    rintro _ ⟨a, rfl⟩ u hu
    obtain ⟨b, rfl⟩ := hvs u hu
    exact hp a b

/-! ### When `RN_F` stays finite -/

/-- Rounding at most doubles a magnitude, or gives at most twice the format's least positive value. -/
theorem roundMag_le (t : Fmt) (num den : Nat) :
    roundMag t num den ≤ 2 * max 1 (num * 2 ^ leastExp t / den) * 2 ^ (unitExp - leastExp t) := by
  simp only [roundMag]
  generalize num * 2 ^ leastExp t = n
  generalize hk : Nat.log2 (n / den) - fracBits t = k
  have hpow : 2 ^ k ≤ max 1 (n / den) := by
    have hle : 2 ^ k ≤ 2 ^ Nat.log2 (n / den) := Nat.pow_le_pow_right two_pos (by omega)
    rcases eq_or_ne (n / den) 0 with h0 | h0
    · rw [h0] at hle
      exact le_max_of_le_left hle
    · exact le_max_of_le_right (hle.trans (Nat.log2_self_le h0))
  refine Nat.mul_le_mul_right _ ?_
  calc nearestEven n (den * 2 ^ k) * 2 ^ k
      ≤ (n / den / 2 ^ k + 1) * 2 ^ k :=
        Nat.mul_le_mul_right _ (Nat.div_div_eq_div_mul n den _ ▸ nearestEven_le_succ n (den * 2 ^ k))
    _ = n / den / 2 ^ k * 2 ^ k + 2 ^ k := Nat.succ_mul _ _
    _ ≤ 2 * max 1 (n / den) := by
        have := Nat.div_mul_le_self (n / den) (2 ^ k)
        omega

theorem roundReal_cases (t : Fmt) (neg : Bool) (num den : Nat) :
    roundReal t neg num den = .inf neg ∨ ∃ m < overflowMag t, roundReal t neg num den = .fin neg m := by
  simp only [roundReal]
  split_ifs with h
  · exact .inl rfl
  · exact .inr ⟨_, not_le.1 h, rfl⟩

theorem roundInt_cases (t : Fmt) (zeroNeg : Bool) (i : Int) (den : Nat) :
    roundInt t zeroNeg i den = .inf (decide (i < 0)) ∨
    ∃ s, ∃ m < overflowMag t, roundInt t zeroNeg i den = .fin s m := by
  unfold roundInt
  split_ifs
  · exact .inr ⟨zeroNeg, 0, Nat.two_pow_pos _, rfl⟩
  · exact (roundReal_cases t _ _ den).imp_right fun h => ⟨_, h⟩

theorem signed_not (s : Bool) (m : Nat) : signed (!s) m = -signed s m := by cases s <;> simp [signed]

/-- The difference of finite data that are not out of order overflows to +∞ or is finite. -/
theorem fSub_cases (t : Fmt) {a b : FVal} (ha : nonFinite a = false) (hb : nonFinite b = false)
    (hab : fLt a b = false) : fSub t a b = .inf false ∨ ∃ s, ∃ m < overflowMag t, fSub t a b = .fin s m := by
  cases a with
  | nan => cases ha
  | inf => cases ha
  | fin sa ma =>
    cases b with
    | nan => cases hb
    | inf => cases hb
    | fin sb mb =>
      have hle : ¬signed sa ma + signed (!sb) mb < 0 := by
        have := of_decide_eq_false hab
        rw [signed_not]
        omega
      have h := roundInt_cases t (sa && !sb) (signed sa ma + signed (!sb) mb) oneMag
      rwa [decide_eq_false hle] at h

/-- A finite binary32 datum divided by an integer of 2 or more does not overflow. -/
theorem fDiv_fOfNat_fin (s : Bool) {m n : Nat} (hm : m < overflowMag .f32) (hn : 2 ≤ n) :
    ∃ q, fDiv .f32 (.fin s m) (fOfNat n) = .fin s q := by
  have hden : n * oneMag ≠ 0 := Nat.mul_ne_zero (by omega) oneMag_pos.ne'
  have hquot : m * 2 ^ leastExp .f32 / (n * oneMag) = m / n := Nat.mul_div_mul_right m n oneMag_pos
  have hmag : roundMag .f32 m (n * oneMag) < overflowMag .f32 := by
    have hle := roundMag_le .f32 m (n * oneMag)
    rw [hquot, show unitExp - leastExp .f32 = 0 from rfl, pow_zero, mul_one] at hle
    have htwo : 2 ^ 1 < overflowMag .f32 := Nat.pow_lt_pow_right one_lt_two (by decide)
    have hhalf : m / n * 2 ≤ m := (Nat.mul_le_mul_left _ hn).trans (Nat.div_mul_le_self m n)
    omega
  exact ⟨roundMag .f32 m (n * oneMag), by
    simp only [fDiv, fOfNat, if_neg hden, roundReal, if_neg hmag.not_ge, Bool.bne_false]⟩

/-! ### The initial scale -/

theorem three_le_nBins (w : Width) : 3 ≤ nBins w := by cases w <;> decide

theorem max32_epsVal (s : Bool) (m : Nat) :
    max32 (.fin s m) epsVal = if signed s m < (0xD6BF95 * 2 ^ 102 : ℕ) then epsVal else .fin s m := by
  cases m <;> simp [max32, oppositeZeros, epsVal, fLt, signed]

theorem max32_epsVal_zero (s : Bool) : max32 (.fin s 0) epsVal = epsVal := by
  cases s <;> simp [max32_epsVal, signed]

theorem max32_epsVal_ge (s : Bool) (m : Nat) :
    ∃ k, max32 (.fin s m) epsVal = .fin false k ∧ 0xD6BF95 * 2 ^ 102 ≤ k := by
  rw [max32_epsVal]
  split_ifs with h
  · exact ⟨_, rfl, le_rfl⟩
  · cases s with
    | false => exact ⟨m, rfl, by simpa [signed] using h⟩
    | true => exact absurd h (by simp [signed]; omega)

theorem initialScale_ieee (w : Width) (wMin wMax : FVal) : initialScale Numerics.ieee w wMin wMax =
    max32 (fDiv .f32 (fSub .f32 wMax wMin) (fOfNat (nBins w))) epsVal := rfl

/-- The spec's encoding of `eps` (41_quantize.md R253). -/
theorem decodeFmt_eps : decodeFmt .f32 0x33D6BF95 = epsVal := by decide

theorem representable_nBins (w : Width) : representable .f32 (fOfNat (nBins w)) :=
  (representable_f32_fin_iff false _).2 ⟨nBins w, 149, by cases w <;> decide, by decide, rfl⟩

/-- Settles O43: an overflowing difference is +∞ (`fSub_cases`) and stays it; a finite one has a finite quotient
(`fDiv_fOfNat_fin`), which `eps` bounds from below (`max32_epsVal_ge`). -/
theorem initialScaleIsAtLeastEps : Obligations.InitialScaleIsAtLeastEps := by
  refine ⟨decodeFmt_eps, representable_nBins, fun nm w wMin wMax => by rw [decodeFmt_eps]; rfl, ?_⟩
  intro w wMin wMax hmin hmax hle
  rw [initialScale_ieee]
  rcases fSub_cases .f32 hmax hmin hle with h | ⟨s, m, hm, h⟩
  · rw [h]
    exact ⟨fun _ => rfl, nofun⟩
  · obtain ⟨q, hq⟩ := fDiv_fOfNat_fin s hm ((three_le_nBins w).trans' (by decide))
    rw [h, hq]
    exact ⟨nofun, fun _ => max32_epsVal_ge s q⟩

/-! ### The edge and the refinement -/

theorem signAndEdge_fin (sMin sMax : Bool) (mMin mMax : Nat) (scale : FVal) :
    signAndEdge (.fin sMin mMin) (.fin sMax mMax) scale =
      if mMax < mMin then (scale, .fin sMin mMin) else (fNeg scale, .fin sMax mMax) := by
  simp [signAndEdge, fAbs, fLt, signed]

/-- Settles O42: the magnitudes of finite extrema compare as integers (`signAndEdge_fin`). -/
theorem quantizerTieBreakIsStrict : Obligations.QuantizerTieBreakIsStrict := by
  intro sMin sMax mMin mMax scale
  rw [signAndEdge_fin]
  exact ⟨fun h => if_pos h, fun h => if_neg h.not_gt⟩

theorem refine_of_zero {nm : Numerics} {scale edge : FVal} {s : Bool}
    (h : nm.rint (nm.div .f32 edge scale) = .fin s 0) : refine nm scale edge = (scale, .fin false 0) :=
  if_pos ((isZero_iff _).2 ⟨s, h⟩)

theorem refine_of_ne_zero {nm : Numerics} {scale edge : FVal}
    (h : ∀ s, nm.rint (nm.div .f32 edge scale) ≠ .fin s 0) :
    refine nm scale edge = (nm.div .f32 edge (nm.rint (nm.div .f32 edge scale)), edge) :=
  if_neg fun hz => ((isZero_iff _).1 hz).elim h

/-- Settles O44: the test of q0 holds exactly of the zeros of either sign (`isZero_iff`). -/
theorem refinementTestsTheQuotientAsANumber : Obligations.RefinementTestsTheQuotientAsANumber := by
  intro nm scale edge
  refine ⟨fun _ => refine_of_zero, ?_⟩
  rintro _ rfl hne
  exact refine_of_ne_zero hne

/-! ### Groups of zeros -/

theorem initialScale_zeros (w : Width) (a b : Bool) :
    initialScale Numerics.ieee w (.fin a 0) (.fin b 0) = epsVal := by
  have hn : nBins w * oneMag ≠ 0 := (Nat.mul_pos ((three_le_nBins w).trans_lt' three_pos) oneMag_pos).ne'
  rw [initialScale_ieee, fSub_zeros, fOfNat, fDiv_zero _ _ _ hn, max32_epsVal_zero]

/-- A zero divided by -eps rounds to a zero. -/
theorem fRint_zero_div_eps (s : Bool) : ∃ s', fRint (fDiv .f32 (.fin s 0) (fNeg epsVal)) = .fin s' 0 :=
  ⟨_, (congrArg fRint (fDiv_zero .f32 s true (by decide))).trans (fRint_zero _)⟩

theorem groupParams_zeros (w : Width) {ws : List FVal} (h : ∀ v ∈ ws, ∃ s, v = .fin s 0) :
    groupParams Numerics.ieee w ws = (fNeg epsVal, .fin false 0) := by
  obtain ⟨sMin, hmin⟩ := extremum_zeros min32_zeros h
  obtain ⟨sMax, hmax⟩ := extremum_zeros max32_zeros h
  have hedge : signAndEdge (.fin sMin 0) (.fin sMax 0) epsVal = (fNeg epsVal, .fin sMax 0) := signAndEdge_fin ..
  obtain ⟨s, hq0⟩ := fRint_zero_div_eps sMax
  have hrefine : refine Numerics.ieee (fNeg epsVal) (.fin sMax 0) = (fNeg epsVal, .fin false 0) :=
    refine_of_zero (s := s) (by rw [ieee_rint, ieee_div, hq0])
  simp only [groupParams, ieee_min32, ieee_max32, hmin, hmax, initialScale_zeros, hedge, hrefine]

theorem clamp32_zero (s : Bool) (n : Nat) : ∃ s', clamp32 Numerics.ieee (.fin s 0) (.fin false 0) (fOfNat (n + 1)) =
    .fin s' 0 := by
  obtain ⟨s', h⟩ := max32_zeros s false
  have hne : (n + 1) * oneMag ≠ 0 := (Nat.mul_pos n.succ_pos oneMag_pos).ne'
  refine ⟨s', ?_⟩
  rw [clamp32, ieee_max32, ieee_min32, h, fOfNat, min32]
  simp [oppositeZeros, fLt, signed, hne]

theorem quantCode_zero (w : Width) (draw index : Nat) (s : Bool) :
    quantCode Numerics.ieee w draw index (fNeg epsVal) (.fin false 0) (.fin s 0) = 0 := by
  obtain ⟨s', ht⟩ := fRint_zero_div_eps (s && !false)
  obtain ⟨s'', hc⟩ := clamp32_zero s' (nBins w - 1)
  rw [Nat.sub_add_cancel ((three_le_nBins w).trans' (by decide))] at hc
  simp only [quantCode, ieee_sub, ieee_div, ieee_rint, fSub_zeros, ht, hc, ieee_toU, toU]
  simp

/-- Settles O46: the extrema are zeros whatever the free choice of R17 (`min32_zeros`, `max32_zeros`), so the scale
before the sign is eps, q0 is a zero, and each element's quotient is a zero. -/
theorem signedZerosDoNotMatter : Obligations.SignedZerosDoNotMatter := by
  intro w ws _ h
  refine ⟨groupParams_zeros w h, fun v hv draw index => ?_⟩
  obtain ⟨s, rfl⟩ := h v hv
  exact quantCode_zero w draw index s

end Sys2Proof.Machine

/-! PROOFS. The matrix products (42_qmm.md R300 to R317): each kernel's loop nest as one fold for each output element,
and the row-major output in data memory. -/

namespace Sys2Proof.Machine

/-! ### `simd_ok` and the datapath of a command -/

/-- `simd_ok` in the terms of the extractor: packs are 32-bit words, and the lanes take whole words (42_qmm.md R312). -/
theorem simdOk_iff (lanes : SimdLanes) (w : Width) :
    simdOk lanes w = true ↔ (w = .w4 ∨ w = .w8) ∧ packFactor w ∣ laneCount lanes := by
  cases w <;> simp [simdOk, widthBits, packFactor, Nat.dvd_iff_mod_eq_zero]

theorem four_dvd_laneCount_iff (lanes : SimdLanes) :
    4 ∣ laneCount lanes ↔ lanes = .lanes4 ∨ lanes = .lanes8 ∨ lanes = .lanes16 ∨ lanes = .lanes32 := by
  cases lanes <;> decide

theorem eight_dvd_laneCount_iff (lanes : SimdLanes) :
    8 ∣ laneCount lanes ↔ lanes = .lanes8 ∨ lanes = .lanes16 ∨ lanes = .lanes32 := by
  cases lanes <;> decide

theorem qmmTSimd_iff (bits : BitVec 4) (lanes : SimdLanes) :
    qmmTSimd bits lanes = true ↔ ∃ w, widthOfField bits = some w ∧ simdOk lanes w = true := by
  cases h : widthOfField bits <;> simp [qmmTSimd, h]

/-- Settles O13: the lanes that 8 and 4 divide (`eight_dvd_laneCount_iff`, `four_dvd_laneCount_iff`), these being the
pack factors of the two widths of `simdOk_iff`. -/
theorem simdPredicateTable : Obligations.SimdPredicateTable := by
  refine ⟨fun w lanes => ?_, fun bits _ _ lanes => ⟨rfl, qmmTSimd_iff bits lanes⟩⟩
  rw [simdOk_iff, ← four_dvd_laneCount_iff, ← eight_dvd_laneCount_iff, or_and_right]
  exact or_congr (and_congr_right (by rintro rfl; rfl)) (and_congr_right (by rintro rfl; rfl))

/-! ### Loop nests as folds -/

section Folds

variable {α β : Type}

/-- Nested loops over `n` blocks of `b` indices are one loop over all indices, in order. -/
theorem foldl_range_blocks (step : α → Nat → α) (b : Nat) (a : α) : ∀ n : Nat,
    (List.range n).foldl (fun acc g => (List.range b).foldl (fun acc j => step acc (g * b + j)) acc) a =
      (List.range (n * b)).foldl step a
  | 0 => by rw [Nat.zero_mul]; rfl
  | n + 1 => by
    rw [List.range_succ, List.foldl_append, foldl_range_blocks step b a n, Nat.succ_mul, List.range_add,
      List.foldl_append, List.foldl_map]
    rfl

/-- A row of `n` accumulators that one pass advances together is `n` folds. -/
theorem foldl_zipWith_range (step : Nat → α → β → α) (n : Nat) : ∀ (ks : List β) (start : Nat → α),
    ks.foldl (fun row k => List.zipWith (fun j acc => step j acc k) (List.range n) row) ((List.range n).map start) =
      (List.range n).map fun j => ks.foldl (step j) (start j)
  | [], _ => rfl
  | k :: ks, start => by
    rw [List.foldl_cons, List.zipWith_map_right, List.zipWith_self, foldl_zipWith_range step n ks]
    rfl

theorem foldl_zipWith_replicate (step : Nat → α → β → α) (n : Nat) (ks : List β) (a : α) :
    ks.foldl (fun row k => List.zipWith (fun j acc => step j acc k) (List.range n) row) (List.replicate n a) =
      (List.range n).map fun j => ks.foldl (step j) a := by
  have hstart := foldl_zipWith_range step n ks fun _ => a
  rwa [List.map_const', List.length_range] at hstart

/-- The indices of residue `l` modulo `b`, in increasing order, are those at place `l` of each block of `b`. -/
theorem filter_range_mod_eq {b l : Nat} (hl : l < b) : ∀ n : Nat,
    (List.range (n * b)).filter (fun k => k % b = l) = (List.range n).map fun c => c * b + l
  | 0 => by rw [Nat.zero_mul]; rfl
  | n + 1 => by
    have hblock : (List.range b).filter (fun j => decide ((n * b + j) % b = l)) = [l] := by
      calc (List.range b).filter (fun j => decide ((n * b + j) % b = l))
          = (List.range b).filter fun j => decide (j = l) := List.filter_congr fun j hj => by
            rw [Nat.mul_comm, Nat.mul_add_mod, Nat.mod_eq_of_lt (List.mem_range.1 hj)]
        _ = [l] := by rw [List.filter_eq, List.count_range, if_pos hl, List.replicate_one]
    rw [Nat.succ_mul, List.range_add, List.filter_append, filter_range_mod_eq hl n, List.filter_map, Function.comp_def,
      hblock, List.range_succ, List.map_append]
    rfl

end Folds

/-! ### The row-major output -/

/-- Output element (i, n) is `elem i n`, encoded, and every byte outside the output is as before (42_qmm.md R303). -/
def ProductStored (f : FloatFields) (r : OperandRegs) (draw : Nat) (before after : Memory) (elem : Nat → Nat → FVal) :
    Prop :=
  (∀ i < r.dimM.toNat, ∀ n < r.dimN.toNat,
    let addr := r.oAddr.toNat + (i * r.dimN.toNat + n) * fmtSize f.fmt
    after.read addr (fmtSize f.fmt) =
      encodeFmt f.fmt (Config.freeNaN draw addr) (elem i n) % 2 ^ (8 * fmtSize f.fmt)) ∧
  ∀ x, x < r.oAddr.toNat ∨ r.oAddr.toNat + r.dimM.toNat * r.dimN.toNat * fmtSize f.fmt ≤ x →
    after.get x = before.get x

/-- The elements of a product, row after row, from O_ADDR. -/
def productBlocks (f : FloatFields) (r : OperandRegs) (draw : Nat) (elem : Nat → Nat → FVal) : List Block :=
  [(r.oAddr.toNat, storeRow f.fmt draw r.oAddr.toNat
    ((List.range r.dimM.toNat).flatMap fun i => (List.range r.dimN.toNat).map (elem i)))]

theorem productStored_setBlocks (f : FloatFields) (r : OperandRegs) (draw : Nat) {m : Memory} (hm : m.wf = true)
    (elem : Nat → Nat → FVal) : ProductStored f r draw m (m.setBlocks (productBlocks f r draw elem)) elem := by
  have hrow (i : Nat) : ((List.range r.dimN.toNat).map (elem i)).length = r.dimN.toNat := by simp
  have hlen : ((List.range r.dimM.toNat).flatMap fun i => (List.range r.dimN.toNat).map (elem i)).length =
      r.dimM.toNat * r.dimN.toNat := by
    rw [length_flatMap_const _ r.dimN.toNat _ fun i _ => hrow i, List.length_range]
  refine ⟨fun i hi n hn => ?_, fun x hx => ?_⟩
  · have helem := getElem?_flatMap_range (fun i => (List.range r.dimN.toNat).map (elem i)) _ _ _ _
      (fun k _ => hrow k) hi hn
    have hread := Memory.read_storeRow f.fmt draw r.oAddr.toNat _ hm (hlen ▸ flat_lt hi hn)
    rw [List.getD_eq_getElem?_getD, helem, show 256 = 2 ^ 8 from rfl, ← pow_mul] at hread
    simp only [List.getElem?_map, List.getElem?_range hn, Option.map_some, Option.getD_some] at hread
    exact hread
  · exact Memory.get_setBytes_outside _ _ (by rwa [length_storeRow, hlen])

/-- A command in flight whose outputs are the elements of a product completes with them stored. -/
theorem exec_productStored {s : State} {r : Run} {i : Instr} (f : FloatFields) {elem : Nat → Nat → FVal} (hi : s.Inv)
    (hr : inFlight s r i)
    (hb : commandBlocks i r s.params s.draws s.mem = some (productBlocks f r.latched s.draws elem)) :
    ∃ m, exec i s = .next (completedWith s r r.simd m) ∧ ProductStored f r.latched s.draws s.mem m elem :=
  ⟨_, exec_inFlight hr hb, productStored_setBlocks f r.latched s.draws hi.memWf elem⟩

/-! ### The closed form of each kernel -/

section Kernels

variable (nm : Numerics) (f : FloatFields) (r : OperandRegs) (mem : Memory)

/-- The closed form of 42_qmm.md R303: row `i` of x against a column of weights, left to right from +0.0. -/
def closedForm (weight : Nat → Weight) (i : Nat) : FVal :=
  (List.range r.dimK.toNat).foldl (fun acc k => macWeight nm f.fmt acc (activation f r mem i k) (weight k)) plusZero

/-- The passes of R302 over a row of outputs give each of them its closed form. -/
theorem qmmRow_eq_map (i : Nat) : qmmRow nm f r mem i =
    (List.range r.dimN.toNat).map fun n => closedForm nm f r mem (fun k => weightAt f r mem r.dimN.toNat k n) i :=
  foldl_zipWith_replicate
    (fun n acc k => macWeight nm f.fmt acc (activation f r mem i k) (weightAt f r mem r.dimN.toNat k n)) _ _ _

theorem qmmBlocks_eq (draw : Nat) : qmmBlocks nm f r draw mem = productBlocks f r draw fun i n =>
    closedForm nm f r mem (fun k => weightAt f r mem r.dimN.toNat k n) i := by
  rw [qmmBlocks, funext (qmmRow_eq_map nm f r mem), productBlocks]

/-- K walked group by group is K walked in order (42_qmm.md R311). -/
theorem qmmTElem_eq (hk : r.dimK.toNat % groupElems f.group = 0) (i n : Nat) : qmmTElem nm f r mem i n =
    closedForm nm f r mem (fun k => weightAt f r mem r.dimK.toNat n k) i := by
  have h := foldl_range_blocks
    (fun acc k => macWeight nm f.fmt acc (activation f r mem i k) (weightAt f r mem r.dimK.toNat n k))
    (groupElems f.group) plusZero (r.dimK.toNat / groupElems f.group)
  rwa [Nat.div_mul_cancel (Nat.dvd_of_mod_eq_zero hk)] at h

end Kernels

/-! ### The lanes of the SIMD datapath -/

/-- Advancing the base by whole packs advances the code index by their codes (40_codec.md R211). -/
theorem codeOfBuffer_add_packs (m : Memory) (base : Nat) (w : Width) (p j : Nat) :
    codeOfBuffer m (base + p * bytesPerPack w) w j = codeOfBuffer m base w (p * packFactor w + j) := by
  rw [codeOfBuffer, codeOfBuffer, Nat.mul_comm p (packFactor w), Nat.mul_add_div (packFactor_pos w), Nat.mul_add_mod,
    Nat.add_mul, Nat.add_assoc]

/-- At the widths of the SIMD extractor a lane holds the scalar extractor's code (40_codec.md R207, R211). -/
theorem getD_extractSimd (m : Memory) (a : Nat) {w : Width} (hw : bytesPerPack w = 4) {lanes : SimdLanes} {l : Nat}
    (hl : l < laneCount lanes) : (extractSimd m a w lanes).getD l 0 = codeOfBuffer m a w l := by
  simp [extractSimd, hl, codeOfBuffer, codeAt, hw, Nat.mul_comm 4]

/-- A group holds whole chunks of S elements, so a chunk has one scale and one bias (42_qmm.md R314). -/
theorem laneCount_dvd_group (lanes : SimdLanes) (g : GroupSize) : laneCount lanes ∣ groupElems g := by
  have hlanes : laneCount lanes ∣ 32 := by cases lanes <;> decide
  have hgroup : 32 ∣ groupElems g := by cases g <;> decide
  exact hlanes.trans hgroup

/-- The elements of one chunk lie in one group. -/
theorem chunk_group {b gs : Nat} (hd : b ∣ gs) (c : Nat) {l : Nat} (hl : l < b) : (c * b + l) / gs = c * b / gs := by
  obtain ⟨q, rfl⟩ := hd
  have hb : 0 < b := by omega
  rw [← Nat.div_div_eq_div_mul, ← Nat.div_div_eq_div_mul, Nat.mul_comm, Nat.mul_add_div hb,
    Nat.mul_div_cancel_left _ hb, Nat.div_eq_of_lt hl, Nat.add_zero]

section SimdKernel

variable (nm : Numerics) (f : FloatFields) (r : OperandRegs) (lanes : SimdLanes) (mem : Memory)

/-- Lane step k of output element (i, n) (42_qmm.md R316). -/
def laneStep (i n : Nat) (acc : FVal) (k : Nat) : FVal :=
  let w := weightAt f r mem r.dimK.toNat n k
  nm.simdMac acc (nm.cvt .f32 (activation f r mem i k)) (fOfNat w.code.toNat) (nm.cvt .f32 w.scale) (nm.cvt .f32 w.bias)

/-- Lane l accumulates the k with `k % S = l` in increasing order (42_qmm.md R314). -/
def laneSum (i n l : Nat) : FVal :=
  ((List.range r.dimK.toNat).filter fun k => k % laneCount lanes = l).foldl (laneStep nm f r mem i n) plusZero

variable (hs : simdOk lanes f.width = true) (hk : r.dimK.toNat % groupElems f.group = 0)
include hs hk

/-- Lane l of chunk c is lane step `c·S + l`: the chunk begins a pack, and its elements share a group. -/
theorem simdChunk_eq_zipWith (i n : Nat) (acc : List FVal) (c : Nat) : simdChunk nm f r lanes mem i n acc c =
    List.zipWith (fun l acc => laneStep nm f r mem i n acc (c * laneCount lanes + l))
      (List.range (laneCount lanes)) acc := by
  obtain ⟨hw, hpack⟩ := (simdOk_iff lanes f.width).1 hs
  have hbytes : bytesPerPack f.width = 4 := by rcases hw with hw | hw <;> rw [hw] <;> rfl
  have hrow : packFactor f.width ∣ n * r.dimK.toNat + c * laneCount lanes :=
    dvd_add (((packFactor_dvd_group _ _).trans (Nat.dvd_of_mod_eq_zero hk)).mul_left _) (hpack.mul_left _)
  have hcol {l : Nat} (hl : l < laneCount lanes) :
      (c * laneCount lanes + l) / groupElems f.group = c * laneCount lanes / groupElems f.group :=
    chunk_group (laneCount_dvd_group lanes f.group) c hl
  have hcode {l : Nat} (hl : l < laneCount lanes) :
      (extractSimd mem (r.wAddr.toNat + (n * r.dimK.toNat + c * laneCount lanes) / packFactor f.width * 4) f.width
        lanes).getD l 0 =
      codeOfBuffer mem r.wAddr.toNat f.width (n * r.dimK.toNat + (c * laneCount lanes + l)) := by
    have hadd := codeOfBuffer_add_packs mem r.wAddr.toNat f.width
      ((n * r.dimK.toNat + c * laneCount lanes) / packFactor f.width) l
    rw [Nat.div_mul_cancel hrow, hbytes, Nat.add_assoc] at hadd
    rw [getD_extractSimd _ _ hbytes hl, hadd]
  refine List.ext_getElem (by simp [simdChunk]) fun l hl _ => ?_
  have hl : l < laneCount lanes := (show l < laneCount lanes ∧ l < acc.length by simpa [simdChunk] using hl).1
  simp only [simdChunk, laneStep, weightAt, List.getElem_zipWith, List.getElem_range, hcol hl, hcode hl]

/-- The chunks advance each lane through its own k (42_qmm.md R314). -/
theorem simdLaneSums_eq_map (i n : Nat) : simdLaneSums nm f r lanes mem i n =
    (List.range (laneCount lanes)).map (laneSum nm f r lanes mem i n) := by
  have hchunks : r.dimK.toNat / laneCount lanes * laneCount lanes = r.dimK.toNat :=
    Nat.div_mul_cancel ((laneCount_dvd_group lanes f.group).trans (Nat.dvd_of_mod_eq_zero hk))
  have hlane (l : Nat) (hl : l ∈ List.range (laneCount lanes)) : laneSum nm f r lanes mem i n l =
      (List.range (r.dimK.toNat / laneCount lanes)).foldl
        (fun acc c => laneStep nm f r mem i n acc (c * laneCount lanes + l)) plusZero := by
    have hfilter := filter_range_mod_eq (List.mem_range.1 hl) (r.dimK.toNat / laneCount lanes)
    rw [hchunks] at hfilter
    rw [laneSum, hfilter, List.foldl_map]
  rw [simdLaneSums, funext₂ (simdChunk_eq_zipWith nm f r lanes mem hs hk i n),
    foldl_zipWith_replicate fun l acc c => laneStep nm f r mem i n acc (c * laneCount lanes + l)]
  exact (List.map_congr_left hlane).symm

theorem qmmTSimdElem_eq (i n : Nat) : qmmTSimdElem nm f r lanes mem i n =
    nm.cvt f.fmt (nm.reduce (laneLevels lanes)
      ((List.range (laneCount lanes)).map (laneSum nm f r lanes mem i n))) := by
  rw [qmmTSimdElem, simdLaneSums_eq_map nm f r lanes mem hs hk]

end SimdKernel

/-! ### The matrix products in flight -/

theorem widthOfField_of_floatFields {bits : BitVec 4} {gsize : BitVec 8} {dtype : BitVec 2} {f : FloatFields}
    (hf : floatFields bits gsize dtype = some f) : widthOfField bits = some f.width := by
  unfold floatFields at hf
  split at hf
  · next hw _ _ =>
    cases hf
    exact hw
  · cases hf

section QmmTRuns

variable {s : State} {r : Run} {bits : BitVec 4} {gsize : BitVec 8} {dtype : BitVec 2} {f : FloatFields}

/-- K of an accepted QMM.T is whole groups (60_exceptions.md R404). -/
theorem dimK_mod_group_of_qmmT (hi : s.Inv) (hr : inFlight s r (.qmmT bits gsize dtype))
    (hf : floatFields bits gsize dtype = some f) : r.latched.dimK.toNat % groupElems f.group = 0 := by
  obtain ⟨hrun, hinstr, -⟩ := hr
  have hvalid := (hi.run r hrun).valid
  simp only [hinstr, commandCheck, qmmTCheck] at hvalid
  obtain ⟨f', hf', -, hshape⟩ := checkFields_none hvalid
  cases hf.symm.trans hf'
  exact (checkShape_none hshape).1

/-- The datapath chosen at acceptance is `simd_ok` (42_qmm.md R312). -/
theorem simd_of_qmmT (hi : s.Inv) (hr : inFlight s r (.qmmT bits gsize dtype))
    (hf : floatFields bits gsize dtype = some f) : r.simd = simdOk s.params.lanes f.width := by
  obtain ⟨hrun, hinstr, -⟩ := hr
  rw [(hi.run r hrun).simd, hinstr, commandSimd, qmmTSimd, widthOfField_of_floatFields hf]

@[simp] theorem qmmTDatapath_scalar (nm : Numerics) (f : FloatFields) (r : OperandRegs) (lanes : SimdLanes)
    (mem : Memory) : qmmTDatapath nm f r lanes false mem = qmmTElem nm f r mem := rfl

@[simp] theorem qmmTDatapath_simd (nm : Numerics) (f : FloatFields) (r : OperandRegs) (lanes : SimdLanes)
    (mem : Memory) : qmmTDatapath nm f r lanes true mem = qmmTSimdElem nm f r lanes mem := rfl

/-- QMM.T in flight completes with the elements of its datapath stored. -/
theorem exec_qmmT_productStored (hi : s.Inv) (hr : inFlight s r (.qmmT bits gsize dtype))
    (hf : floatFields bits gsize dtype = some f) :
    ∃ m, exec (.qmmT bits gsize dtype) s = .next (completedWith s r r.simd m) ∧
      ProductStored f r.latched s.draws s.mem m
        (qmmTDatapath (numericsOf s.params) f r.latched s.params.lanes r.simd s.mem) :=
  exec_productStored f hi hr (by rw [commandBlocks, hf]; rfl)

end QmmTRuns

/-- Settles O49: the rows of QMM are closed forms (`qmmBlocks_eq`), and its datapath is never SIMD. -/
theorem qmmStoresTheClosedForm : Obligations.QmmStoresTheClosedForm := by
  intro s r bits gsize dtype f hi hr hf
  have hsimd : r.simd = false := by
    obtain ⟨hrun, hinstr, -⟩ := hr
    rw [(hi.run r hrun).simd, hinstr]
    rfl
  obtain ⟨m, hexec, hstored⟩ := exec_productStored f hi hr (by rw [commandBlocks, hf, Option.map_some, qmmBlocks_eq])
  rw [hsimd] at hexec
  exact ⟨m, hexec, hstored⟩

/-- Settles O50: the scalar element is the closed form (`qmmTElem_eq`), as K is whole groups. -/
theorem qmmTScalarStoresTheClosedForm : Obligations.QmmTScalarStoresTheClosedForm := by
  intro s r bits gsize dtype f hi hr hf hs
  have hsimd : r.simd = false := (simd_of_qmmT hi hr hf).trans hs
  have helem := funext₂ (qmmTElem_eq (numericsOf s.params) f r.latched s.mem (dimK_mod_group_of_qmmT hi hr hf))
  obtain ⟨m, hexec, hstored⟩ := exec_qmmT_productStored hi hr hf
  rw [hsimd] at hexec hstored
  rw [qmmTDatapath_scalar, helem] at hstored
  exact ⟨m, hexec, hstored⟩

/-- Settles O51: the chunks of S lanes are the lane sums (`qmmTSimdElem_eq`), as K is whole groups. -/
theorem qmmTSimdStoresTheLaneSums : Obligations.QmmTSimdStoresTheLaneSums := by
  intro s r bits gsize dtype f hi hr hf hs
  have hsimd : r.simd = true := (simd_of_qmmT hi hr hf).trans hs
  have helem := funext₂ (qmmTSimdElem_eq (numericsOf s.params) f r.latched s.params.lanes s.mem hs
    (dimK_mod_group_of_qmmT hi hr hf))
  obtain ⟨m, hexec, hstored⟩ := exec_qmmT_productStored hi hr hf
  rw [hsimd] at hexec hstored
  rw [qmmTDatapath_simd, helem] at hstored
  exact ⟨m, hexec, hstored⟩

end Sys2Proof.Machine

/-! PROOFS. Validation (60_exceptions.md R401 to R408): each test of the check chain is the condition of its error, and
the chain tests in the order of the error numbers, so that it reports the first error whose condition holds. -/

namespace Sys2Proof.Machine

/-! ### A rejected CMD write -/

theorem rejectedStatus_toNat (c : ErrCode) : (rejectedStatus c).toNat = 256 * errNumber c + 6 := by cases c <;> rfl

/-- Settles O3: the whole next state by `writeCmd_rejects`, its STATUS by `rejectedStatus_toNat` and
`rejectedStatus_fields`. -/
theorem rejectedWriteChangesOnlyCmdAndStatus : Obligations.RejectedWriteChangesOnlyCmdAndStatus := by
  intro s w c rest ht hr ha hl
  obtain ⟨-, hbusy, hdone, herr, hsimd, -⟩ := rejectedStatus_fields c
  exact ⟨rejectedStatus c, (step_cmdWrite ht ha).trans (writeCmd_rejects hr hl), rejectedStatus_toNat c, hdone, herr,
    hbusy, hsimd⟩

/-! ### The error numbers -/

theorem errNumber_bounds (c : ErrCode) : 1 ≤ errNumber c ∧ errNumber c ≤ 9 := by cases c <;> decide

/-- The errors in the order of their numbers (60_exceptions.md R403). -/
def errorsInOrder : List ErrCode :=
  [.illegalCmd, .badBits, .badGsize, .badDtype, .badShape, .badAlign, .badRange, .overlap, .simdUnsupported]

theorem errorsInOrder_errNumber (c : ErrCode) : errorsInOrder.getD (errNumber c - 1) .illegalCmd = c := by
  cases c <;> rfl

theorem errNumber_injective : Function.Injective errNumber :=
  Function.LeftInverse.injective (g := fun n => errorsInOrder.getD (n - 1) .illegalCmd) errorsInOrder_errNumber

/-! ### Chains of checks -/

/-- The answer of a chain of checks that starts with the error of number `n`: the first error from there on whose
condition holds, or none when no condition from there on holds. -/
def FirstErrorFrom (n : Nat) (applies : ErrCode → Prop) : Option ErrCode → Prop
  | some c => n ≤ errNumber c ∧ applies c ∧ ∀ c', n ≤ errNumber c' → errNumber c' < errNumber c → ¬applies c'
  | none => ∀ c, n ≤ errNumber c → ¬applies c

namespace FirstErrorFrom

variable {applies : ErrCode → Prop} {c : ErrCode} {o : Option ErrCode}

theorem hit (hc : applies c) : FirstErrorFrom (errNumber c) applies (some c) :=
  ⟨le_rfl, hc, fun _ hle hlt => absurd hlt (not_lt.2 hle)⟩

/-- A condition that does not hold leaves the answer to the rest of the chain: the next number is the next one that
counts, as no other error has this number. -/
theorem skip (hc : ¬applies c) (ho : FirstErrorFrom (errNumber c + 1) applies o) :
    FirstErrorFrom (errNumber c) applies o := by
  have above {c' : ErrCode} (hle : errNumber c ≤ errNumber c') (ha : applies c') : errNumber c < errNumber c' :=
    lt_of_le_of_ne hle fun he => hc (errNumber_injective he ▸ ha)
  cases o with
  | none => exact fun c' hle ha => ho c' (above hle ha) ha
  | some d =>
    obtain ⟨hd, ha, hmin⟩ := ho
    exact ⟨Nat.le_of_succ_le hd, ha, fun c' hle hlt hc' => hmin c' (above hle hc') hlt hc'⟩

theorem ite_of_iff {p : Prop} [Decidable p] (hp : p ↔ applies c) (ho : FirstErrorFrom (errNumber c + 1) applies o) :
    FirstErrorFrom (errNumber c) applies (if p then some c else o) := by
  split
  · next h => exact hit (hp.1 h)
  · next h => exact skip (mt hp.2 h) ho

/-- No error has a number beyond 9. -/
theorem none_from_ten : FirstErrorFrom 10 applies none := fun c hle =>
  absurd (errNumber_bounds c).2 (not_le.2 hle)

theorem eq_some_iff (ho : FirstErrorFrom 1 applies o) :
    o = some c ↔ applies c ∧ ∀ c', errNumber c' < errNumber c → ¬applies c' := by
  cases o with
  | none => exact ⟨nofun, fun h => absurd h.1 (ho c (errNumber_bounds c).1)⟩
  | some d =>
    obtain ⟨-, hd, hmin⟩ := ho
    have least (c' : ErrCode) : errNumber c' < errNumber d → ¬applies c' := hmin c' (errNumber_bounds c').1
    constructor
    · intro h
      cases h
      exact ⟨hd, least⟩
    · rintro ⟨hc, hleast⟩
      have hle : errNumber c ≤ errNumber d := not_lt.1 fun h => hleast d h hd
      have hge : errNumber d ≤ errNumber c := not_lt.1 fun h => least c h hc
      rw [errNumber_injective (le_antisymm hle hge)]

theorem eq_none_iff (ho : FirstErrorFrom 1 applies o) : o = none ↔ ∀ c, ¬applies c := by
  cases o with
  | none => exact ⟨fun _ c => ho c (errNumber_bounds c).1, fun _ => rfl⟩
  | some d =>
    obtain ⟨-, hd, -⟩ := ho
    exact ⟨nofun, fun h => absurd hd (h d)⟩

end FirstErrorFrom

/-! ### The tests are the conditions -/

theorem widthOfField_eq_none_iff (bits : BitVec 4) : widthOfField bits = none ↔ bits.toNat ∉ [2, 3, 4, 5, 6, 8] := by
  revert bits
  decide

theorem groupOfField_eq_none_iff (gsize : BitVec 8) : groupOfField gsize = none ↔ gsize.toNat ∉ [32, 64, 128] := by
  revert gsize
  decide

theorem fmtOfField_eq_none_iff (dtype : BitVec 2) : fmtOfField dtype = none ↔ dtype = 3 := by
  revert dtype
  decide

theorem any_misaligned_iff (bs : List Buffer) : bs.any misaligned = true ↔ ∃ b ∈ bs, b.base % b.align ≠ 0 := by
  simp [misaligned]

theorem any_outOfRange_iff (memSize : Nat) (bs : List Buffer) :
    bs.any (outOfRange memSize) = true ↔ ∃ b ∈ bs, 0 < b.len ∧ memSize < b.base + b.len := by
  simp [outOfRange]

theorem overlapping_eq_false_iff : ∀ bs : List Buffer, overlapping bs = false ↔
    bs.Pairwise fun a b => ¬((a.isOut || b.isOut) = true ∧ intersects a b = true)
  | [] => by simp [overlapping]
  | a :: bs => by
    rw [overlapping, Bool.or_eq_false_iff, List.any_eq_false, List.pairwise_cons, overlapping_eq_false_iff bs]
    simp only [Bool.and_eq_true]

theorem overlapping_iff (bs : List Buffer) : overlapping bs = true ↔
    ∃ (j k : Nat) (a b : Buffer), j < k ∧ bs[j]? = some a ∧ bs[k]? = some b ∧
      (a.isOut = true ∨ b.isOut = true) ∧ 0 < a.len ∧ 0 < b.len ∧ a.base < b.base + b.len ∧
      b.base < a.base + a.len := by
  rw [← Bool.not_eq_false, overlapping_eq_false_iff, List.pairwise_iff_getElem]
  simp only [intersects, Bool.or_eq_true, Bool.and_eq_true, decide_eq_true_eq, not_forall, not_not, and_assoc]
  constructor
  · rintro ⟨j, k, hj, hk, hjk, h⟩
    exact ⟨j, k, bs[j], bs[k], hjk, List.getElem?_eq_getElem hj, List.getElem?_eq_getElem hk, h⟩
  · rintro ⟨j, k, a, b, hjk, ha, hb, h⟩
    obtain ⟨hj, rfl⟩ := List.getElem?_eq_some_iff.1 ha
    obtain ⟨hk, rfl⟩ := List.getElem?_eq_some_iff.1 hb
    exact ⟨j, k, hj, hk, hjk, h⟩

theorem groupElems_of_groupOfField {gsize : BitVec 8} {g : GroupSize} (hg : groupOfField gsize = some g) :
    groupElems g = gsize.toNat := by
  revert gsize
  cases g <;> decide

theorem groupElems_of_floatFields {bits : BitVec 4} {gsize : BitVec 8} {dtype : BitVec 2} {f : FloatFields}
    (hf : floatFields bits gsize dtype = some f) : groupElems f.group = gsize.toNat := by
  unfold floatFields at hf
  split at hf
  · next hg _ =>
    cases hf
    exact groupElems_of_groupOfField hg
  · cases hf

/-- The pack factor in the words of 40_codec.md R200. -/
theorem packFactor_of_widthOfField {bits : BitVec 4} {w : Width} (hw : widthOfField bits = some w) :
    packFactor w = if bits.toNat = 3 ∨ bits.toNat = 5 then 8 else if bits.toNat = 6 then 4 else 32 / bits.toNat := by
  revert bits
  cases w <;> decide

/-! ### The check chain -/

section Chain

variable {i : Instr} {p : Params} {r : OperandRegs}

/-- Steps 6 to 8 of the check order. -/
theorem checkBuffers_firstError :
    FirstErrorFrom 6 (errorApplies · i p r) (checkBuffers p.memSize (commandBuffers i r)) :=
  .ite_of_iff (c := .badAlign) (any_misaligned_iff _) <| .ite_of_iff (c := .badRange) (any_outOfRange_iff _ _) <|
    .ite_of_iff (c := .overlap) (overlapping_iff _) <| .skip (c := .simdUnsupported) id .none_from_ten

/-- Steps 5 to 8 of the check order. -/
theorem checkShape_firstError : FirstErrorFrom 5 (errorApplies · i p r)
    (checkShape p.memSize (innermost i r) (shapeDivisor i) (commandBuffers i r)) :=
  .ite_of_iff (c := .badShape) Iff.rfl checkBuffers_firstError

theorem badBits_iff : errorApplies .badBits i p r ↔ widthOfField (instrBits i) = none :=
  (widthOfField_eq_none_iff _).symm

/-- A command on floating-point buffers checks its three fields, then what every command checks. -/
theorem checkFields_firstError {bits : BitVec 4} {gsize : BitVec 8} {dtype : BitVec 2}
    {rest : FloatFields → Option ErrCode} (hb : instrBits i = bits) (hg : instrGsize i = some gsize)
    (hd : instrDtype i = some dtype)
    (hrest : ∀ f, floatFields bits gsize dtype = some f →
      rest f = checkShape p.memSize (innermost i r) (shapeDivisor i) (commandBuffers i r)) :
    FirstErrorFrom 2 (errorApplies · i p r) (checkFields bits gsize dtype rest) := by
  have hbits : errorApplies .badBits i p r ↔ widthOfField bits = none := hb ▸ badBits_iff
  have hgsize : errorApplies .badGsize i p r ↔ groupOfField gsize = none := by
    simp only [errorApplies, hg, Option.some.injEq, exists_eq_left', groupOfField_eq_none_iff]
  have hdtype : errorApplies .badDtype i p r ↔ fmtOfField dtype = none := by
    simp only [errorApplies, hd, Option.some.injEq, fmtOfField_eq_none_iff]
  unfold checkFields
  split
  · next hw => exact .hit (c := .badBits) (hbits.2 hw)
  next w hw =>
  refine .skip (c := .badBits) (by simp [hbits, hw]) ?_
  split
  · next hg => exact .hit (c := .badGsize) (hgsize.2 hg)
  next g hg =>
  refine .skip (c := .badGsize) (by simp [hgsize, hg]) ?_
  split
  · next ht => exact .hit (c := .badDtype) (hdtype.2 ht)
  next t ht =>
  refine .skip (c := .badDtype) (by simp [hdtype, ht]) ?_
  rw [hrest ⟨w, g, t⟩ (by simp [floatFields, hw, hg, ht])]
  exact checkShape_firstError

/-- A codec command has BITS alone: with a code width in it, what every command checks is left. -/
theorem checkShape_firstError_of_codec {w : Width} (hw : widthOfField (instrBits i) = some w)
    (hg : instrGsize i = none) (hd : instrDtype i = none) : FirstErrorFrom 2 (errorApplies · i p r)
      (checkShape p.memSize (innermost i r) (packFactor w) (commandBuffers i r)) := by
  have hdiv : packFactor w = shapeDivisor i := by rw [packFactor_of_widthOfField hw, shapeDivisor, hg]
  rw [hdiv]
  exact .skip (c := .badBits) (by simp [badBits_iff, hw]) <| .skip (c := .badGsize) (by simp [errorApplies, hg]) <|
    .skip (c := .badDtype) (by simp [errorApplies, hd]) checkShape_firstError

end Chain

/-- Steps 2 to 8 of the check order, for each command. -/
theorem commandCheck_firstError (i : Instr) (p : Params) (r : OperandRegs) :
    FirstErrorFrom 2 (errorApplies · i p r) (commandCheck i p r) := by
  cases i with
  | quantize bits gsize dtype =>
    rw [commandCheck, quantizeCheck]
    refine checkFields_firstError rfl rfl rfl fun f hf => ?_
    rw [commandBuffers_quantize r hf, groupElems_of_floatFields hf]
    rfl
  | qmm bits gsize dtype =>
    rw [commandCheck, qmmCheck]
    refine checkFields_firstError rfl rfl rfl fun f hf => ?_
    rw [commandBuffers_qmm r hf, groupElems_of_floatFields hf]
    rfl
  | qmmT bits gsize dtype =>
    rw [commandCheck, qmmTCheck]
    refine checkFields_firstError rfl rfl rfl fun f hf => ?_
    rw [commandBuffers_qmmT r hf, groupElems_of_floatFields hf]
    rfl
  | pack bits =>
    simp only [commandCheck, packCheck]
    split
    · next hw => exact .hit (c := .badBits) (badBits_iff.2 hw)
    · next w hw =>
      rw [← commandBuffers_pack r hw]
      exact checkShape_firstError_of_codec (i := .pack bits) hw rfl rfl
  | unpack bits =>
    simp only [commandCheck, unpackCheck]
    split
    · next hw => exact .hit (c := .badBits) (badBits_iff.2 hw)
    · next w hw =>
      rw [← commandBuffers_unpack r hw]
      exact checkShape_firstError_of_codec (i := .unpack bits) hw rfl rfl

/-- Settles O12: the chain reports the first error (`commandCheck_firstError`); a decoded command is never
ILLEGAL_CMD. -/
theorem firstErrorInOrderIsReported : Obligations.FirstErrorInOrderIsReported := by
  intro i p r
  have hfirst : FirstErrorFrom 1 (errorApplies · i p r) (commandCheck i p r) :=
    .skip (c := .illegalCmd) id (commandCheck_firstError i p r)
  exact ⟨fun _ => hfirst.eq_some_iff, hfirst.eq_none_iff⟩

end Sys2Proof.Machine

/-! PROOFS. The first command after reset (70_reset_and_hazards.md R453): with the reset values of the operand registers
every buffer is empty and at address 0, so that a QMM passes its validation, and its output holds no byte. -/

namespace Sys2Proof.Machine

/-- Empty buffers at address 0 are aligned, in range and apart (60_exceptions.md R405 to R407). -/
theorem checkBuffers_of_empty {memSize : Nat} {bs : List Buffer} (h : ∀ b ∈ bs, b.base = 0 ∧ b.len = 0) :
    checkBuffers memSize bs = none := by
  have haligned : bs.any misaligned = false :=
    List.any_eq_false.2 fun b hb => by simp [misaligned, (h b hb).1]
  have hrange : bs.any (outOfRange memSize) = false :=
    List.any_eq_false.2 fun b hb => by simp [outOfRange, (h b hb).2]
  have happart : overlapping bs = false := by
    rw [← Bool.not_eq_true, overlapping_iff]
    rintro ⟨j, k, a, b, -, ha, -, -, hlen, -⟩
    exact hlen.ne' (h a (List.mem_of_getElem? ha)).2
  simp [checkBuffers, haligned, hrange, happart]

theorem qmmBuffers_reset (f : FloatFields) : ∀ b ∈ qmmBuffers f OperandRegs.reset, b.base = 0 ∧ b.len = 0 := by
  simp [qmmBuffers, floatBuffer, packedBuffer, OperandRegs.reset]

/-- The zero N is whole groups (60_exceptions.md R404), and the buffers are empty. -/
theorem checkShape_qmm_reset (memSize : Nat) (f : FloatFields) :
    checkShape memSize OperandRegs.reset.dimN.toNat (groupElems f.group) (qmmBuffers f OperandRegs.reset) = none := by
  have hshape : OperandRegs.reset.dimN.toNat % groupElems f.group = 0 := Nat.zero_mod _
  rw [checkShape, hshape, if_neg (not_not.2 rfl), checkBuffers_of_empty (qmmBuffers_reset f)]

/-- A QMM of no rows stores nothing (42_qmm.md R300). -/
theorem setBlocks_qmmBlocks_of_no_rows (nm : Numerics) (f : FloatFields) {r : OperandRegs} (hr : r.dimM = 0)
    (draw : Nat) (m : Memory) : m.setBlocks (qmmBlocks nm f r draw m) = m := by
  simp [qmmBlocks, hr, storeRow, Memory.setBlocks, Memory.setBytes]

/-- A valid command written to CMD of an engine with none in flight is accepted (60_exceptions.md R400). -/
theorem writeCmd_valid {w : Word} {i : Instr} {s : State} (hr : s.running = none) (hd : decode w = .command i)
    (hc : commandCheck i s.params s.regs = none) :
    writeCmd w s = .next (accept i (commandSimd i s.params.lanes) { s with cmd := w }) := by
  simp [writeCmd, hd, exec_idle, hr, hc]

/-- The untouched command in flight completes at the engine's turn, its outputs stored. -/
theorem step_inFlight {s : State} {r : Run} {i : Instr} {bs : List Block} (ha : s.agenda = []) (hr : inFlight s r i)
    (hb : commandBlocks i r s.params s.draws s.mem = some bs) :
    step s = .next (completedWith s r r.simd (s.mem.setBlocks bs)) := by
  have ⟨hrun, hinstr, _⟩ := hr
  simp only [step, ha, engineTurn, hrun, hinstr]
  exact exec_inFlight hr hb

/-- Settles O4: the zero registers pass validation (`checkShape_qmm_reset`), so the CMD write is accepted; the engine's
turn stores the output of a product of no rows (`setBlocks_qmmBlocks_of_no_rows`). -/
theorem resetValuesAreAUsableConfiguration : Obligations.ResetValuesAreAUsableConfiguration := by
  intro p m
  obtain ⟨-, hidle, -⟩ := idleStatus_fields
  obtain ⟨-, hbusy, -⟩ := busyStatus_fields
  have hdecode : decode 0x2042 = .command (.qmm 4 32 0) := by decide
  have hcheck : commandCheck (.qmm 4 32 0) p OperandRegs.reset = none :=
    checkShape_qmm_reset p.memSize ⟨.w4, .g32, .f32⟩
  have haccepted := (step_cmdWrite (s := { State.resetWith p with agenda := [cmdWrite p 0x2042], mem := m })
    ⟨hidle, rfl⟩ rfl).trans (writeCmd_valid rfl hdecode hcheck)
  exact ⟨hidle, _, _, haccepted, hbusy, step_inFlight rfl ⟨rfl, rfl, rfl⟩ rfl, rfl,
    setBlocks_qmmBlocks_of_no_rows _ _ rfl _ m⟩

end Sys2Proof.Machine

/-! PROOFS. The encoder (30_encoding.md R150 to R171): the command word as the sum of its fields, read back field by
field; the decoder's answer is the command whose word it is; the rows of the opcode map. -/

namespace Sys2Proof

/-! ### The command word as a number -/

/-- A field or-ed in above all bits of a word is added at its place. -/
theorem toNat_or_field {n k : Nat} {x : Word} (v : BitVec n) (hx : x.toNat < 2 ^ k) (hk : k + n ≤ 64) :
    (x ||| v.setWidth 64 <<< k).toNat = x.toNat + v.toNat * 2 ^ k := by
  have hfield : v.toNat <<< k < 2 ^ 64 := by
    rw [Nat.shiftLeft_eq]
    calc v.toNat * 2 ^ k < 2 ^ n * 2 ^ k := Nat.mul_lt_mul_of_pos_right v.isLt (Nat.two_pow_pos k)
      _ = 2 ^ (k + n) := by rw [Nat.mul_comm, pow_add]
      _ ≤ 2 ^ 64 := Nat.pow_le_pow_right two_pos hk
  have hv : v.toNat < 2 ^ 64 := v.isLt.trans_le (Nat.pow_le_pow_right two_pos (by omega))
  rw [BitVec.toNat_or, BitVec.toNat_shiftLeft, BitVec.toNat_setWidth, Nat.mod_eq_of_lt hv, Nat.mod_eq_of_lt hfield,
    Nat.or_comm, ← Nat.shiftLeft_add_eq_or_of_lt hx, Nat.shiftLeft_eq, Nat.add_comm]

/-- The fields of a command word do not meet, so its number is their sum (30_encoding.md R171). -/
theorem commandWord_toNat (op bits : BitVec 4) (gsize : BitVec 8) (dtype : BitVec 2) (trans : Bool) :
    (commandWord op bits gsize dtype trans).toNat =
      op.toNat + bits.toNat * 2 ^ 4 + gsize.toNat * 2 ^ 8 + dtype.toNat * 2 ^ 16 + trans.toNat * 2 ^ 18 := by
  have hop : (op.setWidth 64).toNat = op.toNat := by
    rw [BitVec.toNat_setWidth]
    omega
  have hbits := toNat_or_field (x := op.setWidth 64) (k := 4) bits (by omega) (by decide)
  have hgsize := toNat_or_field (k := 8) gsize (by rw [hbits]; omega) (by decide)
  have hdtype := toNat_or_field (k := 16) dtype (by rw [hgsize, hbits]; omega) (by decide)
  have htrans := toNat_or_field (k := 18) (BitVec.ofBool trans) (by rw [hdtype, hgsize, hbits]; omega) (by decide)
  rw [commandWord, htrans, hdtype, hgsize, hbits, hop, BitVec.toNat_ofBool]

/-! ### The fields of a command word, and the word of its fields -/

theorem bitsField_toNat (w : Word) : (bitsField w).toNat = w.toNat / 2 ^ 4 % 2 ^ 4 := by
  rw [bitsField, BitVec.extractLsb'_toNat, Nat.shiftRight_eq_div_pow]

theorem gsizeField_toNat (w : Word) : (gsizeField w).toNat = w.toNat / 2 ^ 8 % 2 ^ 8 := by
  rw [gsizeField, BitVec.extractLsb'_toNat, Nat.shiftRight_eq_div_pow]

theorem dtypeField_toNat (w : Word) : (dtypeField w).toNat = w.toNat / 2 ^ 16 % 2 ^ 2 := by
  rw [dtypeField, BitVec.extractLsb'_toNat, Nat.shiftRight_eq_div_pow]

theorem transField_toNat (w : Word) : (transField w).toNat = w.toNat / 2 ^ 18 % 2 := by
  rw [transField, BitVec.getLsbD, Nat.testBit_eq_decide_div_mod_eq]
  rcases Nat.mod_two_eq_zero_or_one (w.toNat / 2 ^ 18) with h | h <;> rw [h] <;> rfl

section CommandWord

variable (op bits : BitVec 4) (gsize : BitVec 8) (dtype : BitVec 2) (trans : Bool)

@[simp] theorem opField_commandWord : opField (commandWord op bits gsize dtype trans) = op := by
  apply BitVec.eq_of_toNat_eq
  rw [opField_toNat, commandWord_toNat]
  omega

@[simp] theorem bitsField_commandWord : bitsField (commandWord op bits gsize dtype trans) = bits := by
  apply BitVec.eq_of_toNat_eq
  rw [bitsField_toNat, commandWord_toNat]
  omega

@[simp] theorem gsizeField_commandWord : gsizeField (commandWord op bits gsize dtype trans) = gsize := by
  apply BitVec.eq_of_toNat_eq
  rw [gsizeField_toNat, commandWord_toNat]
  omega

@[simp] theorem dtypeField_commandWord : dtypeField (commandWord op bits gsize dtype trans) = dtype := by
  apply BitVec.eq_of_toNat_eq
  rw [dtypeField_toNat, commandWord_toNat]
  omega

@[simp] theorem transField_commandWord : transField (commandWord op bits gsize dtype trans) = trans := by
  have htrans := Bool.toNat_lt trans
  rw [Bool.eq_iff_iff, transField_iff, commandWord_toNat, ← Bool.toNat_eq_one]
  omega

@[simp] theorem highBits_commandWord : (commandWord op bits gsize dtype trans).extractLsb' 19 45 = 0 := by
  have htrans := Bool.toNat_lt trans
  rw [← not_ne_iff, highBits_ne_zero_iff, commandWord_toNat]
  omega

@[simp] theorem codecFields_commandWord : (commandWord op bits 0#8 0#2 trans).extractLsb' 8 10 = 0 := by
  rw [← not_ne_iff, extractLsb'_ne_zero_iff, commandWord_toNat]
  simp only [BitVec.toNat_ofNat]
  omega

end CommandWord

/-- A word without reserved high bits is the command word of its own fields. -/
theorem commandWord_fields {w : Word} (hw : w.extractLsb' 19 45 = 0) :
    commandWord (opField w) (bitsField w) (gsizeField w) (dtypeField w) (transField w) = w := by
  rw [← not_ne_iff, highBits_ne_zero_iff] at hw
  apply BitVec.eq_of_toNat_eq
  rw [commandWord_toNat, opField_toNat, bitsField_toNat, gsizeField_toNat, dtypeField_toNat, transField_toNat]
  omega

/-- Bits 17:8 are GSIZE and DTYPE. -/
theorem gsize_dtype_eq_zero {w : Word} (hw : w.extractLsb' 8 10 = 0) : gsizeField w = 0 ∧ dtypeField w = 0 := by
  rw [← not_ne_iff, extractLsb'_ne_zero_iff] at hw
  constructor <;> apply BitVec.eq_of_toNat_eq
  · simp only [gsizeField_toNat, BitVec.ofNat_eq_ofNat, BitVec.toNat_ofNat]
    omega
  · simp only [dtypeField_toNat, BitVec.ofNat_eq_ofNat, BitVec.toNat_ofNat]
    omega

/-! ### Decoding and encoding -/

theorem decode_encode (i : Instr) : decode (encode i) = .command i := by
  cases i <;> simp [decode, encode]

/-- Settles O5: the decoder reads each field of the command word back (`opField_commandWord` and its like). -/
theorem decodeOfEncodeIsTheCommand : Obligations.DecodeOfEncodeIsTheCommand := decode_encode

theorem ite_illegal_eq_command {p : Prop} [Decidable p] {e : DecodeError} {d : Decoded} {i : Instr} :
    (if p then .illegal e else d) = .command i ↔ ¬p ∧ d = .command i := by
  by_cases hp : p <;> simp [hp]

/-- What the decoder has checked of a word that names a command, by its branches. -/
theorem encode_of_decode {w : Word} {i : Instr} (h : decode w = .command i) : encode i = w := by
  rw [decode, ite_illegal_eq_command, not_ne_iff] at h
  obtain ⟨hhigh, h⟩ := h
  have hw := commandWord_fields hhigh
  have hop {n : Nat} (hn : (opField w).toNat = n) : opField w = BitVec.ofNat 4 n :=
    BitVec.eq_of_toNat_eq (by rw [BitVec.toNat_ofNat]; omega)
  split at h
  · next ho =>
    obtain ⟨ht, h⟩ := ite_illegal_eq_command.1 h
    cases h
    rwa [hop ho, Bool.eq_false_of_not_eq_true ht] at hw
  · next ho =>
    split at h
    · next ht =>
      cases h
      rwa [hop ho, ht] at hw
    · next ht =>
      cases h
      rwa [hop ho, Bool.eq_false_of_not_eq_true ht] at hw
  · next ho =>
    obtain ⟨ht, h⟩ := ite_illegal_eq_command.1 h
    obtain ⟨hcodec, h⟩ := ite_illegal_eq_command.1 h
    obtain ⟨hg, hd⟩ := gsize_dtype_eq_zero (not_ne_iff.1 hcodec)
    cases h
    rwa [hop ho, hg, hd, Bool.eq_false_of_not_eq_true ht] at hw
  · next ho =>
    obtain ⟨ht, h⟩ := ite_illegal_eq_command.1 h
    obtain ⟨hcodec, h⟩ := ite_illegal_eq_command.1 h
    obtain ⟨hg, hd⟩ := gsize_dtype_eq_zero (not_ne_iff.1 hcodec)
    cases h
    rwa [hop ho, hg, hd, Bool.eq_false_of_not_eq_true ht] at hw
  · cases h

/-- Settles O6, by the branches of the decoder (`encode_of_decode`). -/
theorem encodeOfDecodeIsTheWord : Obligations.EncodeOfDecodeIsTheWord := fun _ _ => encode_of_decode

/-- Settles O7: every command's word is a `commandWord`, whose number is `commandWord_toNat`. -/
theorem encodedWordIsTheFieldSum : Obligations.EncodedWordIsTheFieldSum := by
  intro bits gsize dtype
  refine ⟨?_, ?_, ?_, ?_, ?_⟩ <;> rw [encode, commandWord_toNat] <;> simp

/-- Settles O10, by evaluation of the decoder on each listed word. -/
theorem listedCommandWordsDecode : Obligations.ListedCommandWordsDecode := by
  unfold Obligations.ListedCommandWordsDecode
  decide

/-! ### The opcode map -/

theorem selects_own_row (i : Instr) : Laws.SelectsOwnRow.Statement i := by
  cases i with
  | quantize bits gsize dtype => exact Laws.SelectsOwnRow.quantize bits gsize dtype
  | qmm bits gsize dtype => exact Laws.SelectsOwnRow.qmm bits gsize dtype
  | qmmT bits gsize dtype => exact Laws.SelectsOwnRow.qmmT bits gsize dtype
  | pack bits => exact Laws.SelectsOwnRow.pack bits
  | unpack bits => exact Laws.SelectsOwnRow.unpack bits

/-- A command's fields are those of its word. -/
theorem fields_encode (i : Instr) : Machine.instrBits i = bitsField (encode i) ∧
    (∀ g, Machine.instrGsize i = some g → g = gsizeField (encode i)) ∧
    ∀ d, Machine.instrDtype i = some d → d = dtypeField (encode i) := by
  cases i <;> simp [Machine.instrBits, Machine.instrGsize, Machine.instrDtype, encode]

theorem OpcodeRow.selects_iff (r : OpcodeRow) (w : Word) : r.selects w = true ↔ w &&& r.mask = r.pattern := beq_iff_eq

/-- Where a row's mask is all ones a word that selects the row has the bits of its pattern. -/
theorem OpcodeRow.extractLsb'_of_selects {r : OpcodeRow} {w : Word} (h : r.selects w = true) {start len : Nat}
    (hm : r.mask.extractLsb' start len = BitVec.allOnes len) :
    w.extractLsb' start len = r.pattern.extractLsb' start len := by
  rw [← (r.selects_iff w).1 h, BitVec.extractLsb'_and, hm, BitVec.and_allOnes]

/-- The bits that every row's mask has: the reserved ones, OP and TRANS. -/
theorem OpcodeRow.fixed_of_selects {r : OpcodeRow} (hr : r ∈ opcodeMap) {w : Word} (h : r.selects w = true) :
    w.extractLsb' 19 45 = 0 ∧ opField w = opField r.pattern ∧ transField w = transField r.pattern := by
  have hmask : ∀ r ∈ opcodeMap, r.mask.extractLsb' 19 45 = BitVec.allOnes 45 ∧
      r.mask.extractLsb' 0 4 = BitVec.allOnes 4 ∧ r.mask.extractLsb' 18 1 = BitVec.allOnes 1 ∧
      r.pattern.extractLsb' 19 45 = 0 := by decide
  obtain ⟨hhigh, hop, htrans, hpattern⟩ := hmask r hr
  refine ⟨(r.extractLsb'_of_selects h hhigh).trans hpattern, r.extractLsb'_of_selects h hop, ?_⟩
  have ht := congrArg (·.getLsbD 0) (r.extractLsb'_of_selects h htrans)
  simpa [transField] using ht

/-- A word that selects a row is the word of a command. -/
theorem exists_encode_of_selects {r : OpcodeRow} (hr : r ∈ opcodeMap) {w : Word} (h : r.selects w = true) :
    ∃ i, encode i = w := by
  obtain ⟨hhigh, hop, htrans⟩ := r.fixed_of_selects hr h
  have hw := commandWord_fields hhigh
  rw [hop, htrans] at hw
  simp only [opcodeMap, List.mem_cons, List.not_mem_nil, or_false] at hr
  rcases hr with rfl | rfl | rfl | rfl | rfl
  · exact ⟨.quantize _ _ _, hw⟩
  · exact ⟨.qmm _ _ _, hw⟩
  · exact ⟨.qmmT _ _ _, hw⟩
  · obtain ⟨hg, hd⟩ := gsize_dtype_eq_zero (OpcodeRow.extractLsb'_of_selects h (by decide))
    rw [hg, hd] at hw
    exact ⟨.pack _, hw⟩
  · obtain ⟨hg, hd⟩ := gsize_dtype_eq_zero (OpcodeRow.extractLsb'_of_selects h (by decide))
    rw [hg, hd] at hw
    exact ⟨.unpack _, hw⟩

/-- Two rows that one word selects agree wherever both masks look. -/
theorem OpcodeRow.patterns_agree {a b : OpcodeRow} {w : Word} (ha : a.selects w = true) (hb : b.selects w = true) :
    a.pattern &&& b.mask = b.pattern &&& a.mask := by
  rw [← (a.selects_iff w).1 ha, ← (b.selects_iff w).1 hb, BitVec.and_assoc, BitVec.and_assoc, BitVec.and_comm a.mask]

/-- Settles O9: a decoded word is its command's encoding, which selects the command's own row (`selects_own_row`) and
has its fields (`fields_encode`); a selected word is an encoding (`exists_encode_of_selects`), which is not illegal; the
patterns of two rows differ where both masks look. -/
theorem decoderFollowsTheOpcodeMap : Obligations.DecoderFollowsTheOpcodeMap := by
  have own (w : Word) (i : Instr) (h : decode w = .command i) :
      ∃ r ∈ opcodeMap, r.mnemonic = i.mnemonic ∧ r.selects w = true :=
    encode_of_decode h ▸ selects_own_row i
  refine ⟨fun w i h => ?_, fun w => ⟨?_, fun hnone => ?_⟩, ?_⟩
  · obtain ⟨r, hr, hname, hsel⟩ := own w i h
    obtain ⟨hbits, hgsize, hdtype⟩ := fields_encode i
    rw [encode_of_decode h] at hbits hgsize hdtype
    exact ⟨r, hr, hsel, hname, hbits, hgsize, hdtype⟩
  · rintro ⟨e, he⟩ r hr
    by_contra hsel
    obtain ⟨i, rfl⟩ := exists_encode_of_selects hr (by simpa using hsel)
    exact Decoded.noConfusion ((decode_encode i).symm.trans he)
  · cases hd : decode w with
    | illegal e => exact ⟨e, rfl⟩
    | command i =>
      obtain ⟨r, hr, -, hsel⟩ := own w i hd
      exact absurd hsel (by simp [hnone r hr])
  · have hdiffer : opcodeMap.Pairwise fun a b => a.pattern &&& b.mask ≠ b.pattern &&& a.mask := by decide
    exact hdiffer.imp fun hne w hw => hne (OpcodeRow.patterns_agree hw.1 hw.2)

end Sys2Proof

/-! PROOFS. The invariant of the machine (10_state.md R50 to R58, 20_memory.md R100, R131): what validation says of the
addresses a command writes, one lemma per kind of move for the invariant, and the bytes of data memory each kind of
move can change. -/

namespace Sys2Proof.Machine

/-! ### Launching and stepping -/

/-- Settles O1, by unfolding one step with its first move known. -/
theorem stepRunsTheDecodedCommand : Obligations.StepRunsTheDecodedCommand := by
  refine ⟨fun s w i rest ht ha hd => ?_, fun s r hr ha => ?_, fun s r rest hr ha => ?_⟩
  · rw [step_cmdWrite ht ha, writeCmd, hd]
  · simp only [step, ha, engineTurn, hr]
  · simp only [step_event ha, eventStep, engineTurn, hr]

/-- Settles O2: an idle engine launches (`exec_idle`), which rejects or accepts. -/
theorem launchRejectsOrLatches : Obligations.LaunchRejectsOrLatches := by
  intro i s hr
  refine ⟨fun c hc => ?_, fun hc => ?_⟩
  · rw [exec_idle hr, hc, launch_some, reject, rejectedStatus_eq]
  · rw [exec_idle hr, hc, launch_none, accept, busyStatus]

/-- Settles O21: commands by `exec_frame`, steps by the cases of `step_register_cases`. -/
theorem operandRegistersChangeOnlyByHostOrReset : Obligations.OperandRegistersChangeOnlyByHostOrReset := by
  refine ⟨fun i s t => exec_frame, fun s t h => ?_⟩
  rcases step_register_cases h with hs | ⟨w, rest, -, -, hw⟩ | ⟨r, v, rest, ha, -, ht, rfl⟩ | ⟨r, bs, -, -, rfl⟩ |
    ⟨rest, ha, rfl⟩
  · exact .inl hs.regs
  · exact .inl (writeCmd_frame hw).2.2
  · exact .inr (.inl ⟨r, v, rest, ha, ht, rfl⟩)
  · exact .inl rfl
  · exact .inr (.inr ⟨rest, ha, rfl⟩)

/-! ### What validation says of a command's addresses -/

section Valid

variable {i : Instr} {p : Params} {r : OperandRegs}

theorem not_errorApplies_of_valid (h : commandCheck i p r = none) (c : ErrCode) : ¬errorApplies c i p r :=
  (firstErrorInOrderIsReported i p r).2.1 h c

theorem commandCheck_ne_simdUnsupported : commandCheck i p r ≠ some .simdUnsupported := fun h =>
  (((firstErrorInOrderIsReported i p r).1 _).1 h).1

/-- A buffer of a valid command is empty or ends at or before MEM_SIZE (60_exceptions.md R406). -/
theorem buffer_in_range (h : commandCheck i p r = none) {b : Buffer} (hb : b ∈ commandBuffers i r) :
    b.len = 0 ∨ b.base + b.len ≤ p.memSize := by
  have hrange := not_errorApplies_of_valid h .badRange
  by_contra hn
  exact hrange ⟨b, hb, by omega, by omega⟩

theorem outBuffer_in_range (h : commandCheck i p r = none) {b : Buffer} (hb : b ∈ outBuffers i r) :
    b.len = 0 ∨ b.base + b.len ≤ p.memSize :=
  buffer_in_range h (List.mem_of_mem_filter hb)

end Valid

theorem Buffer.has_iff (b : Buffer) (x : Nat) : b.has x = true ↔ b.base ≤ x ∧ x < b.base + b.len := by
  simp [Buffer.has]

theorem inBuffers_iff (r : Run) (x : Nat) :
    inBuffers r x = true ↔ ∃ b ∈ commandBuffers r.instr r.latched, b.has x = true := List.any_eq_true

theorem inOutBuffers_iff (r : Run) (x : Nat) :
    inOutBuffers r x = true ↔ ∃ b ∈ outBuffers r.instr r.latched, b.has x = true := List.any_eq_true

theorem inBuffers_of_out {r : Run} {b : Buffer} {x : Nat} (hb : b ∈ outBuffers r.instr r.latched)
    (hx : b.has x = true) : inBuffers r x = true :=
  (inBuffers_iff r x).2 ⟨b, List.mem_of_mem_filter hb, hx⟩

theorem lt_memSize_of_inBuffers {r : Run} {p : Params} {x : Nat} (h : commandCheck r.instr p r.latched = none)
    (hx : inBuffers r x = true) : x < p.memSize := by
  obtain ⟨b, hb, hx⟩ := (inBuffers_iff r x).1 hx
  have hrange := buffer_in_range h hb
  rw [Buffer.has_iff] at hx
  omega

/-! ### Blocks over out buffers -/

theorem sameRanges_freeBlocks {bs : List Block} {os : List Buffer} (draw : Nat) (h : sameRanges bs os) :
    sameRanges (bs.map (freeBlock draw)) os := by
  rw [sameRanges, List.map_map, ← h]
  exact List.map_congr_left fun b _ => by simp

theorem sameRanges_freeOutBlocks (draw : Nat) (r : Run) :
    sameRanges (freeOutBlocks draw r) (outBuffers r.instr r.latched) := by
  rw [sameRanges, freeOutBlocks, List.map_map]
  exact List.map_congr_left fun o _ => by simp

/-- Blocks over buffers in range are in range. -/
theorem blocks_in_range {bs : List Block} {os : List Buffer} {limit : Nat} (h : sameRanges bs os)
    (ho : ∀ o ∈ os, o.len = 0 ∨ o.base + o.len ≤ limit) : ∀ b ∈ bs, b.2 = [] ∨ b.1 + b.2.length ≤ limit := by
  intro b hb
  have hmem : (b.1, b.2.length) ∈ os.map fun o => (o.base, o.len) := h ▸ List.mem_map_of_mem hb
  obtain ⟨o, hmem, heq⟩ := List.mem_map.1 hmem
  obtain ⟨hbase, hlen⟩ := Prod.mk.inj heq
  rw [← hbase, ← hlen, ← List.length_eq_zero_iff, ← hlen]
  exact ho o hmem

section ValidRun

variable {p : Params} {r : Run} (h : commandCheck r.instr p r.latched = none)
include h

theorem freeOutBlocks_in_range (draw : Nat) : ∀ b ∈ freeOutBlocks draw r, b.2 = [] ∨ b.1 + b.2.length ≤ p.memSize :=
  blocks_in_range (sameRanges_freeOutBlocks draw r) fun _ => outBuffer_in_range h

/-- Completion keeps memory inside MEM_SIZE. -/
theorem below_commit {bs : List Block} {m : Memory} (hs : sameRanges bs (outBuffers r.instr r.latched))
    (hw : ∀ x ∈ r.written, inBuffers r x = true) (draw : Nat) (hm : m.below p.memSize = true) :
    (commit r draw bs m).below p.memSize = true := by
  have hbelow {bs : List Block} (hs : sameRanges bs (outBuffers r.instr r.latched)) :
      (m.setBlocks bs).below p.memSize = true :=
    Memory.below_setBlocks bs (blocks_in_range hs fun _ => outBuffer_in_range h) hm
  unfold commit
  split
  · exact hbelow hs
  · exact below_drawCells draw _ (fun x hx => lt_memSize_of_inBuffers h (hw x hx))
      (hbelow (sameRanges_freeBlocks draw hs))

/-- A valid command in flight completes at the engine's turn, its outputs over its out buffers. -/
theorem engineTurn_completes_inBuffers {s : State} (hr : s.running = some r) :
    ∃ bs, sameRanges bs (outBuffers r.instr r.latched) ∧ engineTurn s = .next (complete r bs s) := by
  obtain ⟨bs, hbs, hranges⟩ := commandBlocks_ranges s.params s.draws s.mem h
  exact ⟨bs, hranges, by simpa only [engineTurn, hr] using exec_completes hr hbs⟩

end ValidRun

/-! ### The invariant, one lemma per kind of move -/

theorem RunOk.congr {s t : State} {r : Run} (h : RunOk s r) (hp : t.params = s.params) (hc : t.cmd = s.cmd)
    (hr : t.regs = s.regs) : RunOk t r where
  word := hc ▸ h.word
  latched := hr ▸ h.latched
  valid := hp ▸ h.valid
  simd := hp ▸ h.simd
  written := h.written

theorem UnobservedOk.congr {s t : State} {r : Run} (h : UnobservedOk s r) (hp : t.params = s.params) :
    UnobservedOk t r where
  valid := hp ▸ h.valid
  written := h.written

theorem State.Inv.of_quiet {s t : State} (hi : s.Inv) (h : quietOf s t) : t.Inv := by
  obtain ⟨_, _, _, _, hu, rfl⟩ := h
  refine { hi with run := fun r hr => (hi.run r hr).congr rfl rfl rfl, unobserved := fun r hr => ?_ }
  rcases hu with rfl | ⟨rfl, -⟩
  · exact (hi.unobserved r hr).congr rfl
  · cases hr

theorem State.Inv.withAgenda {s : State} (hi : s.Inv) (agenda : List Event) : { s with agenda := agenda }.Inv :=
  hi.of_quiet (quietOf_mk s agenda _ _)

theorem launchError_ne_simdUnsupported {s : State} {w : Word} {c : ErrCode} (h : launchError s w c) :
    c ≠ .simdUnsupported := by
  rintro rfl
  rcases h with ⟨e, -, h⟩ | ⟨i, -, h⟩
  · cases h
  · exact commandCheck_ne_simdUnsupported h

section TakenWrites

variable {s : State} (hi : s.Inv) (ht : takesWrites s)
include hi ht

theorem State.Inv.reject {w : Word} {c : ErrCode} (hl : launchError s w c) :
    (reject c { s with cmd := w }).Inv := by
  obtain ⟨hlegal, hbusy, -, -, hsimd, hidle⟩ := rejectedStatus_fields c
  have hr := running_none_of_takesWrites hi ht
  obtain ⟨-, hz⟩ := ht
  refine { hi with
    status := hlegal (launchError_ne_simdUnsupported hl)
    busy := by simp [hbusy, hr]
    run := by simp [hr]
    unobserved := fun r hr => (hi.unobserved r hr).congr rfl
    idle := fun h => absurd h hidle
    simd := by simp [hsimd]
    reset := by simp [hz] }

theorem State.Inv.accept {w : Word} {i : Instr} (hd : decode w = .command i)
    (hc : commandCheck i s.params s.regs = none) :
    (accept i (commandSimd i s.params.lanes) { s with cmd := w }).Inv := by
  obtain ⟨hlegal, hbusy, -, -, hsimd, hidle⟩ := busyStatus_fields
  obtain ⟨-, hz⟩ := ht
  refine { hi with
    status := hlegal
    busy := hbusy
    run := ?_
    unobserved := fun r hr => (hi.unobserved r hr).congr rfl
    idle := fun h => absurd h hidle
    simd := by simp [hsimd]
    reset := by simp [hz] }
  intro r hr
  cases hr
  exact ⟨hd, rfl, hc, rfl, nofun⟩

theorem State.Inv.writeCmd {w : Word} {t : State} (h : writeCmd w s = .next t) : t.Inv := by
  have hr := running_none_of_takesWrites hi ht
  by_cases hl : ∃ c, launchError s w c
  · obtain ⟨c, hc⟩ := hl
    cases (writeCmd_rejects hr hc).symm.trans h
    exact hi.reject ht hc
  · obtain ⟨i, hd, hacc⟩ := writeCmd_accepts hr (not_exists.1 hl)
    cases hacc.symm.trans h
    exact hi.accept ht hd (Option.eq_none_iff_forall_ne_some.2 fun c hc => hl ⟨c, .inr ⟨i, hd, hc⟩⟩)

/-- No command is in flight whose latched registers could differ from the written ones. -/
theorem State.Inv.withRegs (regs : OperandRegs) : { s with regs := regs }.Inv := by
  have hr := running_none_of_takesWrites hi ht
  obtain ⟨-, hz⟩ := ht
  refine { hi with
    run := by simp [hr]
    unobserved := fun r hr => (hi.unobserved r hr).congr rfl
    reset := by simp [hz] }

end TakenWrites

theorem inBuffers_noteStores (a n : Nat) (r : Run) (x : Nat) : inBuffers (noteStores a n r) x = inBuffers r x := rfl

theorem noteStores_written_inBuffers {r : Run} (h : ∀ x ∈ r.written, inBuffers r x = true) (a n : Nat) :
    ∀ x ∈ (noteStores a n r).written, inBuffers (noteStores a n r) x = true := by
  intro x hx
  rw [noteStores_written, List.mem_append, mem_storedIn] at hx
  rw [inBuffers_noteStores]
  rcases hx with ⟨hx, -⟩ | hx
  · exact hx
  · exact h x hx

theorem spoiledBlocks_in_range {s : State} (hi : s.Inv) (a n : Nat) :
    ∀ b ∈ spoiledBlocks s a n, b.2 = [] ∨ b.1 + b.2.length ≤ s.params.memSize := by
  intro b hb
  obtain ⟨r, hr, -, o, ho, rfl⟩ := mem_spoiledBlocks.1 hb
  exact freeOutBlocks_in_range (hi.unobserved r hr).valid s.draws _ (List.mem_map.2 ⟨o, ho, rfl⟩)

theorem hostMemWrite_eq {size : AccessSize} {a : Nat} {v : Word} {s t : State} (h : hostMemWrite size a v s = .next t) :
    a + accessBytes size ≤ s.params.memSize ∧ t = { s with
      mem := (hostStore s s.mem a (bytesLE (accessBytes size) v.toNat)).setBlocks
        (spoiledBlocks s a (accessBytes size))
      running := s.running.map (noteStores a (accessBytes size))
      unobserved := s.unobserved.map (noteStores a (accessBytes size))
      draws := s.draws + 1 } := by
  unfold hostMemWrite at h
  split at h
  · cases h
  · next hlt =>
    cases h
    exact ⟨not_lt.1 hlt, rfl⟩

theorem State.Inv.hostMemWrite {s t : State} (hi : s.Inv) {size : AccessSize} {a : Nat} {v : Word}
    (h : hostMemWrite size a v s = .next t) : t.Inv := by
  have hwf := wf_hostMemWrite h hi.memWf
  obtain ⟨hlt, rfl⟩ := hostMemWrite_eq h
  refine { hi with
    memWf := hwf
    memBelow := Memory.below_setBlocks _ (spoiledBlocks_in_range hi a _)
      (below_hostStore s a _ (by simpa using hlt) hi.memBelow)
    busy := by simp [hi.busy]
    run := fun q hq => ?_
    unobserved := fun q hq => ?_ }
  · obtain ⟨r, hr, rfl⟩ := Option.map_eq_some_iff.1 hq
    have hrun := hi.run r hr
    exact { hrun with written := noteStores_written_inBuffers hrun.written a _ }
  · obtain ⟨r, hr, rfl⟩ := List.mem_map.1 hq
    have hrun := hi.unobserved r hr
    exact { hrun with written := noteStores_written_inBuffers hrun.written a _ }

theorem commandSimd_eq_true {i : Instr} {lanes : SimdLanes} (h : commandSimd i lanes = true) :
    ∃ bits gsize dtype, i = .qmmT bits gsize dtype ∧ qmmTSimd bits lanes = true := by
  cases i with
  | qmmT bits gsize dtype => exact ⟨bits, gsize, dtype, rfl, h⟩
  | _ => cases h

theorem statusBusy_of_running {s : State} (hi : s.Inv) {r : Run} (hr : s.running = some r) :
    statusBusy s.status = true := by rw [hi.busy, hr, Option.isSome_some]

theorem State.Inv.complete {s : State} (hi : s.Inv) {r : Run} (hr : s.running = some r) {bs : List Block}
    (hs : sameRanges bs (outBuffers r.instr r.latched)) : (complete r bs s).Inv := by
  obtain ⟨hlegal, hbusy, -, -, hsimd, hidle⟩ := doneStatus_fields r.simd
  have hz := resetAsserted_false_of_busy hi (statusBusy_of_running hi hr)
  obtain ⟨hword, -, hvalid, hdatapath, hwritten⟩ := hi.run r hr
  refine { hi with
    memWf := wf_commit r s.draws bs hi.memWf
    memBelow := below_commit hvalid hs hwritten s.draws hi.memBelow
    status := hlegal
    busy := hbusy
    run := nofun
    unobserved := ?_
    idle := fun h => absurd h hidle
    simd := fun h => ?_
    reset := by simp [hz] }
  · intro q hq
    rcases List.mem_cons.1 hq with rfl | hq
    · exact ⟨hvalid, hwritten⟩
    · exact (hi.unobserved q hq).congr rfl
  · rw [complete_status, hsimd, hdatapath] at h
    obtain ⟨bits, gsize, dtype, hinstr, hok⟩ := commandSimd_eq_true h
    exact ⟨bits, gsize, dtype, hinstr ▸ hword, hok⟩

theorem State.Inv.engineTurn {s t : State} (hi : s.Inv) (h : engineTurn s = .next t) : t.Inv := by
  rcases engineTurn_cases h with ⟨-, rfl⟩ | ⟨r, -, hr, -⟩
  · exact hi
  · obtain ⟨bs, hs, hc⟩ := engineTurn_completes_inBuffers (hi.run r hr).valid hr
    cases hc.symm.trans h
    exact hi.complete hr hs

theorem abandonedBlocks_in_range {s : State} (hi : s.Inv) :
    ∀ b ∈ abandonedBlocks s, b.2 = [] ∨ b.1 + b.2.length ≤ s.params.memSize := by
  unfold abandonedBlocks
  split
  · nofun
  · next r hr => exact freeOutBlocks_in_range (hi.run r hr).valid s.draws

theorem State.Inv.assertReset {s : State} (hi : s.Inv) : (assertReset s).Inv := by
  obtain ⟨hlegal, hbusy, -, -, hsimd⟩ := idleStatus_fields
  exact { hi with
    memWf := Memory.wf_setBlocks _ hi.memWf
    memBelow := Memory.below_setBlocks _ (abandonedBlocks_in_range hi) hi.memBelow
    status := hlegal
    busy := hbusy
    run := nofun
    unobserved := fun r hr => (hi.unobserved r hr).congr rfl
    idle := fun _ => rfl
    simd := by simp [hsimd]
    reset := fun _ => ⟨rfl, rfl, rfl⟩ }

theorem State.Inv.releaseReset {s : State} (hi : s.Inv) : (releaseReset s).Inv :=
  { hi with
    run := fun r hr => (hi.run r hr).congr rfl rfl rfl
    unobserved := fun r hr => (hi.unobserved r hr).congr rfl
    reset := nofun }

theorem State.Inv.eventStep {s t : State} (hi : s.Inv) {e : Event} (h : eventStep e s = .next t) : t.Inv := by
  rcases eventStep_cases h with hq | ⟨w, -, ht, hw⟩ | ⟨r, v, -, -, ht, rfl⟩ | ⟨size, a, v, -, hm⟩ | ⟨-, he⟩ |
    ⟨-, rfl⟩ | ⟨-, rfl⟩
  · exact hi.of_quiet hq
  · exact hi.writeCmd ht hw
  · exact hi.withRegs ht _
  · exact hi.hostMemWrite hm
  · exact hi.engineTurn he
  · exact hi.assertReset
  · exact hi.releaseReset

/-- Settles O58: the engine's turn, or the lemma about the first move of the agenda. -/
theorem everyStepKeepsTheInvariant : Obligations.EveryStepKeepsTheInvariant := by
  intro s t hi h
  rcases step_cases h with ⟨-, he⟩ | ⟨e, rest, -, he⟩
  · exact hi.engineTurn he
  · exact (hi.withAgenda rest).eventStep he

theorem resetWith_inv {p : Params} (hp : paramsOk p = true) : (State.resetWith p).Inv := by
  obtain ⟨hlegal, hbusy, -, -, hsimd⟩ := idleStatus_fields
  exact ⟨hp, rfl, rfl, hlegal, hbusy, nofun, nofun, fun _ => rfl, fun h => absurd (hsimd.symm.trans h) (by decide),
    nofun⟩

/-- Settles O57, field by field; the default parameters meet R6. -/
theorem invariantHoldsAfterReset : Obligations.InvariantHoldsAfterReset :=
  ⟨fun _ => resetWith_inv, resetWith_inv (by decide)⟩

/-! ### The bytes a move can change -/

/-- Completion changes only out bytes and the bytes the host has written meanwhile. -/
theorem get_complete_of_ne {s : State} (hi : s.Inv) {r : Run} {bs : List Block} {x : Nat}
    (hs : sameRanges bs (outBuffers r.instr r.latched)) (hx : (complete r bs s).mem.get x ≠ s.mem.get x) :
    x ∈ r.written ∨ ∃ b ∈ outBuffers r.instr r.latched, b.has x = true := by
  by_contra hn
  obtain ⟨hw, ho⟩ := not_or.1 hn
  refine hx (get_commit_outside r s.draws bs hi.memWf (fun b hb => ?_) hw)
  by_contra hc
  exact ho ((covers_of_sameRanges hs x).1 ⟨b, hb, by simpa using hc⟩)

theorem get_engineTurn_of_ne {s t : State} (hi : s.Inv) (h : engineTurn s = .next t) {x : Nat}
    (hx : t.mem.get x ≠ s.mem.get x) :
    ∃ r, s.running = some r ∧ (x ∈ r.written ∨ ∃ b ∈ outBuffers r.instr r.latched, b.has x = true) := by
  rcases engineTurn_cases h with ⟨-, rfl⟩ | ⟨r, -, hr, -⟩
  · exact absurd rfl hx
  · obtain ⟨bs, hs, hc⟩ := engineTurn_completes_inBuffers (hi.run r hr).valid hr
    cases hc.symm.trans h
    exact ⟨r, hr, get_complete_of_ne hi hs hx⟩

theorem get_hostMemWrite_of_ne {s t : State} {size : AccessSize} {a : Nat} {v : Word} {x : Nat}
    (h : hostMemWrite size a v s = .next t) (hx : t.mem.get x ≠ s.mem.get x) :
    a ≤ x ∧ x < a + accessBytes size ∨
      ∃ r ∈ s.unobserved, (∃ j < accessBytes size, (commandBuffers r.instr r.latched).any (·.has (a + j)) = true) ∧
        ∃ b ∈ outBuffers r.instr r.latched, b.has x = true := by
  by_cases hin : a ≤ x ∧ x < a + accessBytes size
  · exact .inl hin
  refine .inr ?_
  by_contra hn
  refine hx (get_hostMemWrite_outside h (by omega) fun b hb => ?_)
  obtain ⟨r, hr, ⟨y, hy⟩, o, ho, rfl⟩ := mem_spoiledBlocks.1 hb
  obtain ⟨hbuf, hle, hlt⟩ := mem_storedIn.1 hy
  have hno : ¬o.has x = true := fun hox =>
    hn ⟨r, hr, ⟨y - a, by omega, by rwa [Nat.add_sub_cancel' hle]⟩, o, ho, hox⟩
  simpa [Block.covers, Buffer.has] using hno

theorem abandonedBlocks_covers {s : State} {b : Block} {x : Nat} (hb : b ∈ abandonedBlocks s)
    (hx : b.covers x = true) : ∃ r, s.running = some r ∧ ∃ o ∈ outBuffers r.instr r.latched, o.has x = true := by
  unfold abandonedBlocks at hb
  split at hb
  · cases hb
  · next r hr => exact ⟨r, hr, (covers_of_sameRanges (sameRanges_freeOutBlocks s.draws r) x).1 ⟨b, hb, hx⟩⟩

theorem get_assertReset_of_ne {s : State} {x : Nat} (hx : (assertReset s).mem.get x ≠ s.mem.get x) :
    ∃ r, s.running = some r ∧ ∃ b ∈ outBuffers r.instr r.latched, b.has x = true := by
  by_contra hn
  refine hx (Memory.get_setBlocks_outside _ fun b hb => ?_)
  by_contra hc
  exact hn (abandonedBlocks_covers hb (by simpa using hc))

/-- A CMD write stores no byte. -/
theorem writeCmd_mem {s t : State} {w : Word} (hr : s.running = none) (h : writeCmd w s = .next t) :
    t.mem = s.mem := by
  by_cases hl : ∃ c, launchError s w c
  · obtain ⟨c, hc⟩ := hl
    cases (writeCmd_rejects hr hc).symm.trans h
    rfl
  · obtain ⟨i, -, hacc⟩ := writeCmd_accepts hr (not_exists.1 hl)
    cases hacc.symm.trans h
    rfl

/-- Settles O28: only a host store, a completion and an assertion of reset change bytes, and each changes those of its
lemma. -/
theorem memoryChangesOnlyByHostOrOutBuffers : Obligations.MemoryChangesOnlyByHostOrOutBuffers := by
  intro s t x hi h hx
  rcases step_cases h with ⟨-, he⟩ | ⟨e, rest, ha, he⟩
  · exact .inr (get_engineTurn_of_ne hi he hx)
  rcases eventStep_cases he with ⟨_, _, _, _, -, rfl⟩ | ⟨w, -, ht, hw⟩ | ⟨r, v, -, -, -, rfl⟩ | ⟨size, a, v, rfl, hm⟩ |
    ⟨-, he⟩ | ⟨-, rfl⟩ | ⟨-, rfl⟩
  · exact absurd rfl hx
  · have hmem := writeCmd_mem (running_none_of_takesWrites (hi.withAgenda rest) ht) hw
    exact absurd (congrArg (·.get x) hmem) hx
  · exact absurd rfl hx
  · exact .inl ⟨size, a, v, rest, ha, get_hostMemWrite_of_ne (s := { s with agenda := rest }) hm hx⟩
  · exact .inr (get_engineTurn_of_ne (hi.withAgenda rest) he hx)
  · obtain ⟨r, hr, ho⟩ := get_assertReset_of_ne hx
    exact .inr ⟨r, hr, .inr ho⟩
  · exact absurd rfl hx

/-! ### No error after acceptance -/

@[simp] theorem onlyHostFaults_next (s : State) : onlyHostFaults (.next s) := trivial

theorem onlyHostFaults_engineTurn {s : State} (hi : s.Inv) : onlyHostFaults (engineTurn s) := by
  cases hr : s.running with
  | none => simp only [engineTurn, hr, onlyHostFaults_next]
  | some r =>
    obtain ⟨bs, -, hc⟩ := engineTurn_completes_inBuffers (hi.run r hr).valid hr
    rw [hc]
    trivial

theorem onlyHostFaults_hostRegWrite {s : State} (hi : s.Inv) (addr size : Nat) (v : Word) :
    onlyHostFaults (hostRegWrite addr size v s) := by
  unfold hostRegWrite
  split
  · trivial
  split
  · trivial
  next hb =>
  rw [Bool.or_eq_true, not_or, Bool.not_eq_true, Bool.not_eq_true] at hb
  split
  · obtain ⟨t, hw⟩ := writeCmd_next (w := v) (running_none_of_takesWrites hi ⟨hb.2, hb.1⟩)
    rw [hw]
    trivial
  · trivial

theorem onlyHostFaults_gatherNext (g : Gather) (i : Nat) (s : State) : onlyHostFaults (gatherNext g i s) := by
  unfold gatherNext
  repeat' split
  all_goals trivial

theorem onlyHostFaults_eventStep {s : State} (hi : s.Inv) (e : Event) : onlyHostFaults (eventStep e s) := by
  cases e with
  | regWrite addr size v => exact onlyHostFaults_hostRegWrite hi addr size v
  | regRead addr size =>
    simp only [eventStep, hostRegRead]
    repeat' split
    all_goals trivial
  | memWrite size a v =>
    simp only [eventStep, hostMemWrite]
    split <;> trivial
  | memRead size a =>
    simp only [eventStep, hostMemRead]
    split <;> trivial
  | poll =>
    simp only [eventStep, pollOnce]
    repeat' split
    all_goals trivial
  | engineTurn => exact onlyHostFaults_engineTurn hi
  | gatherAt g i => exact onlyHostFaults_gatherNext g i s
  | resetAssert => trivial
  | resetRelease => trivial
  | batched b => trivial
  | batchedAt b i => trivial
  | gather g => trivial

/-- Settles O59: only a command in flight could fault, and it is valid, so it completes
(`engineTurn_completes_inBuffers`). -/
theorem acceptedCommandsComplete : Obligations.AcceptedCommandsComplete := by
  intro s hi
  refine ⟨?_, fun r hr => ?_⟩
  · unfold step
    split
    · exact onlyHostFaults_engineTurn hi
    · exact onlyHostFaults_eventStep (hi.withAgenda _) _
  · obtain ⟨bs, -, hc⟩ := engineTurn_completes_inBuffers (hi.run r hr).valid hr
    obtain ⟨-, hbusy, hdone, herr, -⟩ := doneStatus_fields r.simd
    exact ⟨_, hc, rfl, hdone, herr, hbusy⟩

end Sys2Proof.Machine

/-! PROOFS. The host's register accesses, POLL and the reset input (10_state.md R51 to R62, 30_encoding.md R172,
70_reset_and_hazards.md R450 to R454), and the host sequences (43_host_batched.md). -/

namespace Sys2Proof.Machine

/-! ### Registers -/

/-- Settles O14: each register of the reset state by evaluation, CAP for 8 lanes by `capValue_fields`. -/
theorem resetGivesTheStatedValues : Obligations.ResetGivesTheStatedValues := by
  refine ⟨fun p => ⟨fun r hr => ?_, rfl, rfl⟩, ?_⟩
  · cases r with
    | cap => exact absurd rfl hr
    | _ => rfl
  · obtain ⟨-, -, -, -, -, -, -, -, hvalue⟩ := capValue_fields defaultParams
    exact hvalue rfl

/-- Keeping 32 bits is masking the others off. -/
theorem setWidth_setWidth_eq_and (v : Word) : (v.setWidth 32).setWidth 64 = v &&& 0xFFFFFFFF := by
  apply BitVec.eq_of_toNat_eq
  have hmask : v.toNat &&& 0xFFFFFFFF = v.toNat % 2 ^ 32 := Nat.and_two_pow_sub_one_eq_mod v.toNat 32
  rw [BitVec.toNat_and, BitVec.toNat_setWidth, BitVec.toNat_setWidth, BitVec.ofNat_eq_ofNat, BitVec.toNat_ofNat,
    Nat.mod_eq_of_lt (by decide : 0xFFFFFFFF < 2 ^ 64), hmask]
  omega

/-- What a written register other than CMD reads as (10_state.md R59 to R62). -/
theorem readReg_writeOperandReg_same {r : Reg} (hr : r ≠ .cmd) (v : Word) (s : State) :
    readReg r { s with regs := writeOperandReg r v s.regs } = afterWrite r v (readReg r s) := by
  cases r with
  | cmd => exact absurd rfl hr
  | dimM => exact setWidth_setWidth_eq_and v
  | dimN => exact setWidth_setWidth_eq_and v
  | dimK => exact setWidth_setWidth_eq_and v
  | rows => exact setWidth_setWidth_eq_and v
  | cols => exact setWidth_setWidth_eq_and v
  | _ => rfl

/-- Each register is a field of its own. -/
theorem readReg_writeOperandReg_of_ne {r r' : Reg} (h : r' ≠ r) (v : Word) (s : State) :
    readReg r' { s with regs := writeOperandReg r v s.regs } = readReg r' s := by
  revert h
  cases r <;> cases r' <;> simp [readReg, writeOperandReg]

/-- A register read while reset is released: the host has the register's value, and a STATUS read may end the wait for
completed commands. -/
theorem step_rd_hostReads {s : State} {r : Reg} {rest : List Event} (hz : s.resetAsserted = false)
    (ha : s.agenda = rd s.params r :: rest) : step s = .next (hostReads r { s with agenda := rest }) := by
  rw [step_event ha]
  simp [rd, eventStep, hostRegRead, hz]

/-- Offsets 0x68 to 0xF8 are reserved (10_state.md R62, R64). -/
theorem regOfAccess_reserved (p : Params) {k : Nat} (hk : 13 ≤ k) (hk' : k < 32) :
    regOfAccess p (p.regBase + 8 * k) 8 = .ok .reserved := by
  obtain ⟨n, rfl⟩ := Nat.exists_eq_add_of_le' hk
  have hindex : (p.regBase + 8 * (n + 13) - p.regBase) / 8 = n + 13 := by omega
  rw [regOfAccess, if_neg (by omega), if_neg (by omega), hindex]
  rfl

/-- Settles O17: what is read after the write by `readReg_writeOperandReg_same` and `readReg_writeOperandReg_of_ne`, the
reserved offsets by `regOfAccess_reserved`. -/
theorem registerWriteThenRead : Obligations.RegisterWriteThenRead := by
  refine ⟨fun s r r' v rest ht hr ha => ?_, fun s k v rest ht hk hk' => ⟨fun ha => ?_, fun ha => ?_⟩⟩
  · refine ⟨_, _, step_wr_taken ht hr ha, step_rd_hostReads ht.2 rfl, rfl, ?_⟩
    have hread : readReg r' { s with regs := writeOperandReg r v s.regs } =
        if r' = r then afterWrite r v (readReg r s) else readReg r' s := by
      split
      · next h => rw [h, readReg_writeOperandReg_same hr]
      · next h => exact readReg_writeOperandReg_of_ne h v s
    rw [hostReads_hostData, ← hread]
    cases r' <;> rfl
  · obtain ⟨hb, hz⟩ := ht
    rw [step_event ha]
    simp [eventStep, hostRegWrite, regOfAccess_reserved s.params hk hk', hb, hz, writeOperandReg]
  · rw [step_event ha]
    simp [eventStep, hostRegRead, regOfAccess_reserved s.params hk hk', ht.2, hostReads, readReg]

/-- Settles O22: the access form is refused before anything else is looked at (10_state.md R51). -/
theorem oddRegisterAccessesAreRefused : Obligations.OddRegisterAccessesAreRefused := by
  intro s addr size v rest hlo hhi hform
  have haccess : regOfAccess s.params addr size = .error .registerAccessForm := by
    rw [regOfAccess, if_neg (by omega), if_pos hform]
  refine ⟨fun ha => ?_, fun ha => ?_⟩ <;> rw [step_event ha]
  · simp [eventStep, hostRegWrite, haccess]
  · simp [eventStep, hostRegRead, haccess]

/-! ### POLL -/

theorem showsCompletion_iff (w : Word) :
    showsCompletion w = true ↔ statusDone w = true ∧ statusBusy w = false ∧ statusErr w = false := by
  simp [showsCompletion, and_assoc]

section Poll

variable {s : State} {rest : List Event} (hz : s.resetAsserted = false) (ha : s.agenda = .poll :: rest)
include hz ha

theorem step_poll_done (hd : statusDone s.status = true) :
    step s = .next (hostReads .status { s with agenda := rest }) := by
  rw [step_event ha]
  simp [eventStep, pollOnce, hz, hd]

theorem step_poll_busy (hd : statusDone s.status = false) (hb : statusBusy s.status = true) :
    step s = .next (pushEvents [.engineTurn, .poll] (hostReads .status { s with agenda := rest })) := by
  rw [step_event ha]
  simp [eventStep, pollOnce, hz, hd, hb]

theorem step_poll_idle (hd : statusDone s.status = false) (hb : statusBusy s.status = false) :
    step s = .next (pushEvents [.poll] (hostReads .status { s with agenda := rest })) := by
  rw [step_event ha]
  simp [eventStep, pollOnce, hz, hd, hb]

end Poll

/-- The legal STATUS of a busy engine is the one of a running command (10_state.md R58). -/
theorem status_of_busy {s : State} (hi : s.Inv) (hb : statusBusy s.status = true) : s.status = busyStatus := by
  have h := hi.status
  simp only [legalStatus, Bool.or_eq_true, beq_iff_eq, List.any_eq_true] at h
  rcases h with (((h | h) | h) | h) | ⟨c, -, h⟩
  · exact absurd (h ▸ hb) (by decide)
  · exact h
  · exact absurd (h ▸ hb) (by decide)
  · exact absurd (h ▸ hb) (by decide)
  · exact absurd (h ▸ hb) (by simp [rejectedStatus_fields c])

/-- A valid command in flight completes when the engine moves next. -/
theorem step_completes {s : State} {r : Run} (hn : engineTurnNext s) (hr : s.running = some r)
    (hv : commandCheck r.instr s.params r.latched = none) :
    ∃ bs, step s = .next (complete r bs { s with agenda := s.agenda.tail }) := by
  rw [step_engine hn]
  exact engineTurn_completes hr hv

/-- Settles O24: a POLL that finds BUSY gives the command its turn and reads again, then finds DONE. -/
theorem pollEndsExactlyIfACommandWasLaunched : Obligations.PollEndsExactlyIfACommandWasLaunched := by
  refine ⟨fun s rest hi hb ha => ?_, fun s rest hd hb hz ha => ?_, fun s rest hs hz ha => ?_⟩
  · have hz := resetAsserted_false_of_busy hi hb
    obtain ⟨r, hr⟩ := Option.isSome_iff_exists.1 (hi.busy.symm.trans hb)
    obtain ⟨-, -, hnotDone, -⟩ := busyStatus_fields
    obtain ⟨-, hidle, hdone, herr, -⟩ := doneStatus_fields r.simd
    have hfirst := step_poll_busy hz ha (status_of_busy hi hb ▸ hnotDone) hb
    generalize ht : pushEvents [.engineTurn, .poll] (hostReads .status { s with agenda := rest }) = t at hfirst
    have hagenda : t.agenda = .engineTurn :: .poll :: rest := ht ▸ rfl
    obtain ⟨bs, hturn⟩ := step_completes (s := t) (.inr ⟨_, hagenda⟩) (by subst ht; exact hr)
      (by subst ht; exact (hi.run r hr).valid)
    have hlast := step_poll_done (s := complete r bs { t with agenda := t.agenda.tail }) (rest := rest) (ht ▸ hz)
      (by rw [complete_agenda, hagenda, List.tail_cons]) hdone
    exact ⟨_, _, _, hfirst, hturn, hlast, rfl, rfl, hdone, herr,
      if_pos ⟨rfl, (showsCompletion_iff _).2 ⟨hdone, hidle, herr⟩⟩⟩
  · rw [step_poll_done hz ha hd]
    cases he : statusErr s.status <;> simp [hostReads, showsCompletion, hd, hb, he, readReg]
  · obtain ⟨-, hidle, hdone, -⟩ := idleStatus_fields
    have hstatus : s.status = idleStatus := hs
    have hnot : showsCompletion 0#64 = false := by decide
    rw [step_poll_idle hz ha (hstatus ▸ hdone) (hstatus ▸ hidle)]
    simp [hostReads, pushEvents, hnot, readReg, ← ha, hs]

/-! ### Host sequences -/

/-- Settles O55: the first line and the line of batch `i` by evaluation, the stop by its test. -/
theorem batchedSequenceRunsOrStops : Obligations.BatchedSequenceRunsOrStops := by
  refine ⟨fun s b rest ha => step_event ha, fun s b i rest ha => ⟨fun hstop => ?_, fun hgo hi => ?_⟩⟩
  · rw [step_event ha, eventStep, batchedNext]
    split
    · rfl
    · next hs =>
      have hend : ¬i < b.shape.prod := by
        rcases hstop with ⟨hpos, herr⟩ | hend
        · simp [sequenceStops, hpos, herr] at hs
        · exact hend.not_gt
      rw [if_neg hend]
  · have hs : sequenceStops i { s with agenda := rest } = false := by
      rcases hgo with rfl | herr <;> simp [sequenceStops, *]
    rw [step_event ha, eventStep, batchedNext, if_neg (by simp [hs]), if_pos hi]
    rfl

/-- Where no byte reads as unspecified the host reads memory. -/
theorem hostRead_eq_read (s : State) : ∀ n a : Nat, (∀ j < n, readsUnspecified s (a + j) = false) →
    hostRead s a n = s.mem.read a n
  | 0, _, _ => rfl
  | n + 1, a, h => by
    have hhead : hostByte s a = s.mem.get a := if_neg (by simpa using h 0 n.succ_pos)
    have htail : hostRead s (a + 1) n = s.mem.read (a + 1) n := hostRead_eq_read s n (a + 1) fun j hj => by
      rw [Nat.add_assoc, Nat.add_comm 1]
      exact h (j + 1) (Nat.succ_lt_succ hj)
    rw [hostRead, Memory.read, hhead, htail]

theorem hostRead_withAgenda (s : State) (agenda : List Event) : ∀ n a : Nat,
    hostRead { s with agenda := agenda } a n = hostRead s a n
  | 0, _ => rfl
  | n + 1, a => by
    rw [hostRead, hostRead, hostRead_withAgenda s agenda n]
    rfl

theorem indicesInRange_iff (g : Gather) (i : Nat) (s : State) : indicesInRange g i s = true ↔
    ∀ j, i ≤ j → j < g.count →
      hostRead s (g.lhsAddr + 4 * j) 4 < g.xShape.prod ∧ hostRead s (g.rhsAddr + 4 * j) 4 < g.wShape.prod := by
  unfold indicesInRange gatherIndex
  simp only [List.all_eq_true, List.mem_range, Bool.and_eq_true, decide_eq_true_eq]
  constructor
  · intro h j hij hj
    have := h (j - i) (by omega)
    rwa [Nat.add_sub_cancel' hij] at this
  · intro h j hj
    exact h (i + j) (by omega) (by omega)

/-- Settles O56: the tests of `gatherNext` in their order, its indices being host reads (`hostRead_eq_read`). -/
theorem gatherSelectsByIndexOrRefuses : Obligations.GatherSelectsByIndexOrRefuses := by
  refine ⟨fun s g rest ha => step_event ha, fun s g i rest ha hstop => ?_, fun s a n => hostRead_eq_read s n a,
    fun s g i rest ha hgo hi hlhs hrhs => ?_⟩
  · rw [step_event ha, eventStep, gatherNext]
    split
    · rfl
    · next hs =>
      have hend : g.count ≤ i := by
        rcases hstop with ⟨hpos, herr⟩ | hend
        · simp [sequenceStops, hpos, herr] at hs
        · exact hend
      rw [if_pos hend]
  · have hs : sequenceStops i { s with agenda := rest } = false := by
      rcases hgo with rfl | herr <;> simp [sequenceStops, *]
    have hindices := indicesInRange_iff g i { s with agenda := rest }
    simp only [hostRead_withAgenda] at hindices
    rw [step_event ha, eventStep, gatherNext, if_neg (by simp [hs]), if_neg hi.not_ge, if_neg hlhs.not_gt,
      if_neg hrhs.not_gt]
    refine ⟨fun ⟨j, hij, hj, hout⟩ => if_neg fun h => ?_, fun hin => (if_pos (hindices.2 hin)).trans ?_⟩
    · obtain ⟨hl, hr⟩ := hindices.1 h j hij hj
      exact hout.elim (not_le.2 hl) (not_le.2 hr)
    · simp [gatherIndex, hostRead_withAgenda, pushEvents, batchLaunch, runEvents]

end Sys2Proof.Machine

/-! PROOFS. Host accesses to data memory before the host has read a command's DONE (20_memory.md R120, R131), and the
bytes that reset leaves free (70_reset_and_hazards.md R451, R452). -/

namespace Sys2Proof.Machine

/-! ### Blocks of free bytes -/

/-- Every byte of the block is the free value of its address. -/
def Block.isFree (draw : Nat) (b : Block) : Prop := b.2 = freeBytes draw b.1 b.2.length

theorem isFree_freeBlock (draw : Nat) (b : Block) : (freeBlock draw b).isFree draw := by
  simp [Block.isFree, freeBlock]

theorem isFree_freeOutBlocks {draw : Nat} {r : Run} : ∀ b ∈ freeOutBlocks draw r, b.isFree draw := by
  intro b hb
  obtain ⟨o, -, rfl⟩ := List.mem_map.1 hb
  simp [Block.isFree]

theorem Block.covers_iff (b : Block) (x : Nat) : b.covers x = true ↔ b.1 ≤ x ∧ x < b.1 + b.2.length := by
  simp [Block.covers]

/-- A byte that free blocks cover is free, in whatever order they are written. -/
theorem Memory.get_setBlocks_free {draw x : Nat} : ∀ {m : Memory} {bs : List Block}, m.wf = true →
    (∀ b ∈ bs, b.isFree draw) → (∃ b ∈ bs, b.covers x = true) → (m.setBlocks bs).get x = Config.freeByte draw x
  | _, [], _, _, hx => by simp at hx
  | m, (a, bytes) :: bs, hm, hf, hx => by
    obtain ⟨hhead, htail⟩ := List.forall_mem_cons.1 hf
    have hm' := wf_setBytes a bytes hm
    rw [Memory.setBlocks]
    by_cases hlater : ∃ b ∈ bs, b.covers x = true
    · exact Memory.get_setBlocks_free hm' htail hlater
    · have hnone : ∀ b ∈ bs, b.covers x = false := fun b hb => by
        by_contra hc
        exact hlater ⟨b, hb, by simpa using hc⟩
      have hcov : Block.covers (a, bytes) x = true := by
        obtain ⟨b, hb, hc⟩ := hx
        rcases List.mem_cons.1 hb with rfl | hb
        · exact hc
        · exact absurd ⟨b, hb, hc⟩ hlater
      obtain ⟨j, hj, rfl⟩ : ∃ j < bytes.length, x = a + j := by
        obtain ⟨hle, hlt⟩ := (Block.covers_iff _ _).1 hcov
        exact ⟨x - a, by simp only at hle hlt; omega, by simp only at hle; omega⟩
      have hbytes : bytes = freeBytes draw a bytes.length := hhead
      rw [get_setBlocks_outside bs hnone, get_setBytes_inside a bytes j hj hm, ← getElem_freeBytes draw a bytes.length j
        (by simpa using hj)]
      congr 1

/-- The out bytes of a command, once their buffers are written as free blocks, are free. -/
theorem get_setBlocks_out {draw x : Nat} {m : Memory} {bs : List Block} {os : List Buffer} (hm : m.wf = true)
    (hs : sameRanges bs os) (hf : ∀ b ∈ bs, b.isFree draw) (hx : ∃ o ∈ os, o.has x = true) :
    (m.setBlocks bs).get x = Config.freeByte draw x :=
  Memory.get_setBlocks_free hm hf ((covers_of_sameRanges hs x).2 hx)

/-! ### Reset -/

theorem get_assertReset {s : State} (hm : s.mem.wf = true) {x : Nat}
    (hx : ∃ r, s.running = some r ∧ ∃ b ∈ outBuffers r.instr r.latched, b.has x = true) :
    (assertReset s).mem.get x = Config.freeByte s.draws x := by
  obtain ⟨r, hr, ho⟩ := hx
  rw [assertReset_mem, abandonedBlocks, hr]
  exact get_setBlocks_out hm (sameRanges_freeOutBlocks s.draws r) isFree_freeOutBlocks ho

/-- Settles O23: memory by `get_assertReset` and `get_assertReset_of_ne`; while reset is asserted no write is taken. -/
theorem resetAbandonsTheCommand : Obligations.ResetAbandonsTheCommand := by
  refine ⟨fun s rest hi ha => ⟨_, step_event ha, rfl, rfl, rfl, rfl, rfl, rfl, rfl, fun x => ?_⟩,
    fun s r v rest hz ha => step_wr_dropped (fun ht => Bool.false_ne_true (ht.2.symm.trans hz)) ha,
    fun s rest ha => step_event ha⟩
  split
  · next hx => exact get_assertReset (s := { s with agenda := rest }) hi.memWf hx
  · next hx =>
    by_contra hne
    exact hx (get_assertReset_of_ne (s := { s with agenda := rest }) hne)

/-! ### Host reads -/

/-- Byte j of what the host reads. -/
theorem hostRead_digit (s : State) : ∀ n a j : Nat, j < n →
    hostRead s a n / 256 ^ j % 256 = (hostByte s (a + j)).toNat
  | n + 1, a, 0, _ => by
    have hb := (hostByte s a).isLt
    simp only [hostRead, pow_zero, Nat.div_one, Nat.add_zero]
    omega
  | n + 1, a, j + 1, hj => by
    have hb := (hostByte s a).isLt
    have hquot : ((hostByte s a).toNat + 256 * hostRead s (a + 1) n) / 256 = hostRead s (a + 1) n := by omega
    rw [hostRead, pow_succ', ← Nat.div_div_eq_div_mul, hquot, hostRead_digit s n (a + 1) j (by omega), Nat.add_assoc,
      Nat.add_comm 1]

theorem hostRead_lt (s : State) : ∀ n a : Nat, hostRead s a n < 256 ^ n
  | 0, _ => Nat.one_pos
  | n + 1, a => by
    have hb := (hostByte s a).isLt
    have htail := hostRead_lt s n (a + 1)
    rw [hostRead, pow_succ]
    omega

theorem hostRead_accessBytes_lt (s : State) (size : AccessSize) (a : Nat) : hostRead s a (accessBytes size) < 2 ^ 64 :=
  (hostRead_lt s _ a).trans_le (by cases size <;> decide)

theorem readsUnspecified_iff (s : State) (x : Nat) : readsUnspecified s x = true ↔
    ∃ r ∈ openRuns s, (∃ b ∈ outBuffers r.instr r.latched, b.has x = true) ∨ x ∈ r.written := by
  simp [readsUnspecified, inOutBuffers]

/-! ### Open commands -/

theorem mem_openRuns {s : State} {r : Run} : r ∈ openRuns s ↔ s.running = some r ∨ r ∈ s.unobserved := by
  simp [openRuns, Option.mem_toList]

/-- The command is open in the state still, with all the stores it had noted. -/
def StaysOpen (t : State) (r : Run) : Prop :=
  ∃ r' ∈ openRuns t, r'.instr = r.instr ∧ r'.latched = r.latched ∧ ∀ x ∈ r.written, x ∈ r'.written

theorem StaysOpen.of_mem {t : State} {r : Run} (h : r ∈ openRuns t) : StaysOpen t r := ⟨r, h, rfl, rfl, fun _ hx => hx⟩

/-- No command ends the wait for another, and the one that completes is waited for. -/
theorem mem_openRuns_of_exec {i : Instr} {s t : State} (h : exec i s = .next t) {r : Run} (hr : r ∈ openRuns s) :
    r ∈ openRuns t := by
  rw [mem_openRuns] at hr ⊢
  rcases exec_next_cases h with ⟨hnone, rfl⟩ | ⟨q, bs, hq, -, -, rfl⟩ | ⟨q, -, -, rfl⟩
  · rw [hnone] at hr
    rw [launch_unobserved]
    exact .inr (hr.resolve_left nofun)
  · rcases hr with hr | hr
    · cases hq.symm.trans hr
      exact .inr List.mem_cons_self
    · exact .inr (List.mem_cons_of_mem _ hr)
  · exact hr

theorem mem_openRuns_of_writeCmd {w : Word} {s t : State} (h : writeCmd w s = .next t) {r : Run} (hr : r ∈ openRuns s) :
    r ∈ openRuns t := by
  unfold writeCmd at h
  split at h
  · cases h
    exact hr
  · exact mem_openRuns_of_exec h hr

theorem mem_openRuns_of_hostRegWrite {addr size : Nat} {v : Word} {s t : State}
    (h : hostRegWrite addr size v s = .next t) {r : Run} (hr : r ∈ openRuns s) : r ∈ openRuns t := by
  rcases hostRegWrite_cases h with rfl | ⟨-, -, hw⟩ | ⟨q, -, -, -, rfl⟩
  · exact hr
  · exact mem_openRuns_of_writeCmd hw hr
  · exact hr

theorem mem_openRuns_of_engineTurn {s t : State} (h : engineTurn s = .next t) {r : Run} (hr : r ∈ openRuns s) :
    r ∈ openRuns t := by
  unfold engineTurn at h
  split at h
  · cases h
    exact hr
  · exact mem_openRuns_of_exec h hr

theorem staysOpen_of_hostMemWrite {size : AccessSize} {a : Nat} {v : Word} {s t : State}
    (h : hostMemWrite size a v s = .next t) {r : Run} (hr : r ∈ openRuns s) : StaysOpen t r := by
  obtain ⟨-, rfl⟩ := hostMemWrite_eq h
  refine ⟨noteStores a (accessBytes size) r, mem_openRuns.2 ?_, rfl, rfl, fun x hx => List.mem_append_right _ hx⟩
  exact (mem_openRuns.1 hr).imp (fun hr => by simp [hr]) (fun hr => List.mem_map_of_mem hr)

/-- A register read ends the wait for completed commands only if it is a STATUS read that shows completion. -/
theorem mem_openRuns_of_hostReads {q : Reg} {s : State} {r : Run} (hr : r ∈ openRuns s) (agenda : List Event) :
    r ∈ openRuns { hostReads q s with agenda := agenda } ∨
      r ∈ s.unobserved ∧ q = .status ∧ showsCompletion s.status = true := by
  rw [mem_openRuns] at hr ⊢
  by_cases hq : q = .status ∧ showsCompletion s.status = true
  · exact hr.imp .inl fun hr => ⟨hr, hq⟩
  · exact .inl (by simpa [hq] using hr)

/-- The read that ends the wait for a completed command. -/
def ReadsCompletion (s : State) (e : Event) : Prop :=
  showsCompletion s.status = true ∧ (e = rd s.params .status ∨ e = .poll)

/-- A move keeps an open command open, or it is the STATUS read that shows completion, or reset abandons it. -/
theorem openRuns_cases {e : Event} {s t : State} (h : eventStep e s = .next t) {r : Run} (hr : r ∈ openRuns s) :
    StaysOpen t r ∨ (r ∈ s.unobserved ∧ ReadsCompletion s e) ∨ (s.running = some r ∧ e = .resetAssert) := by
  cases e with
  | regWrite addr size v => exact .inl (.of_mem (mem_openRuns_of_hostRegWrite h hr))
  | regRead addr size =>
    simp only [eventStep, hostRegRead] at h
    split at h
    · cases h
    next q hq =>
    split at h
    · cases h
    cases h
    rcases mem_openRuns_of_hostReads (q := q) hr s.agenda with hr' | ⟨hr', rfl, hc⟩
    · exact .inl (.of_mem hr')
    · obtain ⟨rfl, haddr | rfl⟩ := regOfAccess_ok hq
      · cases haddr
      · exact .inr (.inl ⟨hr', hc, .inl rfl⟩)
  | memWrite size a v => exact .inl (staysOpen_of_hostMemWrite h hr)
  | memRead size a =>
    simp only [eventStep, hostMemRead] at h
    split at h <;> cases h
    exact .inl (.of_mem hr)
  | poll =>
    have hkept (agenda : List Event) : StaysOpen { hostReads .status s with agenda := agenda } r ∨
        (r ∈ s.unobserved ∧ ReadsCompletion s .poll) ∨ (s.running = some r ∧ Event.poll = .resetAssert) :=
      (mem_openRuns_of_hostReads hr agenda).imp .of_mem fun ⟨hr', _, hc⟩ => .inl ⟨hr', hc, .inr rfl⟩
    simp only [eventStep, pollOnce] at h
    repeat' split at h
    all_goals cases h
    all_goals exact hkept _
  | engineTurn => exact .inl (.of_mem (mem_openRuns_of_engineTurn h hr))
  | resetAssert =>
    cases h
    rcases mem_openRuns.1 hr with hr | hr
    · exact .inr (.inr ⟨hr, rfl⟩)
    · exact .inl (.of_mem (mem_openRuns.2 (.inr hr)))
  | resetRelease =>
    cases h
    exact .inl (.of_mem hr)
  | batched b =>
    cases h
    exact .inl (.of_mem hr)
  | batchedAt b i =>
    simp only [eventStep, batchedNext] at h
    repeat' split at h
    all_goals cases h
    all_goals exact .inl (.of_mem hr)
  | gather g =>
    cases h
    exact .inl (.of_mem hr)
  | gatherAt g i =>
    simp only [eventStep, gatherNext] at h
    repeat' split at h
    all_goals cases h
    all_goals exact .inl (.of_mem hr)

/-- Settles O25: the bytes of a host read by `hostRead_digit`, the open commands by `openRuns_cases`. -/
theorem hostReadsWhileBusy : Obligations.HostReadsWhileBusy := by
  refine ⟨fun s size a rest ha hsize => ?_, fun i s t hr hc h => ?_, fun s t h r hr => ?_, fun s rest hz ha => ?_⟩
  · refine ⟨BitVec.ofNat 64 (hostRead { s with agenda := rest } a (accessBytes size)), ?_, fun j hj => ?_⟩
    · rw [step_event ha, eventStep, hostMemRead, if_neg hsize.not_gt]
    · rw [BitVec.toNat_ofNat, Nat.mod_eq_of_lt (hostRead_accessBytes_lt _ size a), hostRead_digit _ _ _ _ hj]
      refine ⟨fun ⟨r, hr, ho⟩ => ?_, fun hnone => ?_⟩
      · have hfree : readsUnspecified { s with agenda := rest } (a + j) = true :=
          (readsUnspecified_iff _ _).2 ⟨r, hr, .inl ho⟩
        rw [hostByte, if_pos hfree]
      · have htrue : ¬readsUnspecified { s with agenda := rest } (a + j) = true := fun hu => by
          obtain ⟨r, hr, ⟨b, hb, hx⟩ | hw⟩ := (readsUnspecified_iff _ _).1 hu
          · exact Bool.false_ne_true (((hnone r hr).1 b hb).symm.trans hx)
          · exact (hnone r hr).2 hw
        rw [hostByte, if_neg htrue]
  · rw [exec_idle hr, hc] at h
    cases h
    exact ⟨_, mem_openRuns.2 (.inl rfl), rfl, rfl⟩
  · rcases step_cases h with ⟨-, he⟩ | ⟨e, rest, ha, he⟩
    · exact .inl (StaysOpen.of_mem (mem_openRuns_of_engineTurn he hr))
    · rcases openRuns_cases he hr with hopen | ⟨hu, hc, rfl | rfl⟩ | ⟨hrun, rfl⟩
      · exact .inl hopen
      · exact .inr (.inl ⟨hu, hc, rest, .inl ha⟩)
      · exact .inr (.inl ⟨hu, hc, rest, .inr ha⟩)
      · exact .inr (.inr ⟨hrun, rest, ha⟩)
  · rw [step_rd_hostReads hz ha]
    simp [hostReads, readReg, showsCompletion_iff]

/-! ### Host writes -/

theorem inOpenBuffers_of_mem {s : State} {r : Run} (hr : r ∈ openRuns s) {x : Nat} (hx : inBuffers r x = true) :
    inOpenBuffers s x = true := List.any_eq_true.2 ⟨r, hr, hx⟩

/-- A stored byte of an open command's buffer is free. -/
theorem get_hostStore_open (s : State) {x : Nat} (hx : inOpenBuffers s x = true) : ∀ {m : Memory} (a : Nat)
    (bs : List Byte), m.wf = true → a ≤ x → x < a + bs.length → (hostStore s m a bs).get x = Config.freeByte s.draws x
  | m, a, [], _, hle, hlt => by
    rw [List.length_nil] at hlt
    omega
  | m, a, b :: bs, hm, hle, hlt => by
    rw [hostStore]
    rcases hle.eq_or_lt with rfl | hgt
    · rw [get_hostStore_outside s _ _ (.inl a.lt_succ_self), if_pos hx, Memory.get_set_self _ _ hm]
    · exact get_hostStore_open s hx (a + 1) bs (Memory.wf_set a _ hm) hgt (by rw [List.length_cons] at hlt; omega)

/-- A command one of whose buffer bytes is among those of a host store notes it. -/
theorem exists_mem_storedIn {r : Run} {a n : Nat}
    (h : ∃ j < n, (commandBuffers r.instr r.latched).any (·.has (a + j)) = true) : ∃ y, y ∈ storedIn r a n := by
  obtain ⟨j, hj, hx⟩ := h
  exact ⟨a + j, mem_storedIn.2 ⟨hx, by omega, by omega⟩⟩

/-- Completion of a command whose buffers the host has written leaves its out bytes and the written ones free. -/
theorem get_commit_free {r : Run} {draw : Nat} {bs : List Block} {m : Memory} (hm : m.wf = true)
    (hs : sameRanges bs (outBuffers r.instr r.latched)) (hw : r.written ≠ []) {x : Nat}
    (hx : (∃ b ∈ outBuffers r.instr r.latched, b.has x = true) ∨ x ∈ r.written) :
    (commit r draw bs m).get x = Config.freeByte draw x := by
  rw [commit, if_neg (by simpa using hw), get_drawCells draw x _ (Memory.wf_setBlocks _ hm)]
  split
  · rfl
  · next hnot =>
    refine get_setBlocks_out hm (sameRanges_freeBlocks draw hs) (fun b hb => ?_) (hx.resolve_right hnot)
    obtain ⟨b', -, rfl⟩ := List.mem_map.1 hb
    exact isFree_freeBlock draw b'

/-- Settles O26: for a command in flight the store is noted, and its completion leaves the bytes free
(`get_commit_free`); for a completed one its out buffers are written as free blocks at once, and the stored byte of a
buffer is free itself (`get_hostStore_open`). -/
theorem hostWritesWhileBusyFreeTheOutputs : Obligations.HostWritesWhileBusyFreeTheOutputs := by
  refine ⟨fun s u r size a v hi hr h hmeet => ?_, fun s u r size a v hi hr h hmeet x hx => ?_⟩
  · have hu : u.Inv := hi.hostMemWrite h
    have hrun : u.running = some (noteStores a (accessBytes size) r) := by
      rw [(hostMemWrite_eq h).2, hr]
      rfl
    obtain ⟨y, hy⟩ := exists_mem_storedIn hmeet
    obtain ⟨bs, hs, hc⟩ := engineTurn_completes_inBuffers (hu.run _ hrun).valid hrun
    refine ⟨_, hc, rfl, rfl, fun x hx => get_commit_free hu.memWf hs ?_ ?_⟩
    · exact List.ne_nil_of_mem (List.mem_append_left _ hy)
    · exact hx.imp_right fun ⟨hle, hlt, hbuf⟩ => List.mem_append_left _ (mem_storedIn.2 ⟨hbuf, hle, hlt⟩)
  · obtain ⟨-, rfl⟩ := hostMemWrite_eq h
    have hm := wf_hostStore s a (bytesLE (accessBytes size) v.toNat) hi.memWf
    have hfree : ∀ b ∈ spoiledBlocks s a (accessBytes size), b.isFree s.draws := fun b hb => by
      obtain ⟨q, -, -, o, ho, rfl⟩ := mem_spoiledBlocks.1 hb
      exact isFree_freeOutBlocks _ (List.mem_map.2 ⟨o, ho, rfl⟩)
    by_cases hcov : ∃ b ∈ spoiledBlocks s a (accessBytes size), b.covers x = true
    · exact Memory.get_setBlocks_free hm hfree hcov
    · have hnone : ∀ b ∈ spoiledBlocks s a (accessBytes size), b.covers x = false := fun b hb => by
        by_contra hc
        exact hcov ⟨b, hb, by simpa using hc⟩
      rcases hx with ⟨o, ho, hox⟩ | ⟨hle, hlt, hbuf⟩
      · refine absurd ⟨_, mem_spoiledBlocks.2 ⟨r, hr, exists_mem_storedIn hmeet, o, ho, rfl⟩, ?_⟩ hcov
        simpa [Block.covers, Buffer.has] using hox
      · have hopen := inOpenBuffers_of_mem (mem_openRuns.2 (.inr hr)) hbuf
        exact (Memory.get_setBlocks_outside _ hnone).trans
          (get_hostStore_open s hopen a _ hi.memWf hle (by simpa using hlt))

end Sys2Proof.Machine

/-! PROOFS. Data memory as little-endian numbers (00_scope.md R9), PACK and UNPACK in flight (40_codec.md R220, R230), and
the batch offsets of the host (43_host_batched.md R351). -/

namespace Sys2Proof.Machine

/-! ### Little-endian memory -/

theorem Memory.read_eq_sum (m : Memory) : ∀ n a : Nat,
    m.read a n = ((List.range n).map fun i => (m.get (a + i)).toNat * 256 ^ i).sum
  | 0, _ => rfl
  | n + 1, a => by
    have hshift : (List.range n).map (fun i => (m.get (a + (i + 1))).toNat * 256 ^ (i + 1)) =
        (List.range n).map fun i => 256 * ((m.get (a + 1 + i)).toNat * 256 ^ i) :=
      List.map_congr_left fun i _ => by
        rw [Nat.add_assoc a 1 i, Nat.add_comm 1 i, pow_succ]
        ring
    rw [Memory.read, Memory.read_eq_sum m n, List.range_succ_eq_map, List.map_cons, List.map_map, List.sum_cons,
      Function.comp_def, hshift, List.sum_map_mul_left]
    simp

theorem getElem_bytesLE_toNat (n v i : Nat) (h : i < (bytesLE n v).length) :
    (bytesLE n v)[i].toNat = v / 256 ^ i % 256 := by
  simp [bytesLE_eq_map, Nat.shiftRight_eq_div_pow, pow_mul]

/-- Settles O27: reading by `Memory.read_eq_sum`, writing by the lemmas about bytes just written. -/
theorem memoryIsLittleEndian : Obligations.MemoryIsLittleEndian := by
  intro m a n v hm
  refine ⟨Memory.read_eq_sum m n a, fun i hi => ?_, fun x hx => ?_, ?_⟩
  · rw [Memory.write, Memory.get_setBytes_inside a _ i (by simpa using hi) hm, getElem_bytesLE_toNat]
  · exact Memory.get_setBytes_outside a _ (by simpa using hx)
  · rw [pow_mul, Memory.write]
    exact Memory.read_of_bytes _ n a v fun j hj => Memory.getElem?_setBytes a _ hm (by simpa using hj)

/-! ### The SIMD extractor -/

/-- Settles O33: packs are 4 bytes at the widths of the SIMD extractor (`getD_extractSimd`). -/
theorem simdExtractorAgreesWithScalar : Obligations.SimdExtractorAgreesWithScalar := by
  intro m a w lanes hs
  have hlen : (extractSimd m a w lanes).length = laneCount lanes := by simp [extractSimd]
  have hbytes : bytesPerPack w = 4 := by rcases ((simdOk_iff lanes w).1 hs).1 with rfl | rfl <;> rfl
  refine ⟨hlen, fun l hl => ?_⟩
  have hl' : l < (extractSimd m a w lanes).length := hlen ▸ hl
  rw [List.getElem?_eq_getElem hl', ← getD_extractSimd m a hbytes hl, List.getD_eq_getElem _ _ hl']

/-! ### Commands in flight -/

section InFlight

variable {s : State} {r : Run} {i : Instr} (hi : s.Inv) (hr : inFlight s r i)
include hi hr

theorem valid_of_inFlight : commandCheck i s.params r.latched = none := by
  obtain ⟨hrun, rfl, -⟩ := hr
  exact (hi.run r hrun).valid

theorem simd_of_inFlight : r.simd = commandSimd i s.params.lanes := by
  obtain ⟨hrun, rfl, -⟩ := hr
  exact (hi.run r hrun).simd

/-- The innermost dimension of an accepted command divides evenly (60_exceptions.md R404). -/
theorem shape_of_inFlight : innermost i r.latched % shapeDivisor i = 0 :=
  not_not.1 (not_errorApplies_of_valid (valid_of_inFlight hi hr) .badShape)

/-- An untouched command in flight completes with its outputs written over its out buffers. -/
theorem exec_inFlight_blocks : ∃ bs, commandBlocks i r s.params s.draws s.mem = some bs ∧
    sameRanges bs (outBuffers i r.latched) ∧ exec i s = .next (completedWith s r r.simd (s.mem.setBlocks bs)) := by
  obtain ⟨bs, hbs, hs⟩ := commandBlocks_ranges s.params s.draws s.mem (valid_of_inFlight hi hr)
  exact ⟨bs, hbs, hs, exec_inFlight hr hbs⟩

end InFlight

/-- Blocks over buffers leave every byte outside these buffers alone. -/
theorem get_setBlocks_of_ranges {bs : List Block} {os : List Buffer} (hs : sameRanges bs os) {m : Memory} {x : Nat}
    (hx : ∀ o ∈ os, o.has x = false) : (m.setBlocks bs).get x = m.get x := by
  refine Memory.get_setBlocks_outside bs fun b hb => ?_
  by_contra hc
  obtain ⟨o, ho, hox⟩ := (covers_of_sameRanges hs x).1 ⟨b, hb, by simpa using hc⟩
  exact Bool.false_ne_true ((hx o ho).symm.trans hox)

theorem Buffer.has_eq_false {b : Buffer} {x : Nat} (hx : x < b.base ∨ b.base + b.len ≤ x) : b.has x = false := by
  rw [← Bool.not_eq_true, Buffer.has_iff]
  omega

section CodecBuffers

variable {bits : BitVec 4} {w : Width} (r : OperandRegs) (hw : widthOfField bits = some w)
include hw

theorem outBuffers_pack : outBuffers (.pack bits) r = [packedBuffer r.wAddr w (matrixSize r) true] := by
  rw [outBuffers, commandBuffers_pack r hw]
  rfl

theorem outBuffers_unpack : outBuffers (.unpack bits) r = [codeBuffer r.oAddr (matrixSize r) true] := by
  rw [outBuffers, commandBuffers_unpack r hw]
  rfl

end CodecBuffers

/-- The matrix of an accepted UNPACK is whole packs (60_exceptions.md R404). -/
theorem packFactor_dvd_of_unpack {s : State} {r : Run} {bits : BitVec 4} {w : Width} (hi : s.Inv)
    (hr : inFlight s r (.unpack bits)) (hw : widthOfField bits = some w) : packFactor w ∣ matrixSize r.latched := by
  have hshape : r.latched.cols.toNat % shapeDivisor (.unpack bits) = 0 := shape_of_inFlight hi hr
  have hdiv : shapeDivisor (.unpack bits) = packFactor w := (packFactor_of_widthOfField hw).symm
  exact matrix_dvd (hdiv ▸ hshape)

/-- Settles O34: the codes by `codeOfBuffer_packBlocks`, the frame by `get_setBlocks_of_ranges`. -/
theorem packStoresTheMaskedCodes : Obligations.PackStoresTheMaskedCodes := by
  intro s r bits w hi hr hw
  obtain ⟨bs, hbs, hs, hexec⟩ := exec_inFlight_blocks hi hr
  rw [commandBlocks, hw, Option.map_some, Option.some.injEq] at hbs
  subst hbs
  rw [simd_of_inFlight hi hr] at hexec
  refine ⟨_, hexec, fun i hlt => ?_, fun x hx => get_setBlocks_of_ranges hs ?_⟩
  · rw [codeOfBuffer_packBlocks hi.memWf (packFactor_dvd_of_pack hi hr hw) hlt, maskCode_toNat]
  · rw [outBuffers_pack _ hw, List.forall_mem_singleton]
    exact Buffer.has_eq_false hx

/-- Settles O35: the codes by `get_unpackBlocks`, the frame by `get_setBlocks_of_ranges`. -/
theorem unpackStoresTheCodes : Obligations.UnpackStoresTheCodes := by
  intro s r bits w hi hr hw
  obtain ⟨bs, hbs, hs, hexec⟩ := exec_inFlight_blocks hi hr
  rw [commandBlocks, hw, Option.map_some, Option.some.injEq] at hbs
  subst hbs
  rw [simd_of_inFlight hi hr] at hexec
  refine ⟨_, hexec, fun i hlt => get_unpackBlocks hi.memWf (packFactor_dvd_of_unpack hi hr hw) hlt,
    fun x hx => get_setBlocks_of_ranges hs ?_⟩
  rw [outBuffers_unpack _ hw, List.forall_mem_singleton]
  exact Buffer.has_eq_false hx

/-! ### Batch offsets -/

/-- The walk over dimensions (size, index, stride), by induction from the innermost one. -/
theorem loc_flatIndex (l : List (Nat × Nat × Nat)) : (∀ p ∈ l, p.2.1 < p.1) →
    loc (flatIndex (l.map (·.1)) (l.map (·.2.1))) (l.map (·.1)) (l.map (·.2.2)) =
      (l.map fun p => p.2.1 * p.2.2).sum := by
  induction l using List.reverseRecOn with
  | nil => exact fun _ => rfl
  | append_singleton l p ih =>
    obtain ⟨d, i, st⟩ := p
    intro h
    have hlt : i < d := h (d, i, st) (by simp)
    have ih := ih fun p hp => h p (by simp [hp])
    have hmod (a : Nat) : (a * d + i) % d = i := by rw [Nat.mul_comm, Nat.mul_add_mod, Nat.mod_eq_of_lt hlt]
    have hdiv (a : Nat) : (a * d + i) / d = a := by
      rw [Nat.mul_comm, Nat.mul_add_div (by omega), Nat.div_eq_of_lt hlt, Nat.add_zero]
    simp only [loc, flatIndex, List.zip_map'] at ih ⊢
    simp only [List.map_append, List.map_cons, List.map_nil, List.foldl_append, List.foldl_cons, List.foldl_nil,
      List.reverse_append, List.reverse_cons, List.reverse_nil, List.nil_append, List.cons_append, locInner, hmod, hdiv,
      List.sum_append, List.sum_cons, List.sum_nil, Nat.add_zero, ih]
    exact Nat.add_comm _ _

theorem locInner_eq_zero : ∀ (b : Nat) (l : List (Nat × Nat)), (∀ p ∈ l, p.2 = 0) → locInner b l = 0
  | _, [], _ => rfl
  | b, (d, st) :: l, h => by
    obtain ⟨rfl, hl⟩ := List.forall_mem_cons.1 h
    rw [locInner, Nat.mul_zero, locInner_eq_zero (b / d) l hl]

/-- Settles O54: the three lists zipped together by `loc_flatIndex`. -/
theorem batchOffsetIsTheMultiIndexSum : Obligations.BatchOffsetIsTheMultiIndexSum := by
  refine ⟨fun dims idx st hidx hst h => ?_, fun b dims st h => locInner_eq_zero _ _ fun p hp => ?_⟩
  · have hinner : (List.zip idx st).length = dims.length := by simp [hidx, hst]
    have hdims : (List.zip dims (List.zip idx st)).map (·.1) = dims := List.map_fst_zip hinner.ge
    have hmap : (List.zip dims (List.zip idx st)).map (·.2) = List.zip idx st := List.map_snd_zip hinner.le
    have hidx' : (List.zip dims (List.zip idx st)).map (·.2.1) = idx := by
      have := congrArg (List.map (·.1)) hmap
      rwa [List.map_map, List.map_fst_zip (by omega)] at this
    have hst' : (List.zip dims (List.zip idx st)).map (·.2.2) = st := by
      have := congrArg (List.map (·.2)) hmap
      rwa [List.map_map, List.map_snd_zip (by omega)] at this
    have hlt : ∀ p ∈ List.zip dims (List.zip idx st), p.2.1 < p.1 := fun p hp => by
      refine h (p.1, p.2.1) ?_
      have hpair : (List.zip dims (List.zip idx st)).map (fun p => (p.1, p.2.1)) = List.zip dims idx := by
        rw [← List.zip_map', hdims, hidx']
      exact hpair ▸ List.mem_map_of_mem hp
    have hsum := loc_flatIndex _ hlt
    rw [hdims, hidx', hst'] at hsum
    have hzip := congrArg (fun l => (l.map fun p => p.1 * p.2).sum) hmap
    rw [List.map_map] at hzip
    exact hsum.trans hzip
  · obtain ⟨q, hq, rfl⟩ : ∃ q ∈ List.zip dims st, q = p := ⟨p, List.mem_reverse.1 hp, rfl⟩
    exact h _ (List.of_mem_zip hq).2

end Sys2Proof.Machine

/-! PROOFS. The outputs of a command as functions of its inputs (70_reset_and_hazards.md R472): every read of a command
lies in one of its in buffers; products of zero dimensions (42_qmm.md R322) and of equal weights (R318). -/

namespace Sys2Proof.Machine

/-! ### Memories that agree on a buffer -/

/-- The memories hold the same bytes in the buffer. -/
def Memory.AgreeOn (m m' : Memory) (b : Buffer) : Prop := ∀ x, b.has x = true → m.get x = m'.get x

/-- The memories hold the same bytes in the in buffers of the command. -/
def InputsAgree (i : Instr) (r : OperandRegs) (m m' : Memory) : Prop :=
  ∀ b ∈ commandBuffers i r, b.isOut = false → m.AgreeOn m' b

section Agree

variable {m m' : Memory} {base : Word} {n : Nat}

theorem Memory.read_congr_of_agree {b : Buffer} (h : m.AgreeOn m' b) {k j : Nat} (hkj : k + j ≤ b.len) :
    m.read (b.base + k) j = m'.read (b.base + k) j :=
  Memory.read_congr j _ fun l hl => h _ (b.has_iff _ |>.2 ⟨by omega, by omega⟩)

/-- An element of a float buffer. -/
theorem loadFmt_congr {t : Fmt} (h : m.AgreeOn m' (floatBuffer base t n false)) {k : Nat} (hk : k < n) :
    loadFmt m t (base.toNat + k * fmtSize t) = loadFmt m' t (base.toNat + k * fmtSize t) := by
  have hend : k * fmtSize t + fmtSize t ≤ n * fmtSize t := by
    rw [← Nat.succ_mul]
    exact Nat.mul_le_mul_right _ hk
  rw [loadFmt, loadFmt]
  exact congrArg _ (Memory.read_congr_of_agree h hend)

/-- A pack of a packed buffer. -/
theorem read_pack_congr {w : Width} (h : m.AgreeOn m' (packedBuffer base w n false)) (hd : packFactor w ∣ n) {p : Nat}
    (hp : p < n / packFactor w) :
    m.read (base.toNat + p * bytesPerPack w) (bytesPerPack w) =
      m'.read (base.toNat + p * bytesPerPack w) (bytesPerPack w) := by
  have hend : p * bytesPerPack w + bytesPerPack w ≤ n * widthBits w / 8 := by
    rw [← Nat.succ_mul, ← packs_length hd]
    exact Nat.mul_le_mul_right _ hp
  exact Memory.read_congr_of_agree h hend

theorem codeOfBuffer_congr {w : Width} (h : m.AgreeOn m' (packedBuffer base w n false)) (hd : packFactor w ∣ n) {k : Nat}
    (hk : k < n) : codeOfBuffer m base.toNat w k = codeOfBuffer m' base.toNat w k := by
  rw [codeOfBuffer, codeOfBuffer, read_pack_congr h hd (Nat.div_lt_div_of_lt_of_dvd hd hk)]

end Agree

/-! ### The reads of each command -/

section Reads

variable {f : FloatFields} {r : OperandRegs} {m m' : Memory}

theorem activation_congr (h : m.AgreeOn m' (floatBuffer r.xAddr f.fmt (r.dimM.toNat * r.dimK.toNat) false)) {i k : Nat}
    (hi : i < r.dimM.toNat) (hk : k < r.dimK.toNat) : activation f r m i k = activation f r m' i k :=
  loadFmt_congr h (flat_lt hi hk)

/-- A weight of a matrix of `rows` rows of whole groups. -/
theorem weightAt_congr {rows cols : Nat} (hc : cols % groupElems f.group = 0)
    (hw : m.AgreeOn m' (packedBuffer r.wAddr f.width (rows * cols) false))
    (hs : m.AgreeOn m' (floatBuffer r.sAddr f.fmt (rows * (cols / groupElems f.group)) false))
    (hb : m.AgreeOn m' (floatBuffer r.bAddr f.fmt (rows * (cols / groupElems f.group)) false)) {row col : Nat}
    (hrow : row < rows) (hcol : col < cols) : weightAt f r m cols row col = weightAt f r m' cols row col := by
  have hpacks : packFactor f.width ∣ rows * cols :=
    ((packFactor_dvd_group f.width f.group).trans (Nat.dvd_of_mod_eq_zero hc)).mul_left _
  have hgroup : row * (cols / groupElems f.group) + col / groupElems f.group <
      rows * (cols / groupElems f.group) :=
    flat_lt hrow (Nat.div_lt_div_of_lt_of_dvd (Nat.dvd_of_mod_eq_zero hc) hcol)
  simp only [weightAt, codeOfBuffer_congr hw hpacks (flat_lt hrow hcol), loadFmt_congr hs hgroup,
    loadFmt_congr hb hgroup]

/-- The closed form of R303 depends on the activations and weights it names. -/
theorem closedForm_congr {nm : Numerics} {f' : FloatFields} {r' : OperandRegs} {weight weight' : Nat → Weight} {i : Nat}
    (hf : f.fmt = f'.fmt) (hk : r.dimK = r'.dimK)
    (hx : ∀ k < r.dimK.toNat, activation f r m i k = activation f' r' m' i k)
    (hw : ∀ k < r.dimK.toNat, weight k = weight' k) :
    closedForm nm f r m weight i = closedForm nm f' r' m' weight' i := by
  rw [closedForm, closedForm, ← hk]
  refine List.foldl_ext _ _ _ fun acc k hmem => ?_
  have hlt := List.mem_range.1 hmem
  rw [hf, hx k hlt, hw k hlt]

theorem laneSum_congr {nm : Numerics} {lanes : SimdLanes} {i n : Nat}
    (hx : ∀ k < r.dimK.toNat, activation f r m i k = activation f r m' i k)
    (hw : ∀ k < r.dimK.toNat, weightAt f r m r.dimK.toNat n k = weightAt f r m' r.dimK.toNat n k) (l : Nat) :
    laneSum nm f r lanes m i n l = laneSum nm f r lanes m' i n l := by
  refine List.foldl_ext _ _ _ fun acc k hmem => ?_
  have hlt := List.mem_range.1 (List.mem_of_mem_filter hmem)
  rw [laneStep, laneStep, hx k hlt, hw k hlt]

theorem qmmTDatapath_congr {nm : Numerics} {lanes : SimdLanes} {simd : Bool}
    (hk : r.dimK.toNat % groupElems f.group = 0) (hs : simd = true → simdOk lanes f.width = true) {i n : Nat}
    (hx : ∀ k < r.dimK.toNat, activation f r m i k = activation f r m' i k)
    (hw : ∀ k < r.dimK.toNat, weightAt f r m r.dimK.toNat n k = weightAt f r m' r.dimK.toNat n k) :
    qmmTDatapath nm f r lanes simd m i n = qmmTDatapath nm f r lanes simd m' i n := by
  cases simd with
  | false =>
    rw [qmmTDatapath_scalar, qmmTDatapath_scalar, qmmTElem_eq nm f r m hk, qmmTElem_eq nm f r m' hk]
    exact closedForm_congr rfl rfl hx hw
  | true =>
    rw [qmmTDatapath_simd, qmmTDatapath_simd, qmmTSimdElem_eq nm f r lanes m (hs rfl) hk,
      qmmTSimdElem_eq nm f r lanes m' (hs rfl) hk, funext (laneSum_congr (nm := nm) (lanes := lanes) hx hw)]

theorem quantizeGroup_congr {nm : Numerics} {draw g : Nat}
    (h : m.AgreeOn m' (floatBuffer r.xAddr f.fmt (matrixSize r) false)) (hd : groupElems f.group ∣ matrixSize r)
    (hg : g < matrixSize r / groupElems f.group) :
    quantizeGroup nm f r draw m g = quantizeGroup nm f r draw m' g := by
  have hload {j : Nat} (hj : j ∈ List.range (groupElems f.group)) :
      loadFmt m f.fmt (r.xAddr.toNat + (g * groupElems f.group + j) * fmtSize f.fmt) =
        loadFmt m' f.fmt (r.xAddr.toNat + (g * groupElems f.group + j) * fmtSize f.fmt) :=
    loadFmt_congr h ((flat_lt hg (List.mem_range.1 hj)).trans_eq (Nat.div_mul_cancel hd))
  have hinputs : groupInputs nm f r m g = groupInputs nm f r m' g :=
    List.map_congr_left fun j hj => by rw [hload hj]
  have hnonFinite : groupNonFinite f r m g = groupNonFinite f r m' g := by
    rw [Bool.eq_iff_iff, groupNonFinite, groupNonFinite, List.any_eq_true, List.any_eq_true]
    exact exists_congr fun j => and_congr_right fun hj => by rw [hload hj]
  rw [quantizeGroup, quantizeGroup, hinputs, hnonFinite]

theorem packCodes_congr {w : Width} (h : m.AgreeOn m' (codeBuffer r.xAddr (matrixSize r) false))
    (hd : packFactor w ∣ matrixSize r) {p : Nat} (hp : p < matrixSize r / packFactor w) :
    packCodes w r m p = packCodes w r m' p := by
  refine List.map_congr_left fun j hj => ?_
  have hlt : p * packFactor w + j < matrixSize r :=
    (flat_lt hp (List.mem_range.1 hj)).trans_eq (Nat.div_mul_cancel hd)
  rw [h _ ((Buffer.has_iff _ _).2 ⟨by simp only [codeBuffer]; omega, by simp only [codeBuffer]; omega⟩)]

end Reads

/-! ### The outputs of each command -/

theorem productBlocks_congr (f : FloatFields) (r : OperandRegs) (draw : Nat) {elem elem' : Nat → Nat → FVal}
    (h : ∀ i < r.dimM.toNat, ∀ n < r.dimN.toNat, elem i n = elem' i n) :
    productBlocks f r draw elem = productBlocks f r draw elem' := by
  have hrows : (List.range r.dimM.toNat).flatMap (fun i => (List.range r.dimN.toNat).map (elem i)) =
      (List.range r.dimM.toNat).flatMap fun i => (List.range r.dimN.toNat).map (elem' i) :=
    List.flatMap_congr fun i hi => List.map_congr_left fun n hn => h i (List.mem_range.1 hi) n (List.mem_range.1 hn)
  rw [productBlocks, productBlocks, hrows]

section Products

variable {bits : BitVec 4} {gsize : BitVec 8} {dtype : BitVec 2} {f : FloatFields}
  (hf : floatFields bits gsize dtype = some f) (r : Run) (p : Params) (draw : Nat) (m : Memory)
include hf

theorem commandBlocks_qmm : commandBlocks (.qmm bits gsize dtype) r p draw m =
    some (productBlocks f r.latched draw fun i n => closedForm (numericsOf p) f r.latched m
      (fun k => weightAt f r.latched m r.latched.dimN.toNat k n) i) := by
  rw [commandBlocks, hf, Option.map_some, qmmBlocks_eq]

theorem commandBlocks_qmmT : commandBlocks (.qmmT bits gsize dtype) r p draw m =
    some (productBlocks f r.latched draw (qmmTDatapath (numericsOf p) f r.latched p.lanes r.simd m)) := by
  rw [commandBlocks, hf]
  rfl

theorem commandBlocks_quantize : commandBlocks (.quantize bits gsize dtype) r p draw m =
    some (quantizeBlocks (numericsOf p) f r.latched draw m) := by
  rw [commandBlocks, hf, Option.map_some]

end Products

theorem numericsOf_congr {p p' : Params} (h : p.numerics = p'.numerics) : numericsOf p = numericsOf p' := by
  rw [numericsOf, numericsOf, h]

section ValidFields

variable {i : Instr} {p : Params} {r : OperandRegs} (h : commandCheck i p r = none)
include h

theorem exists_width_of_valid : ∃ w, widthOfField (instrBits i) = some w :=
  Option.ne_none_iff_exists'.1 fun hnone => not_errorApplies_of_valid h .badBits (badBits_iff.2 hnone)

theorem exists_floatFields_of_valid {gsize : BitVec 8} {dtype : BitVec 2} (hg : instrGsize i = some gsize)
    (hd : instrDtype i = some dtype) : ∃ f, floatFields (instrBits i) gsize dtype = some f := by
  obtain ⟨w, hw⟩ := exists_width_of_valid h
  obtain ⟨g, hgroup⟩ : ∃ g, groupOfField gsize = some g := Option.ne_none_iff_exists'.1 fun hnone =>
    not_errorApplies_of_valid h .badGsize ⟨gsize, hg, (groupOfField_eq_none_iff gsize).1 hnone⟩
  obtain ⟨t, ht⟩ : ∃ t, fmtOfField dtype = some t := Option.ne_none_iff_exists'.1 fun hnone =>
    not_errorApplies_of_valid h .badDtype (hd.trans (congrArg some ((fmtOfField_eq_none_iff dtype).1 hnone)))
  exact ⟨⟨w, g, t⟩, by simp [floatFields, hw, hgroup, ht]⟩

theorem innermost_mod_group {gsize : BitVec 8} {g : Nat} (hi : instrGsize i = some gsize) (hg : g = gsize.toNat) :
    innermost i r % g = 0 := by
  have hdiv : shapeDivisor i = g := by simp only [shapeDivisor, hi, hg]
  exact hdiv ▸ not_not.1 (not_errorApplies_of_valid h .badShape)

theorem innermost_mod_packFactor {w : Width} (hi : instrGsize i = none) (hw : widthOfField (instrBits i) = some w) :
    innermost i r % packFactor w = 0 := by
  have hdiv : shapeDivisor i = packFactor w := by simp only [shapeDivisor, hi, packFactor_of_widthOfField hw]
  exact hdiv ▸ not_not.1 (not_errorApplies_of_valid h .badShape)

end ValidFields

/-- The outputs of a valid command depend on the bytes of its in buffers, the lanes, NUMERICS and the free values. -/
theorem commandBlocks_congr {i : Instr} {r : Run} {p p' : Params} {m m' : Memory} (draw : Nat)
    (hv : commandCheck i p r.latched = none) (hsimd : r.simd = commandSimd i p.lanes) (hl : p.lanes = p'.lanes)
    (hn : p.numerics = p'.numerics) (h : InputsAgree i r.latched m m') :
    commandBlocks i r p draw m = commandBlocks i r p' draw m' := by
  have hnm := numericsOf_congr hn
  cases i with
  | quantize bits gsize dtype =>
    obtain ⟨f, hf⟩ : ∃ f, floatFields bits gsize dtype = some f := exists_floatFields_of_valid hv rfl rfl
    have hd := matrix_dvd (innermost_mod_group hv rfl (groupElems_of_floatFields hf))
    simp only [InputsAgree, commandBuffers_quantize _ hf, quantizeBuffers, List.forall_mem_cons] at h
    obtain ⟨hx, -⟩ := h
    have hgroups : (List.range (matrixSize r.latched / groupElems f.group)).map
          (quantizeGroup (numericsOf p') f r.latched draw m) =
        (List.range (matrixSize r.latched / groupElems f.group)).map
          (quantizeGroup (numericsOf p') f r.latched draw m') :=
      List.map_congr_left fun g hg => quantizeGroup_congr (hx rfl) hd (List.mem_range.1 hg)
    rw [commandBlocks_quantize hf, commandBlocks_quantize hf, hnm, quantizeBlocks, quantizeBlocks, hgroups]
  | qmm bits gsize dtype =>
    obtain ⟨f, hf⟩ : ∃ f, floatFields bits gsize dtype = some f := exists_floatFields_of_valid hv rfl rfl
    have hc := innermost_mod_group hv rfl (groupElems_of_floatFields hf)
    simp only [InputsAgree, commandBuffers_qmm _ hf, qmmBuffers, List.forall_mem_cons] at h
    obtain ⟨hx, hw, hs, hb, -⟩ := h
    rw [commandBlocks_qmm hf, commandBlocks_qmm hf, hnm]
    refine congrArg some (productBlocks_congr _ _ _ fun i hi n hn => closedForm_congr rfl rfl (fun k hk => ?_)
      fun k hk => ?_)
    · exact activation_congr (hx rfl) hi hk
    · exact weightAt_congr hc (hw rfl) (hs rfl) (hb rfl) hk hn
  | qmmT bits gsize dtype =>
    obtain ⟨f, hf⟩ : ∃ f, floatFields bits gsize dtype = some f := exists_floatFields_of_valid hv rfl rfl
    have hc := innermost_mod_group hv rfl (groupElems_of_floatFields hf)
    simp only [InputsAgree, commandBuffers_qmmT _ hf, qmmTBuffers, List.forall_mem_cons] at h
    obtain ⟨hx, hw, hs, hb, -⟩ := h
    have hok : r.simd = true → simdOk p.lanes f.width = true := fun htrue => by
      rwa [hsimd, commandSimd, qmmTSimd, widthOfField_of_floatFields hf] at htrue
    rw [commandBlocks_qmmT hf, commandBlocks_qmmT hf, ← hnm, ← hl]
    refine congrArg some (productBlocks_congr _ _ _ fun i hi n hn => qmmTDatapath_congr hc hok (fun k hk => ?_)
      fun k hk => ?_)
    · exact activation_congr (hx rfl) hi hk
    · exact weightAt_congr hc (hw rfl) (hs rfl) (hb rfl) hn hk
  | pack bits =>
    obtain ⟨w, hw⟩ : ∃ w, widthOfField bits = some w := exists_width_of_valid hv
    have hd := matrix_dvd (innermost_mod_packFactor hv rfl hw)
    simp only [InputsAgree, commandBuffers_pack _ hw, packBuffers, List.forall_mem_cons] at h
    obtain ⟨hx, -⟩ := h
    have hpacks : (List.range (matrixSize r.latched / packFactor w)).flatMap
          (fun p => packBytes w (packCodes w r.latched m p)) =
        (List.range (matrixSize r.latched / packFactor w)).flatMap fun p => packBytes w (packCodes w r.latched m' p) :=
      List.flatMap_congr fun p hp => by rw [packCodes_congr (hx rfl) hd (List.mem_range.1 hp)]
    rw [commandBlocks, commandBlocks, hw, Option.map_some, Option.map_some, packBlocks, packBlocks, hpacks]
  | unpack bits =>
    obtain ⟨w, hw⟩ : ∃ w, widthOfField bits = some w := exists_width_of_valid hv
    have hd := matrix_dvd (innermost_mod_packFactor hv rfl hw)
    simp only [InputsAgree, commandBuffers_unpack _ hw, unpackBuffers, List.forall_mem_cons] at h
    obtain ⟨hx, -⟩ := h
    have hcodes : (List.range (matrixSize r.latched / packFactor w)).flatMap
          (fun p => extract m (r.latched.wAddr.toNat + p * bytesPerPack w) w) =
        (List.range (matrixSize r.latched / packFactor w)).flatMap
          fun p => extract m' (r.latched.wAddr.toNat + p * bytesPerPack w) w :=
      List.flatMap_congr fun p hp => by rw [extract, extract, read_pack_congr (hx rfl) hd (List.mem_range.1 hp)]
    rw [commandBlocks, commandBlocks, hw, Option.map_some, Option.map_some, unpackBlocks, unpackBlocks, hcodes]

/-- A covered byte does not depend on what memory held before. -/
theorem get_setBlocks_congr {x : Nat} : ∀ {m m' : Memory} {bs : List Block}, m.wf = true → m'.wf = true →
    (∃ b ∈ bs, b.covers x = true) → (m.setBlocks bs).get x = (m'.setBlocks bs).get x
  | _, _, [], _, _, hx => by simp at hx
  | m, m', (a, bytes) :: bs, hm, hm', hx => by
    rw [Memory.setBlocks, Memory.setBlocks]
    by_cases hlater : ∃ b ∈ bs, b.covers x = true
    · exact get_setBlocks_congr (Memory.wf_setBytes a bytes hm) (Memory.wf_setBytes a bytes hm') hlater
    · have hnone : ∀ b ∈ bs, b.covers x = false := fun b hb => by
        by_contra hc
        exact hlater ⟨b, hb, by simpa using hc⟩
      obtain ⟨b, hb, hc⟩ := hx
      rcases List.mem_cons.1 hb with rfl | hb
      · obtain ⟨hle, hlt⟩ := (Block.covers_iff _ _).1 hc
        obtain ⟨j, rfl⟩ := Nat.exists_eq_add_of_le hle
        have hj : j < bytes.length := Nat.lt_of_add_lt_add_left hlt
        rw [Memory.get_setBlocks_outside bs hnone, Memory.get_setBlocks_outside bs hnone,
          Memory.get_setBytes_inside a bytes j hj hm, Memory.get_setBytes_inside a bytes j hj hm']
      · exact absurd ⟨b, hb, hc⟩ hlater

/-- Settles O60: the outputs are the same blocks (`commandBlocks_congr`), and they cover the out buffers. -/
theorem outputsDependOnlyOnConfigurationAndInputs : Obligations.OutputsDependOnlyOnConfigurationAndInputs := by
  intro s s' t r hi hi' hr hr' hl hn hd hin hexec
  obtain ⟨bs, hbs, hs, he⟩ := exec_inFlight_blocks hi hr
  have hbs' : commandBlocks r.instr r s'.params s'.draws s'.mem = some bs := by
    rw [← hd, ← hbs]
    exact (commandBlocks_congr _ (valid_of_inFlight hi hr) (simd_of_inFlight hi hr) hl hn hin).symm
  cases he.symm.trans hexec
  exact ⟨_, exec_inFlight hr' hbs', rfl, fun b hb x hx =>
    get_setBlocks_congr hi.memWf hi'.memWf ((covers_of_sameRanges hs x).2 ⟨b, hb, hx⟩)⟩

/-! ### Equal weights -/

theorem fmtOfField_of_floatFields {bits : BitVec 4} {gsize : BitVec 8} {dtype : BitVec 2} {f : FloatFields}
    (hf : floatFields bits gsize dtype = some f) : fmtOfField dtype = some f.fmt := by
  unfold floatFields at hf
  split at hf
  · next ht =>
    cases hf
    exact ht
  · cases hf

/-- Settles O53: both stored products are closed forms of the same activations and weights (`closedForm_congr`). -/
theorem orientationsAgreeOnEqualWeights : Obligations.OrientationsAgreeOnEqualWeights := by
  intro s s' t t' r r' bits bits' gsize gsize' dtype f f' hi hi' hr hr' hf hf' hscalar hnum hdraws hM hN hK hO hx hw
    hexec hexec' x hout
  have hfmt : f.fmt = f'.fmt :=
    Option.some_injective _ ((fmtOfField_of_floatFields hf).symm.trans (fmtOfField_of_floatFields hf'))
  obtain ⟨bs, hbs, hs, he⟩ := exec_inFlight_blocks hi hr
  have hblocks : commandBlocks (.qmmT bits' gsize' dtype) r' s'.params s'.draws s'.mem = some bs := by
    have helem : ∀ i < r.latched.dimM.toNat, ∀ n < r.latched.dimN.toNat,
        closedForm (numericsOf s.params) f r.latched s.mem
          (fun k => weightAt f r.latched s.mem r.latched.dimN.toNat k n) i =
        qmmTDatapath (numericsOf s'.params) f' r'.latched s'.params.lanes r'.simd s'.mem i n := fun i hi n hn => by
      rw [simd_of_qmmT hi' hr' hf', hscalar, qmmTDatapath_scalar,
        qmmTElem_eq _ _ _ _ (dimK_mod_group_of_qmmT hi' hr' hf'), ← numericsOf_congr hnum, ← hK]
      exact closedForm_congr hfmt hK (hx i hi) fun k hk => hw k hk n hn
    rw [← hbs, commandBlocks_qmm hf, commandBlocks_qmmT hf', productBlocks_congr _ _ _ helem, productBlocks,
      productBlocks, hfmt, hdraws, hM, hN, hO]
  cases he.symm.trans hexec
  cases (exec_inFlight hr' hblocks).symm.trans hexec'
  exact get_setBlocks_congr hi.memWf hi'.memWf ((covers_of_sameRanges hs x).2 hout)

/-! ### Zero dimensions -/

theorem encodeFmt_plusZero (t : Fmt) (seed : Nat) : encodeFmt t seed plusZero = 0 := by
  simp [plusZero, encodeFmt, signBit]

theorem storeBytes_plusZero (t : Fmt) (draw addr : Nat) : ∀ b ∈ storeBytes t draw addr plusZero, b = 0 := by
  rw [storeBytes, encodeFmt_plusZero, bytesLE_eq_map]
  simp

/-- A row of +0.0 is stored as zero bytes. -/
theorem storeRow_plusZero (t : Fmt) (draw : Nat) : ∀ (a : Nat) (vs : List FVal), (∀ v ∈ vs, v = plusZero) →
    ∀ b ∈ storeRow t draw a vs, b = 0
  | _, [], _ => nofun
  | a, v :: vs, h => by
    obtain ⟨rfl, hvs⟩ := List.forall_mem_cons.1 h
    rw [storeRow, List.forall_mem_append]
    exact ⟨storeBytes_plusZero t draw a, storeRow_plusZero t draw _ vs hvs⟩

theorem reduceTree_zeros : ∀ levels n : Nat, reduceTree Primitives.ieee levels (List.replicate n plusZero) = plusZero
  | 0, 0 => rfl
  | 0, _ + 1 => rfl
  | levels + 1, n => by
    rw [reduceTree, List.take_replicate, List.drop_replicate, reduceTree_zeros levels, reduceTree_zeros levels]
    rfl

section ZeroK

variable {r : OperandRegs} (hk : r.dimK = 0) (nm : Numerics) (f : FloatFields) (m : Memory)
include hk

theorem closedForm_of_dimK_zero (weight : Nat → Weight) (i : Nat) : closedForm nm f r m weight i = plusZero := by
  rw [closedForm, hk]
  rfl

theorem qmmTDatapath_of_dimK_zero (lanes : SimdLanes) {simd : Bool} (hs : simd = true → nm = Numerics.ieee)
    (i n : Nat) : qmmTDatapath nm f r lanes simd m i n = plusZero := by
  have hzero : r.dimK.toNat % groupElems f.group = 0 := by rw [hk]; exact Nat.zero_mod _
  cases simd with
  | false => rw [qmmTDatapath_scalar, qmmTElem_eq nm f r m hzero, closedForm_of_dimK_zero hk]
  | true =>
    have hsums : simdLaneSums nm f r lanes m i n = List.replicate (laneCount lanes) plusZero := by
      rw [simdLaneSums, hk, BitVec.ofNat_eq_ofNat, BitVec.toNat_ofNat, Nat.zero_mod, Nat.zero_div]
      rfl
    rw [qmmTDatapath_simd, qmmTSimdElem, hsums, hs rfl, ieee_reduce, reduceTree_zeros,
      ieee_cvt, plusZero, fCvt, roundReal_zero]

end ZeroK

/-- The elements of a product command: some function of the row and the column. -/
theorem exists_productBlocks {i : Instr} {bits : BitVec 4} {gsize : BitVec 8} {dtype : BitVec 2} {p : Params} {r : Run}
    (h : i = .qmm bits gsize dtype ∨ i = .qmmT bits gsize dtype) (hv : commandCheck i p r.latched = none) (draw : Nat)
    (m : Memory) : ∃ f elem, commandBlocks i r p draw m = some (productBlocks f r.latched draw elem) ∧
      (r.latched.dimK = 0 → (r.simd = true → p.numerics = .ieee) → ∀ i n, elem i n = plusZero) := by
  rcases h with rfl | rfl
  · obtain ⟨f, hf⟩ : ∃ f, floatFields bits gsize dtype = some f := exists_floatFields_of_valid hv rfl rfl
    exact ⟨f, _, commandBlocks_qmm hf r p draw m, fun hk _ i n => closedForm_of_dimK_zero hk _ f m _ i⟩
  · obtain ⟨f, hf⟩ : ∃ f, floatFields bits gsize dtype = some f := exists_floatFields_of_valid hv rfl rfl
    exact ⟨f, _, commandBlocks_qmmT hf r p draw m, fun hk hs i n =>
      qmmTDatapath_of_dimK_zero hk _ f m _ (fun h => numericsOf_ieee (hs h)) i n⟩

/-- A product with no rows or no columns stores nothing. -/
theorem setBlocks_productBlocks_empty (f : FloatFields) {r : OperandRegs} (h : r.dimM = 0 ∨ r.dimN = 0) (draw : Nat)
    (elem : Nat → Nat → FVal) (m : Memory) : m.setBlocks (productBlocks f r draw elem) = m := by
  have hnil : ((List.range r.dimM.toNat).flatMap fun i => (List.range r.dimN.toNat).map (elem i)) = [] := by
    rcases h with h | h <;> simp [h]
  rw [productBlocks, hnil]
  rfl

/-- A covered byte of blocks of zeros is 0. -/
theorem get_setBlocks_zero {b : Block} (hz : ∀ v ∈ b.2, v = 0) {m : Memory} (hm : m.wf = true) {x : Nat}
    (hx : b.covers x = true) : (m.setBlocks [b]).get x = 0 := by
  obtain ⟨hle, hlt⟩ := (Block.covers_iff _ _).1 hx
  obtain ⟨j, rfl⟩ := Nat.exists_eq_add_of_le hle
  have hj : j < b.2.length := Nat.lt_of_add_lt_add_left hlt
  rw [Memory.get_setBlocks_inside hm j hj fun c hc => by cases hc]
  exact hz _ (List.getElem_mem hj)

theorem qmm_in_buffers_of_dimK_zero {f : FloatFields} {r : OperandRegs} (hk : r.dimK = 0) :
    ∀ b ∈ qmmBuffers f r, b.isOut = false → b.len = 0 := by
  simp [qmmBuffers, floatBuffer, packedBuffer, hk]

/-- Settles O52: without rows or columns the output is empty; with K = 0 each element is +0.0
(`closedForm_of_dimK_zero`, `qmmTDatapath_of_dimK_zero`), stored as zero bytes (`storeRow_plusZero`). -/
theorem zeroDimensionsSucceed : Obligations.ZeroDimensionsSucceed := by
  refine ⟨fun s r i bits gsize dtype hi hr hinstr => ?_, fun bits gsize dtype r memSize hk b hb hin => ?_⟩
  · obtain ⟨bs, hbs, hs, hexec⟩ := exec_inFlight_blocks hi hr
    obtain ⟨f, elem, helem, hzero⟩ := exists_productBlocks hinstr (valid_of_inFlight hi hr) s.draws s.mem
    cases hbs.symm.trans helem
    refine ⟨_, hexec, fun h => setBlocks_productBlocks_empty f h _ _ _, fun hk hnum x hx => ?_⟩
    obtain ⟨b, hb, hcov⟩ := (covers_of_sameRanges hs x).2 hx
    rw [productBlocks, List.mem_singleton] at hb
    subst hb
    refine get_setBlocks_zero (storeRow_plusZero _ _ _ _ fun v hv => ?_) hi.memWf hcov
    obtain ⟨i, -, hv⟩ := List.mem_flatMap.1 hv
    obtain ⟨n, -, rfl⟩ := List.mem_map.1 hv
    exact hzero hk hnum i n
  · have hlen : b.len = 0 := by
      cases hf : floatFields bits gsize dtype with
      | none => simp [commandBuffers, hf] at hb
      | some f => exact qmm_in_buffers_of_dimK_zero hk b (commandBuffers_qmm r hf ▸ hb) hin
    simp [outOfRange, hlen]

end Sys2Proof.Machine

/-! PROOFS. `RN_F` (00_scope.md R14): rounding in units of the format's least positive value, where the rounded value is
a significand times a power of two; it is a value of the format, none is nearer, and ties go to the even encoding. -/

namespace Sys2Proof.Machine

/-! ### The nearest multiple -/

/-- No multiple of `b` is nearer to `a` than the rounded one, and one as near makes the rounded one even. -/
theorem nearestEven_nearest (a : Nat) {b : Nat} (hb : 0 < b) (j : Nat) :
    |(a : ℤ) - nearestEven a b * b| ≤ |(a : ℤ) - j * b| ∧
    (j ≠ nearestEven a b → |(a : ℤ) - nearestEven a b * b| = |(a : ℤ) - j * b| → nearestEven a b % 2 = 0) := by
  obtain ⟨hhalf, htie⟩ := nearestEven_dist a hb
  rcases eq_or_ne j (nearestEven a b) with rfl | hne
  · exact ⟨le_rfl, fun h => absurd rfl h⟩
  have hapart : (b : ℤ) ≤ |(a : ℤ) - nearestEven a b * b| + |(a : ℤ) - j * b| := by
    have hone : (1 : ℤ) ≤ |(j : ℤ) - nearestEven a b| := Int.one_le_abs (sub_ne_zero.2 (by exact_mod_cast hne))
    calc (b : ℤ) ≤ |(j : ℤ) - nearestEven a b| * b := le_mul_of_one_le_left b.cast_nonneg hone
      _ = |((j : ℤ) - nearestEven a b) * b| := by rw [abs_mul, Nat.abs_cast]
      _ = |((a : ℤ) - nearestEven a b * b) - (a - j * b)| := by congr 1; ring
      _ ≤ _ := abs_sub _ _
  exact ⟨by omega, fun _ h => htie (by omega)⟩

/-! ### Rounding in units of the least positive value -/

/-- How far the last kept place of `n / den` lies above the unit, for significands of `f + 1` bits. -/
def keptPlace (f n den : Nat) : Nat := Nat.log2 (n / den) - f

/-- The rounded significand. -/
def roundedSig (f n den : Nat) : Nat := nearestEven n (den * 2 ^ keptPlace f n den)

/-- `n / den` rounded to significands of `f + 1` bits. -/
def roundUnits (f n den : Nat) : Nat := roundedSig f n den * 2 ^ keptPlace f n den

theorem roundMag_eq_roundUnits (t : Fmt) (num den : Nat) : roundMag t num den =
    roundUnits (fracBits t) (num * 2 ^ leastExp t) den * 2 ^ (unitExp - leastExp t) := rfl

section Units

variable (f n : Nat) {den : Nat} (hd : 0 < den)
include hd

/-- The kept place leaves at most `f + 1` bits before it. -/
theorem lt_of_keptPlace : n < 2 ^ (f + 1) * (den * 2 ^ keptPlace f n den) := by
  have hlog : n / den < 2 ^ (Nat.log2 (n / den) + 1) := Nat.lt_log2_self
  have hle : 2 ^ (Nat.log2 (n / den) + 1) ≤ 2 ^ (f + 1 + keptPlace f n den) :=
    Nat.pow_le_pow_right two_pos (by unfold keptPlace; omega)
  have hlt := (Nat.div_lt_iff_lt_mul hd).1 (hlog.trans_le hle)
  rwa [pow_add, Nat.mul_assoc, Nat.mul_comm _ den] at hlt

/-- A kept place above the unit leaves `f + 1` bits before it. -/
theorem le_of_keptPlace (hk : keptPlace f n den ≠ 0) : 2 ^ f * (den * 2 ^ keptPlace f n den) ≤ n := by
  have hpos : n / den ≠ 0 := fun h => hk (by simp [keptPlace, h])
  have hlog : 2 ^ (f + keptPlace f n den) ≤ n / den := by
    rw [show f + keptPlace f n den = Nat.log2 (n / den) by unfold keptPlace at hk ⊢; omega]
    exact Nat.log2_self_le hpos
  have hle := (Nat.le_div_iff_mul_le hd).1 hlog
  rwa [pow_add, Nat.mul_assoc, Nat.mul_comm _ den] at hle

theorem roundedSig_le : roundedSig f n den ≤ 2 ^ (f + 1) := by
  have hb : 0 < den * 2 ^ keptPlace f n den := by positivity
  have hq : n / (den * 2 ^ keptPlace f n den) < 2 ^ (f + 1) :=
    Nat.div_lt_of_lt_mul (by rw [Nat.mul_comm]; exact lt_of_keptPlace f n hd)
  exact (nearestEven_le_succ n _).trans hq

theorem le_roundedSig (hk : keptPlace f n den ≠ 0) : 2 ^ f ≤ roundedSig f n den := by
  have hb : 0 < den * 2 ^ keptPlace f n den := by positivity
  have hq : 2 ^ f ≤ n / (den * 2 ^ keptPlace f n den) := (Nat.le_div_iff_mul_le hb).2 (le_of_keptPlace f n hd hk)
  have := nearestEven_cases n (den * 2 ^ keptPlace f n den)
  unfold roundedSig
  omega

/-- No value of significand below 2^(f+1) is nearer to `n / den` than the rounded one, and one as near makes the rounded
significand even. Values whose place is not below the kept one are multiples of it; the others lie below 2^f kept
places, which is one. -/
theorem roundUnits_nearest {a e : Nat} (ha : a < 2 ^ (f + 1)) :
    |(n : ℤ) - roundUnits f n den * den| ≤ |(n : ℤ) - (a * 2 ^ e : ℕ) * den| ∧
    (a * 2 ^ e ≠ roundUnits f n den →
      |(n : ℤ) - roundUnits f n den * den| = |(n : ℤ) - (a * 2 ^ e : ℕ) * den| → roundedSig f n den % 2 = 0) := by
  have hb : 0 < den * 2 ^ keptPlace f n den := by positivity
  have hscale (j : Nat) : (j : ℤ) * (den * 2 ^ keptPlace f n den : ℕ) = (j * 2 ^ keptPlace f n den : ℕ) * den := by
    push_cast
    ring
  have hnear (j : Nat) := nearestEven_nearest n hb j
  simp only [hscale] at hnear
  rcases le_or_gt (keptPlace f n den) e with hle | hlt
  · have hmul : a * 2 ^ e = a * 2 ^ (e - keptPlace f n den) * 2 ^ keptPlace f n den := by
      rw [Nat.mul_assoc, ← pow_add, Nat.sub_add_cancel hle]
    obtain ⟨hdist, htie⟩ := hnear (a * 2 ^ (e - keptPlace f n den))
    rw [← hmul] at hdist htie
    refine ⟨hdist, fun hne => htie fun heq => hne ?_⟩
    rw [hmul, heq, roundUnits, roundedSig]
  · have hk : keptPlace f n den ≠ 0 := by omega
    have hbelow : a * 2 ^ e < 2 ^ f * 2 ^ keptPlace f n den := by
      calc a * 2 ^ e < 2 ^ (f + 1) * 2 ^ e := Nat.mul_lt_mul_of_pos_right ha (Nat.two_pow_pos e)
        _ = 2 ^ f * 2 ^ (e + 1) := by ring
        _ ≤ 2 ^ f * 2 ^ keptPlace f n den := Nat.mul_le_mul_left _ (Nat.pow_le_pow_right two_pos hlt)
    have hle : 2 ^ f * 2 ^ keptPlace f n den * den ≤ n := by
      have := le_of_keptPlace f n hd hk
      rwa [Nat.mul_comm den, ← Nat.mul_assoc] at this
    have hfar := Nat.mul_lt_mul_of_pos_right hbelow hd
    have hdist := (hnear (2 ^ f)).1
    have hstrict : |(n : ℤ) - roundUnits f n den * den| < |(n : ℤ) - (a * 2 ^ e : ℕ) * den| := by
      refine hdist.trans_lt ?_
      rw [← Nat.cast_mul, ← Nat.cast_mul, abs_of_nonneg (by omega), abs_of_nonneg (by omega)]
      omega
    exact ⟨hstrict.le, fun _ heq => absurd heq hstrict.ne⟩

/-- A value of the form that significands have is its own rounding. -/
theorem roundUnits_exact {a e : Nat} (ha : a < 2 ^ (f + 1)) : roundUnits f (a * 2 ^ e * den) den = a * 2 ^ e := by
  have hdist := (roundUnits_nearest f (a * 2 ^ e * den) hd ha (e := e)).1
  rw [← Nat.cast_mul (a * 2 ^ e) den, sub_self, abs_zero] at hdist
  have hzero := abs_eq_zero.1 (le_antisymm hdist (abs_nonneg _))
  have hmul : a * 2 ^ e * den = roundUnits f (a * 2 ^ e * den) den * den := by exact_mod_cast sub_eq_zero.1 hzero
  exact (Nat.eq_of_mul_eq_mul_right hd hmul).symm

/-- A value that rounds to 2^(f+e+1) or more is no nearer to the greatest value below it. -/
theorem overflow_le_of_roundUnits {e : Nat} (hover : 2 ^ (f + (e + 1)) ≤ roundUnits f n den) :
    (2 * 2 ^ (f + (e + 1)) - 2 ^ e) * den ≤ 2 * n := by
  have hpos : 0 < 2 ^ (f + 1) := Nat.two_pow_pos _
  have hdist := (roundUnits_nearest f n hd (a := 2 ^ (f + 1) - 1) (e := e) (by omega)).1
  have hgreatest : (2 ^ (f + 1) - 1) * 2 ^ e = 2 ^ (f + (e + 1)) - 2 ^ e := by
    rw [Nat.sub_mul, Nat.one_mul, ← pow_add, Nat.add_right_comm, Nat.add_assoc]
  have hle : 2 ^ e ≤ 2 ^ (f + (e + 1)) := Nat.pow_le_pow_right two_pos (by omega)
  have hlt : 0 < 2 ^ e := Nat.two_pow_pos e
  have hmul := Nat.mul_le_mul_right den hover
  have hgap : (2 ^ (f + (e + 1)) - 2 ^ e) * den < 2 ^ (f + (e + 1)) * den :=
    Nat.mul_lt_mul_of_pos_right (by omega) hd
  have hsum : (2 * 2 ^ (f + (e + 1)) - 2 ^ e) * den =
      2 ^ (f + (e + 1)) * den + (2 ^ (f + (e + 1)) - 2 ^ e) * den := by
    rw [← Nat.add_mul]
    congr 1
    omega
  rw [hgreatest, ← Nat.cast_mul, ← Nat.cast_mul] at hdist
  rw [hsum]
  rcases le_total (n : ℤ) (roundUnits f n den * den : ℕ) with h | h
  · rw [abs_of_nonpos (by omega)] at hdist
    rcases le_total (n : ℤ) ((2 ^ (f + (e + 1)) - 2 ^ e) * den : ℕ) with h' | h'
    · rw [abs_of_nonpos (by omega)] at hdist
      omega
    · rw [abs_of_nonneg (by omega)] at hdist
      omega
  · omega

/-- From half a place beyond the greatest value of place `e` on, the kept place is at least `e`. -/
theorem le_keptPlace {e : Nat} (hhalf : (2 * 2 ^ (f + 1) - 1) * (den * 2 ^ e) ≤ 2 * n) : e ≤ keptPlace f n den := by
  by_contra hlt
  have hpos : 0 < 2 ^ (f + 1) := Nat.two_pow_pos _
  have hn := lt_of_keptPlace f n hd
  have hstep : 2 * (den * 2 ^ keptPlace f n den) ≤ den * 2 ^ e := by
    rw [Nat.mul_left_comm, ← pow_succ']
    exact Nat.mul_le_mul_left _ (Nat.pow_le_pow_right two_pos (by omega))
  have htwo : 2 * n < 2 ^ (f + 1) * (den * 2 ^ e) :=
    calc 2 * n < 2 * (2 ^ (f + 1) * (den * 2 ^ keptPlace f n den)) := by omega
      _ = 2 ^ (f + 1) * (2 * (den * 2 ^ keptPlace f n den)) := by ring
      _ ≤ _ := Nat.mul_le_mul_left _ hstep
  have := Nat.mul_le_mul_right (den * 2 ^ e) (show 2 ^ (f + 1) ≤ 2 * 2 ^ (f + 1) - 1 by omega)
  omega

/-- From half a place beyond the significand 2^(f+1) - 1 on, which is odd, the significand rounds up to 2^(f+1). -/
theorem le_roundedSig_of_half (hhalf : (2 * 2 ^ (f + 1) - 1) * (den * 2 ^ keptPlace f n den) ≤ 2 * n) :
    2 ^ (f + 1) ≤ roundedSig f n den := by
  have hb : 0 < den * 2 ^ keptPlace f n den := by positivity
  have hpos : 0 < 2 ^ (f + 1) := Nat.two_pow_pos _
  by_contra hlt
  obtain ⟨hdist, htie⟩ := nearestEven_dist n hb
  rw [← roundedSig] at hdist htie
  generalize den * 2 ^ keptPlace f n den = b at *
  have hbelow : (roundedSig f n den : ℤ) * b ≤ (2 ^ (f + 1) - 1 : ℕ) * b :=
    mul_le_mul_of_nonneg_right (by exact_mod_cast Nat.le_sub_one_of_lt (not_le.1 hlt)) b.cast_nonneg
  have hn : ((2 ^ (f + 1) - 1 : ℕ) : ℤ) * b * 2 + b ≤ 2 * n := by
    have : (2 ^ (f + 1) - 1) * b * 2 + b = (2 * 2 ^ (f + 1) - 1) * b := by
      rw [show 2 * 2 ^ (f + 1) - 1 = (2 ^ (f + 1) - 1) * 2 + 1 by omega]
      ring
    exact_mod_cast this.trans_le hhalf
  rw [abs_of_nonneg (by omega)] at hdist htie
  have heven := htie (by omega)
  have hall : (roundedSig f n den : ℤ) * b = (2 ^ (f + 1) - 1 : ℕ) * b := by omega
  have hodd : roundedSig f n den = 2 ^ (f + 1) - 1 := by
    exact_mod_cast mul_right_cancel₀ (by exact_mod_cast hb.ne') hall
  rw [hodd, pow_succ] at heven
  omega

/-- From half a place beyond the greatest value of place `e` on, the rounded value reaches 2^(f+e+1). -/
theorem roundUnits_of_overflow_le {e : Nat} (h : (2 * 2 ^ (f + (e + 1)) - 2 ^ e) * den ≤ 2 * n) :
    2 ^ (f + (e + 1)) ≤ roundUnits f n den := by
  have hpow : 2 ^ (f + (e + 1)) = 2 ^ (f + 1) * 2 ^ e := by ring
  have hhalf : (2 * 2 ^ (f + 1) - 1) * (den * 2 ^ e) ≤ 2 * n := by
    have hplace : 2 * 2 ^ (f + (e + 1)) - 2 ^ e = (2 * 2 ^ (f + 1) - 1) * 2 ^ e := by
      rw [hpow, ← Nat.mul_assoc, Nat.sub_mul, Nat.one_mul]
    rwa [hplace, Nat.mul_assoc, Nat.mul_comm _ den] at h
  rcases (le_keptPlace f n hd hhalf).eq_or_lt with rfl | hgt
  · rw [hpow, roundUnits]
    exact Nat.mul_le_mul_right _ (le_roundedSig_of_half f n hd hhalf)
  · rw [roundUnits, pow_add]
    exact Nat.mul_le_mul (le_roundedSig f n hd (by omega)) (Nat.pow_le_pow_right two_pos hgt)

/-- The rounded value reaches 2^(f+E) exactly from half a last place beyond the greatest value below it. -/
theorem overflow_iff_roundUnits {E : Nat} (hE : 0 < E) :
    2 ^ (f + E) ≤ roundUnits f n den ↔ (2 * 2 ^ (f + E) - 2 ^ (E - 1)) * den ≤ 2 * n := by
  obtain ⟨e, rfl⟩ := Nat.exists_eq_add_of_lt hE
  rw [Nat.zero_add, Nat.add_sub_cancel]
  exact ⟨overflow_le_of_roundUnits f n hd, roundUnits_of_overflow_le f n hd⟩

end Units

/-! ### Formats -/

/-- The unit of a format is a multiple of f32's. -/
theorem leastExp_add_unit (t : Fmt) : leastExp t + (unitExp - leastExp t) = unitExp := by cases t <;> decide

theorem expRange_pos (t : Fmt) : 0 < 2 ^ expBits t - 2 := by cases t <;> decide

/-- The first magnitude beyond the format is one place beyond its greatest significands. -/
theorem overflowMag_eq (t : Fmt) :
    overflowMag t = 2 ^ (fracBits t + (2 ^ expBits t - 2)) * 2 ^ (unitExp - leastExp t) := by
  rw [overflowMag, ← pow_add]
  congr 1
  cases t <;> decide

theorem overflowMag_le_iff (t : Fmt) (num den : Nat) : overflowMag t ≤ roundMag t num den ↔
    2 ^ (fracBits t + (2 ^ expBits t - 2)) ≤ roundUnits (fracBits t) (num * 2 ^ leastExp t) den := by
  rw [overflowMag_eq, roundMag_eq_roundUnits]
  exact Nat.mul_le_mul_right_iff (Nat.two_pow_pos _)

theorem roundReal_of_fits {t : Fmt} {num den : Nat} (neg : Bool) (h : ¬overflowMag t ≤ roundMag t num den) :
    roundReal t neg num den = .fin neg (roundMag t num den) := by
  rw [roundReal, if_neg h]

theorem roundReal_of_overflow {t : Fmt} {num den : Nat} (neg : Bool) (h : overflowMag t ≤ roundMag t num den) :
    roundReal t neg num den = .inf neg := by
  rw [roundReal, if_pos h]

/-- A value of the format below its overflow. -/
theorem significand_lt_overflow {t : Fmt} {a e : Nat} (ha : a < 2 ^ (fracBits t + 1)) (he : e < 2 ^ expBits t - 2) :
    a * 2 ^ e < 2 ^ (fracBits t + (2 ^ expBits t - 2)) :=
  calc a * 2 ^ e < 2 ^ (fracBits t + 1) * 2 ^ e := Nat.mul_lt_mul_of_pos_right ha (Nat.two_pow_pos e)
    _ = 2 ^ (fracBits t + 1 + e) := (pow_add 2 _ _).symm
    _ ≤ _ := Nat.pow_le_pow_right two_pos (by omega)

/-- A finite result is a value of the format (00_scope.md R14): a significand of 2^(f+1) is 2^f one place higher. -/
theorem representable_roundMag {t : Fmt} {num den : Nat} (hd : 0 < den) (neg : Bool)
    (h : ¬overflowMag t ≤ roundMag t num den) : representable t (.fin neg (roundMag t num den)) := by
  have hle := roundedSig_le (fracBits t) (num * 2 ^ leastExp t) hd
  have hge := le_roundedSig (fracBits t) (num * 2 ^ leastExp t) hd
  rw [overflowMag_le_iff, roundUnits, not_le] at h
  rw [representable_fin_iff, roundMag_eq_roundUnits, roundUnits]
  generalize roundedSig (fracBits t) (num * 2 ^ leastExp t) den = a at *
  generalize keptPlace (fracBits t) (num * 2 ^ leastExp t) den = k at *
  have hplace {a k : Nat} (ha : 2 ^ fracBits t ≤ a) (h : a * 2 ^ k < 2 ^ (fracBits t + (2 ^ expBits t - 2))) :
      k < 2 ^ expBits t - 2 := by
    have hlt : 2 ^ (fracBits t + k) < 2 ^ (fracBits t + (2 ^ expBits t - 2)) := by
      rw [pow_add]
      exact (Nat.mul_le_mul_right _ ha).trans_lt h
    exact Nat.add_lt_add_iff_left.1 ((Nat.pow_lt_pow_iff_right one_lt_two).1 hlt)
  rcases hle.eq_or_lt with rfl | hlt
  · have hshift : 2 ^ (fracBits t + 1) * 2 ^ k = 2 ^ fracBits t * 2 ^ (k + 1) := by ring
    rw [hshift] at h ⊢
    exact ⟨_, _, Nat.pow_lt_pow_right one_lt_two (Nat.lt_succ_self _), hplace le_rfl h, rfl⟩
  · refine ⟨a, k, hlt, ?_, rfl⟩
    rcases eq_or_ne k 0 with rfl | hk
    · exact expRange_pos t
    · exact hplace (hge hk) h

/-- A value of the format is its own rounding. -/
theorem roundReal_exact {t : Fmt} {neg : Bool} {mag : Nat} (h : representable t (.fin neg mag)) :
    roundReal t neg mag oneMag = .fin neg mag := by
  obtain ⟨a, e, ha, he, rfl⟩ := (representable_fin_iff t neg mag).1 h
  have hunits : a * 2 ^ e * 2 ^ (unitExp - leastExp t) * 2 ^ leastExp t = a * 2 ^ e * oneMag := by
    rw [Nat.mul_assoc, ← pow_add, Nat.add_comm, leastExp_add_unit, oneMag]
  have hround : roundUnits (fracBits t) (a * 2 ^ e * 2 ^ (unitExp - leastExp t) * 2 ^ leastExp t) oneMag = a * 2 ^ e := by
    rw [hunits, roundUnits_exact _ oneMag_pos ha]
  rw [roundReal_of_fits neg, roundMag_eq_roundUnits, hround]
  rw [overflowMag_le_iff, hround, not_le]
  exact significand_lt_overflow ha he

/-- Every value of a format is a binary32 value (00_scope.md R14). -/
theorem representable_f32_of_representable {t : Fmt} {v : FVal} (h : representable t v) : representable .f32 v := by
  cases v with
  | nan => obtain ⟨bits, -, hfin⟩ := h; cases hfin
  | inf s => obtain ⟨bits, -, hfin⟩ := h; cases hfin
  | fin s m =>
    obtain ⟨a, e, ha, he, rfl⟩ := (representable_fin_iff t s m).1 h
    have hfrac : fracBits t + 1 + (23 - fracBits t) = 24 := by cases t <;> decide
    have hplace : e + (unitExp - leastExp t - (23 - fracBits t)) < 254 := by
      have : 2 ^ expBits t - 2 + (unitExp - leastExp t - (23 - fracBits t)) ≤ 254 := by cases t <;> decide
      omega
    have hsplit : unitExp - leastExp t = 23 - fracBits t + (unitExp - leastExp t - (23 - fracBits t)) := by
      cases t <;> decide
    refine (representable_f32_fin_iff s _).2 ⟨a * 2 ^ (23 - fracBits t), _, ?_, hplace, ?_⟩
    · calc a * 2 ^ (23 - fracBits t) < 2 ^ (fracBits t + 1) * 2 ^ (23 - fracBits t) :=
            Nat.mul_lt_mul_of_pos_right ha (Nat.two_pow_pos _)
        _ = 2 ^ 24 := by rw [← pow_add, hfrac]
    · conv_lhs => rw [hsplit]
      ring

theorem fCvt_of_representable {t : Fmt} {v : FVal} (h : representable t v) : fCvt t v = v := by
  cases v with
  | nan => rfl
  | inf s => rfl
  | fin s m => rw [fCvt, roundReal_exact h]

/-- Settles O38: a value of the format is its own rounding (`roundReal_exact`), and it is a binary32 value. -/
theorem roundingKeepsExactValues : Obligations.RoundingKeepsExactValues := fun _ _ h =>
  ⟨fCvt_of_representable h, fCvt_of_representable (representable_f32_of_representable h)⟩

/-! ### Encodings -/

/-- The encoding of a significand at its place: with its leading bit, or at the lowest place. -/
theorem encodeFmt_significand (t : Fmt) (seed : Nat) (s : Bool) {a e : Nat} (ha : a < 2 ^ (fracBits t + 1))
    (hlead : e = 0 ∨ 2 ^ fracBits t ≤ a) :
    encodeFmt t seed (.fin s (a * 2 ^ e * 2 ^ (unitExp - leastExp t))) = signBit t s + (e * 2 ^ fracBits t + a) := by
  have hplace : Nat.log2 (a * 2 ^ e) - fracBits t = e := by
    rcases Nat.eq_zero_or_pos a with rfl | hpos
    · have he : e = 0 := hlead.resolve_right (Nat.two_pow_pos _).not_ge
      rw [he, Nat.zero_mul, Nat.log2_zero, Nat.zero_sub]
    · have hne : a * 2 ^ e ≠ 0 := Nat.mul_ne_zero hpos.ne' (Nat.two_pow_pos e).ne'
      have hupper : Nat.log2 (a * 2 ^ e) < fracBits t + 1 + e := by
        rw [Nat.log2_lt hne, pow_add]
        exact Nat.mul_lt_mul_of_pos_right ha (Nat.two_pow_pos e)
      rcases hlead with rfl | hlead
      · omega
      · have hlower : fracBits t + e ≤ Nat.log2 (a * 2 ^ e) := by
          rw [Nat.le_log2 hne, pow_add]
          exact Nat.mul_le_mul_right _ hlead
        omega
  rw [encodeFmt, Nat.mul_div_cancel _ (Nat.two_pow_pos _)]
  simp only [hplace, Nat.mul_div_cancel a (Nat.two_pow_pos e)]

/-- An element's bits are its three fields (00_scope.md R13). -/
theorem exists_fields {t : Fmt} {bits : Nat} (h : bits < 2 ^ (8 * fmtSize t)) : ∃ neg e frac, e < 2 ^ expBits t ∧
    frac < 2 ^ fracBits t ∧ bits = signBit t neg + (e * 2 ^ fracBits t + frac) := by
  have hsize : 2 ^ (8 * fmtSize t) = 2 ^ fracBits t * (2 ^ expBits t * 2) := by cases t <;> decide
  rw [hsize] at h
  have hsign : bits / 2 ^ fracBits t / 2 ^ expBits t < 2 := Nat.div_lt_of_lt_mul (Nat.div_lt_of_lt_mul h)
  have hfrac := Nat.div_add_mod bits (2 ^ fracBits t)
  have hexp := Nat.div_add_mod (bits / 2 ^ fracBits t) (2 ^ expBits t)
  have hneg : (decide (bits / 2 ^ fracBits t / 2 ^ expBits t = 1)).toNat = bits / 2 ^ fracBits t / 2 ^ expBits t := by
    rcases Nat.lt_succ_iff_lt_or_eq.1 hsign with h0 | h1
    · rw [Nat.lt_one_iff.1 h0]
      rfl
    · rw [h1]
      rfl
  refine ⟨decide (bits / 2 ^ fracBits t / 2 ^ expBits t = 1), bits / 2 ^ fracBits t % 2 ^ expBits t,
    bits % 2 ^ fracBits t, Nat.mod_lt _ (Nat.two_pow_pos _), Nat.mod_lt _ (Nat.two_pow_pos _), ?_⟩
  rw [signBit_eq, hneg]
  calc bits = 2 ^ fracBits t * (2 ^ expBits t * (bits / 2 ^ fracBits t / 2 ^ expBits t) +
        bits / 2 ^ fracBits t % 2 ^ expBits t) + bits % 2 ^ fracBits t := by rw [hexp, hfrac]
    _ = _ := by ring

theorem encodeFmt_decodeFmt {t : Fmt} {bits : Nat} (seed : Nat) (h : bits < 2 ^ (8 * fmtSize t))
    (hn : decodeFmt t bits ≠ .nan) : encodeFmt t seed (decodeFmt t bits) = bits := by
  obtain ⟨neg, e, frac, he, hf, rfl⟩ := exists_fields h
  have hlead : 2 ^ (fracBits t + 1) = 2 ^ fracBits t + 2 ^ fracBits t := by ring
  rw [decodeFmt_fields t neg he hf] at hn ⊢
  split_ifs at hn ⊢ with hmax hzero hsub
  · rw [encodeFmt, expAll, hmax, hzero, Nat.add_zero]
  · exact absurd rfl hn
  · have henc := encodeFmt_significand t seed neg (a := frac) (e := 0) (by omega) (.inl rfl)
    rwa [pow_zero, Nat.mul_one, ← hsub] at henc
  · rw [encodeFmt_significand t seed neg (by omega) (.inr (Nat.le_add_right _ _))]
    obtain ⟨k, rfl⟩ := Nat.exists_eq_succ_of_ne_zero hsub
    rw [Nat.succ_sub_one, Nat.succ_mul]
    ring

theorem nanBits_fields (t : Fmt) (seed : Nat) : ∃ neg frac, frac < 2 ^ fracBits t ∧ frac ≠ 0 ∧
    nanBits t seed = signBit t neg + ((2 ^ expBits t - 1) * 2 ^ fracBits t + frac) := by
  have hmod : seed / 2 % (2 ^ fracBits t - 1) < 2 ^ fracBits t - 1 := Nat.mod_lt _ (by cases t <;> decide)
  exact ⟨_, seed / 2 % (2 ^ fracBits t - 1) + 1, by omega, Nat.succ_ne_zero _,
    by rw [nanBits, expAll, Nat.add_assoc]⟩

theorem fields_lt {t : Fmt} (neg : Bool) {e frac : Nat} (he : e < 2 ^ expBits t) (hf : frac < 2 ^ fracBits t) :
    signBit t neg + (e * 2 ^ fracBits t + frac) < 2 ^ (8 * fmtSize t) := by
  have hsize : 2 ^ (8 * fmtSize t) = 2 * 2 ^ expBits t * 2 ^ fracBits t := by cases t <;> decide
  rw [signBit_eq, hsize, ← Nat.add_assoc, ← Nat.add_mul]
  exact flat_lt (flat_lt (Bool.toNat_lt neg) he) hf

/-- Settles O37: the fields of the bits by the cases of `decodeFmt_fields`; a stored NaN has a fraction. -/
theorem formatsRoundTrip : Obligations.FormatsRoundTrip := by
  refine ⟨fun t seed bits h hn => encodeFmt_decodeFmt seed h hn, fun t seed => ?_⟩
  obtain ⟨neg, frac, hf, hne, hbits⟩ := nanBits_fields t seed
  have he : 2 ^ expBits t - 1 < 2 ^ expBits t := Nat.sub_lt (Nat.two_pow_pos _) one_pos
  rw [encodeFmt, hbits, decodeFmt_fields t neg he hf, if_pos rfl, if_neg hne]
  exact ⟨fields_lt neg he hf, rfl⟩

/-- An even rounded significand has an even encoding: it is the significand, or 2^f one place higher. -/
theorem encodeFmt_roundMag_even {t : Fmt} {num den : Nat} (hd : 0 < den) (neg : Bool)
    (heven : roundedSig (fracBits t) (num * 2 ^ leastExp t) den % 2 = 0) :
    encodeFmt t 0 (.fin neg (roundMag t num den)) % 2 = 0 := by
  have hle := roundedSig_le (fracBits t) (num * 2 ^ leastExp t) hd
  have hge := le_roundedSig (fracBits t) (num * 2 ^ leastExp t) hd
  rw [roundMag_eq_roundUnits, roundUnits]
  generalize roundedSig (fracBits t) (num * 2 ^ leastExp t) den = a at *
  generalize keptPlace (fracBits t) (num * 2 ^ leastExp t) den = k at *
  have htwo : 2 ^ fracBits t % 2 = 0 := by cases t <;> decide
  have hsign : signBit t neg % 2 = 0 := by cases t <;> cases neg <;> decide
  have hsum (k a : Nat) (ha : a % 2 = 0) : (signBit t neg + (k * 2 ^ fracBits t + a)) % 2 = 0 := by
    rw [Nat.add_mod, hsign, Nat.add_mod (k * _), Nat.mul_mod, htwo, ha]
    simp
  rcases hle.eq_or_lt with rfl | hlt
  · have hshift : 2 ^ (fracBits t + 1) * 2 ^ k = 2 ^ fracBits t * 2 ^ (k + 1) := by ring
    rw [hshift, encodeFmt_significand t 0 neg (Nat.pow_lt_pow_right one_lt_two (Nat.lt_succ_self _)) (.inr le_rfl)]
    exact hsum _ _ htwo
  · rw [encodeFmt_significand t 0 neg hlt (or_iff_not_imp_left.2 hge)]
    exact hsum _ _ heven

/-- Distances in units of 2^-149 are those in units of the format, scaled. -/
theorem dist_eq_scaled (t : Fmt) (num den r : Nat) :
    |(num * 2 ^ 149 : ℤ) - (r * 2 ^ (unitExp - leastExp t) : ℕ) * den| =
      |((num * 2 ^ leastExp t : ℕ) : ℤ) - r * den| * 2 ^ (unitExp - leastExp t) := by
  have hunit : (2 : ℤ) ^ 149 = 2 ^ leastExp t * 2 ^ (unitExp - leastExp t) := by
    rw [← pow_add, leastExp_add_unit, unitExp]
  rw [hunit, ← abs_of_pos (show (0 : ℤ) < 2 ^ (unitExp - leastExp t) by positivity), ← abs_mul]
  congr 1
  push_cast
  rw [abs_of_pos (show (0 : ℤ) < 2 ^ (unitExp - leastExp t) by positivity)]
  ring

/-- Settles O39: in units of the format, the nearest value by `roundUnits_nearest` and the threshold by
`overflow_iff_roundUnits`. -/
theorem roundingIsNearestTiesToEven : Obligations.RoundingIsNearestTiesToEven := by
  intro t neg num den hd
  have hscale : (0 : ℤ) < 2 ^ (unitExp - leastExp t) := by positivity
  refine ⟨fun s mag h => ?_, ?_⟩
  · have hfits : ¬overflowMag t ≤ roundMag t num den := fun hover => by
      rw [roundReal_of_overflow neg hover] at h
      cases h
    rw [roundReal_of_fits neg hfits] at h
    cases h
    refine ⟨rfl, representable_roundMag hd neg hfits, fun mag' hrep => ?_⟩
    obtain ⟨a, e, ha, -, rfl⟩ := (representable_fin_iff t neg mag').1 hrep
    obtain ⟨hdist, htie⟩ := roundUnits_nearest (fracBits t) (num * 2 ^ leastExp t) hd ha (e := e)
    rw [roundMag_eq_roundUnits, dist_eq_scaled, dist_eq_scaled]
    refine ⟨mul_le_mul_of_nonneg_right hdist hscale.le, fun hne heq => ?_⟩
    exact encodeFmt_roundMag_even hd neg
      (htie (fun h => hne (by rw [h])) (mul_right_cancel₀ hscale.ne' heq))
  · have hinf : roundReal t neg num den = .inf neg ↔ overflowMag t ≤ roundMag t num den := by
      refine ⟨fun h => ?_, roundReal_of_overflow neg⟩
      by_contra hfits
      rw [roundReal_of_fits neg hfits] at h
      cases h
    have hlast : 2 ^ (2 ^ (expBits t - 1) - 1 + 149 - fracBits t) =
        2 ^ (2 ^ expBits t - 2 - 1) * 2 ^ (unitExp - leastExp t) := by
      rw [← pow_add]
      congr 1
      cases t <;> decide
    have hthreshold : (2 * overflowMag t - 2 ^ (2 ^ (expBits t - 1) - 1 + 149 - fracBits t)) * den =
        (2 * 2 ^ (fracBits t + (2 ^ expBits t - 2)) - 2 ^ (2 ^ expBits t - 2 - 1)) * den *
          2 ^ (unitExp - leastExp t) := by
      rw [overflowMag_eq, hlast, ← Nat.mul_assoc, ← Nat.sub_mul, Nat.mul_right_comm]
    have hnum : 2 * (num * 2 ^ 149) = 2 * (num * 2 ^ leastExp t) * 2 ^ (unitExp - leastExp t) := by
      rw [Nat.mul_assoc 2, Nat.mul_assoc num, ← pow_add, leastExp_add_unit, unitExp]
    rw [hinf, overflowMag_le_iff, overflow_iff_roundUnits _ _ hd (expRange_pos t), hthreshold, hnum]
    exact (Nat.mul_le_mul_right_iff (Nat.two_pow_pos _)).symm

end Sys2Proof.Machine

/-! PROOFS. The default NUMERICS record (00_scope.md R14 to R18): each operation on finite data is `RN_F` of the exact
rational result, and on infinities and NaNs it is IEEE 754's. -/

namespace Sys2Proof.Machine

/-! ### Finite data as rational numbers -/

theorem signed_eq_zero_iff (s : Bool) (m : Nat) : signed s m = 0 ↔ m = 0 := by cases s <;> simp [signed]

theorem signed_neg_iff {s : Bool} {m : Nat} (hm : m ≠ 0) : signed s m < 0 ↔ s = true := by
  cases s with
  | false => simp [signed]
  | true => simpa [signed] using Nat.pos_of_ne_zero hm

theorem natAbs_signed (s : Bool) (m : Nat) : (signed s m).natAbs = m := by cases s <;> simp [signed]

theorem signed_mul_signed (a b : Bool) (m n : Nat) : signed a m * signed b n = signed (a != b) (m * n) := by
  cases a <;> cases b <;> simp [signed]

theorem oneMag_ne_zero : (oneMag : ℚ) ≠ 0 := Nat.cast_ne_zero.2 oneMag_pos.ne'

theorem realOf_fin_eq_zero_iff (s : Bool) (m : Nat) : realOf (.fin s m) = 0 ↔ m = 0 := by
  rw [realOf_fin, div_eq_zero_iff, or_iff_left oneMag_ne_zero, Int.cast_eq_zero, signed_eq_zero_iff]

/-- `RN_F` of an integer quotient, zero or not. -/
theorem roundInt_eq_roundRat (t : Fmt) (zeroNeg : Bool) {i : Int} {den : Nat} (hd : 0 < den) {q : ℚ}
    (hq : q = (i : ℚ) / den) : roundInt t zeroNeg i den = if q = 0 then .fin zeroNeg 0 else roundRat t q := by
  have hzero : q = 0 ↔ i = 0 := by
    rw [hq, div_eq_zero_iff, or_iff_left (Nat.cast_ne_zero.2 hd.ne'), Int.cast_eq_zero]
  simp only [roundInt, hzero, roundRat_eq t hd hq]

/-- `RN_F` of a signed quotient of magnitudes, zero or not. -/
theorem roundReal_eq_roundRat (t : Fmt) (neg : Bool) {m den : Nat} (hd : 0 < den) {q : ℚ}
    (hq : q = (signed neg m : ℚ) / den) :
    roundReal t neg m den = if q = 0 then .fin neg 0 else roundRat t q := by
  have hint := roundInt_eq_roundRat t neg hd hq
  rw [← hint, roundInt]
  split
  · next h => rw [(signed_eq_zero_iff neg m).1 h, roundReal_zero]
  · next h =>
    have hm : m ≠ 0 := mt (signed_eq_zero_iff neg m).2 h
    rw [natAbs_signed, show decide (signed neg m < 0) = neg by simp [signed_neg_iff hm]]

/-- A finite datum by its sign and magnitude. -/
theorem exists_fin_of_finite {v : FVal} (h : nonFinite v = false) : ∃ s m, v = .fin s m := by
  cases v with
  | fin s m => exact ⟨s, m, rfl⟩
  | nan => cases h
  | inf s => cases h

/-! ### The operations on finite data -/

section FiniteOperands

variable (t : Fmt) (sa sb sc : Bool) (ma mb mc : Nat)

theorem fAdd_fin : fAdd t (.fin sa ma) (.fin sb mb) =
    if realOf (.fin sa ma) + realOf (.fin sb mb) = 0 then .fin (sa && sb) 0
    else roundRat t (realOf (.fin sa ma) + realOf (.fin sb mb)) :=
  roundInt_eq_roundRat t _ oneMag_pos (by rw [realOf_fin, realOf_fin, ← add_div, Int.cast_add])

theorem realOf_fNeg_fin : realOf (fNeg (.fin sa ma)) = -realOf (.fin sa ma) := by
  rw [fNeg, realOf_fin, realOf_fin, signed_not, Int.cast_neg, neg_div]

theorem fSub_fin : fSub t (.fin sa ma) (.fin sb mb) =
    if realOf (.fin sa ma) - realOf (.fin sb mb) = 0 then .fin (sa && !sb) 0
    else roundRat t (realOf (.fin sa ma) - realOf (.fin sb mb)) := by
  rw [sub_eq_add_neg, ← realOf_fNeg_fin]
  exact fAdd_fin t sa (!sb) ma mb

theorem fMul_fin : fMul t (.fin sa ma) (.fin sb mb) =
    if realOf (.fin sa ma) * realOf (.fin sb mb) = 0 then .fin (sa != sb) 0
    else roundRat t (realOf (.fin sa ma) * realOf (.fin sb mb)) := by
  rw [fMul]
  refine roundReal_eq_roundRat t _ (Nat.mul_pos oneMag_pos oneMag_pos) ?_
  rw [realOf_fin, realOf_fin, div_mul_div_comm, ← signed_mul_signed, Int.cast_mul, Nat.cast_mul]

theorem realOf_div_fin :
    realOf (.fin sa ma) / realOf (.fin sb mb) = (signed (sa != sb) ma : ℚ) / mb := by
  have hq : (signed sa ma : ℚ) / signed sb mb = (signed (sa != sb) ma : ℚ) / mb := by
    cases sa <;> cases sb <;> simp [signed, neg_div, div_neg]
  rw [realOf_fin, realOf_fin, div_div_div_cancel_right₀ oneMag_ne_zero, hq]

theorem fDiv_fin : fDiv t (.fin sa ma) (.fin sb mb) =
    if realOf (.fin sb mb) = 0 then (if realOf (.fin sa ma) = 0 then .nan else .inf (sa != sb))
    else if realOf (.fin sa ma) = 0 then .fin (sa != sb) 0
    else roundRat t (realOf (.fin sa ma) / realOf (.fin sb mb)) := by
  simp only [fDiv, realOf_fin_eq_zero_iff]
  split
  · rfl
  · next hb =>
    have hquot := roundReal_eq_roundRat t (sa != sb) (Nat.pos_of_ne_zero hb) (realOf_div_fin sa sb ma mb)
    simp only [hquot, div_eq_zero_iff, realOf_fin_eq_zero_iff, or_iff_left hb]

theorem fFma_fin : fFma t (.fin sa ma) (.fin sb mb) (.fin sc mc) =
    if realOf (.fin sa ma) * realOf (.fin sb mb) + realOf (.fin sc mc) = 0 then .fin ((sa != sb) && sc) 0
    else roundRat t (realOf (.fin sa ma) * realOf (.fin sb mb) + realOf (.fin sc mc)) := by
  refine roundInt_eq_roundRat t _ (Nat.mul_pos oneMag_pos oneMag_pos) ?_
  have hone := oneMag_ne_zero
  rw [realOf_fin, realOf_fin, realOf_fin, ← signed_mul_signed]
  push_cast
  field_simp

theorem fCvt_fin : fCvt t (.fin sa ma) =
    if realOf (.fin sa ma) = 0 then .fin sa 0 else roundRat t (realOf (.fin sa ma)) := by
  rw [fCvt]
  exact roundReal_eq_roundRat t sa oneMag_pos (realOf_fin sa ma)

end FiniteOperands

/-! ### NaNs and infinities -/

theorem fNeg_eq_nan_iff (v : FVal) : fNeg v = .nan ↔ v = .nan := by cases v <;> simp [fNeg]

theorem fAdd_nan {t : Fmt} {a b : FVal} (h : a = .nan ∨ b = .nan) : fAdd t a b = .nan := by
  rcases h with rfl | rfl
  · rfl
  · cases a <;> rfl

theorem fSub_nan {t : Fmt} {a b : FVal} (h : a = .nan ∨ b = .nan) : fSub t a b = .nan :=
  fAdd_nan (h.imp_right (fNeg_eq_nan_iff b).2)

theorem fMul_nan {t : Fmt} {a b : FVal} (h : a = .nan ∨ b = .nan) : fMul t a b = .nan := by
  rcases h with rfl | rfl
  · rfl
  · cases a <;> rfl

theorem fDiv_nan {t : Fmt} {a b : FVal} (h : a = .nan ∨ b = .nan) : fDiv t a b = .nan := by
  rcases h with rfl | rfl
  · rfl
  · cases a <;> rfl

/-- An infinite factor is multiplied first, then the third operand added. -/
theorem fFma_inf_left (t : Fmt) (s : Bool) (b c : FVal) : fFma t (.inf s) b c = fAdd t (fMul t (.inf s) b) c := rfl

theorem fFma_inf_right (t : Fmt) (s : Bool) (b c : FVal) : fFma t b (.inf s) c = fAdd t (fMul t b (.inf s)) c := by
  cases b <;> rfl

theorem fFma_nan {t : Fmt} {a b c : FVal} (h : a = .nan ∨ b = .nan ∨ c = .nan) : fFma t a b c = .nan := by
  have hprod : fFma t a b c = fAdd t (fMul t a b) c ∨ fFma t a b c = .nan ∨ c ≠ .nan ∧ a ≠ .nan ∧ b ≠ .nan := by
    cases a <;> cases b <;> cases c <;> simp [fFma]
  rcases hprod with heq | heq | ⟨hc, ha, hb⟩
  · rw [heq]
    refine fAdd_nan ?_
    rcases h with h | h | h
    · exact .inl (fMul_nan (.inl h))
    · exact .inl (fMul_nan (.inr h))
    · exact .inr h
  · exact heq
  · exact absurd h (by simp [ha, hb, hc])

theorem fSub_inf_inf (t : Fmt) (s s' : Bool) : fSub t (.inf s) (.inf s') = if s = s' then .nan else .inf s := by
  cases s <;> cases s' <;> rfl

theorem fMul_inf_fin (t : Fmt) (s s' : Bool) (m : Nat) :
    fMul t (.inf s) (.fin s' m) = if realOf (.fin s' m) = 0 then .nan else .inf (s != s') := by
  simp only [fMul, realOf_fin_eq_zero_iff]

theorem fMul_fin_inf (t : Fmt) (s s' : Bool) (m : Nat) :
    fMul t (.fin s' m) (.inf s) = if realOf (.fin s' m) = 0 then .nan else .inf (s' != s) := by
  simp only [fMul, realOf_fin_eq_zero_iff]

/-! ### Minimum and maximum -/

theorem fLt_irrefl (v : FVal) : fLt v v = false := by
  cases v with
  | nan => rfl
  | inf s => cases s <;> rfl
  | fin s m => simp [fLt]

theorem fLt_asymm {a b : FVal} (h : fLt a b = true) : fLt b a = false := by
  cases a with
  | nan => cases h
  | inf s => cases b <;> cases s <;> simp_all [fLt]
  | fin s m =>
    cases b with
    | nan => cases h
    | inf s' => cases s' <;> simp_all [fLt]
    | fin s' m' =>
      simp only [fLt, decide_eq_true_eq, decide_eq_false_iff_not] at h ⊢
      omega

theorem oppositeZeros_iff (a b : FVal) : oppositeZeros a b = true ↔ ∃ s, a = .fin s 0 ∧ b = .fin (!s) 0 := by
  unfold oppositeZeros
  split
  · next sa sb => cases sa <;> cases sb <;> simp
  · next h =>
    simp only [Bool.false_eq_true, false_iff, not_exists, not_and]
    exact fun s ha hb => h s (!s) ha hb

theorem fLt_zeros (a b : Bool) : fLt (.fin a 0) (.fin b 0) = false := by cases a <;> cases b <;> rfl

/-- A zero is one of two zeros of opposite sign. -/
theorem zero_of_opposite (s z : Bool) : FVal.fin z 0 = .fin s 0 ∨ FVal.fin z 0 = .fin (!s) 0 := by
  cases s <;> cases z <;> simp

/-- `min32` gives an operand than which none is less (00_scope.md R17). -/
theorem min32_spec (a b : FVal) :
    (min32 a b = a ∨ min32 a b = b) ∧ fLt a (min32 a b) = false ∧ fLt b (min32 a b) = false := by
  unfold min32
  split
  · next h =>
    obtain ⟨s, rfl, rfl⟩ := (oppositeZeros_iff a b).1 h
    exact ⟨zero_of_opposite s _, fLt_zeros _ _, fLt_zeros _ _⟩
  · split
    · next h => exact ⟨.inr rfl, fLt_asymm h, fLt_irrefl b⟩
    · next h => exact ⟨.inl rfl, fLt_irrefl a, Bool.eq_false_of_not_eq_true h⟩

/-- `max32` gives an operand than which none is greater (00_scope.md R17). -/
theorem max32_spec (a b : FVal) :
    (max32 a b = a ∨ max32 a b = b) ∧ fLt (max32 a b) a = false ∧ fLt (max32 a b) b = false := by
  unfold max32
  split
  · next h =>
    obtain ⟨s, rfl, rfl⟩ := (oppositeZeros_iff a b).1 h
    exact ⟨zero_of_opposite s _, fLt_zeros _ _, fLt_zeros _ _⟩
  · split
    · next h => exact ⟨.inr rfl, fLt_asymm h, fLt_irrefl b⟩
    · next h => exact ⟨.inl rfl, fLt_irrefl a, Bool.eq_false_of_not_eq_true h⟩

/-! ### Integers and compositions -/

theorem toU_fOfNat (n : Nat) : toU (fOfNat n) = n := Nat.mul_div_cancel n oneMag_pos

/-- Codes have at most 8 bits, and the least precision is 8 bits. -/
theorem representable_code (t : Fmt) (c : Byte) : representable t (fOfNat c.toNat) := by
  have hbits : 2 ^ 8 ≤ 2 ^ (fracBits t + 1) := by cases t <;> decide
  have hplace : leastExp t < 2 ^ expBits t - 2 := by cases t <;> decide
  refine (representable_fin_iff t false _).2 ⟨c.toNat, leastExp t, c.isLt.trans_le hbits, hplace, ?_⟩
  rw [Nat.mul_assoc, ← pow_add, leastExp_add_unit, oneMag]

theorem reduceTree_append (p : Primitives) (k : Nat) {low : List FVal} (high : List FVal) (h : low.length = 2 ^ k) :
    reduceTree p (k + 1) (low ++ high) = p.add .f32 (reduceTree p k low) (reduceTree p k high) := by
  rw [reduceTree, ← h, List.take_left, List.drop_left]

/-- Settles O41: the finite operations by `fAdd_fin` and its like, the rest by the cases of the operands. -/
theorem defaultNumericsAreTheExactOperations : Obligations.DefaultNumericsAreTheExactOperations := by
  simp only [Obligations.DefaultNumericsAreTheExactOperations, ieee_add, ieee_sub, ieee_mul, ieee_div, ieee_fma,
    ieee_cvt, ieee_min32, ieee_max32, ieee_toU, ieee_mac, ieee_simdMac, ieee_reduce]
  refine ⟨fun t a b c ha hb hc => ?_, fun t a b c => ⟨fun h => ?_, fFma_nan, rfl⟩, fun t s s' v c hv hc => ?_,
    fun t s b c => ⟨fFma_inf_left t s b c, fFma_inf_right t s b c⟩, fun a b _ _ => ?_, toU_fOfNat,
    fun t code => fCvt_of_representable (representable_code t code), fun _ _ _ _ _ _ => rfl, fun _ _ _ _ _ => rfl,
    fun _ => rfl, fun k low high hlow _ => reduceTree_append _ k high hlow⟩
  · obtain ⟨sa, ma, rfl⟩ := exists_fin_of_finite ha
    obtain ⟨sb, mb, rfl⟩ := exists_fin_of_finite hb
    obtain ⟨sc, mc, rfl⟩ := exists_fin_of_finite hc
    exact ⟨fAdd_fin t sa sb ma mb, fSub_fin t sa sb ma mb, fMul_fin t sa sb ma mb, fDiv_fin t sa sb ma mb,
      fFma_fin t sa sb sc ma mb mc, fCvt_fin t sa ma⟩
  · exact ⟨fAdd_nan h, fSub_nan h, fMul_nan h, fDiv_nan h⟩
  · obtain ⟨sv, mv, rfl⟩ := exists_fin_of_finite hv
    obtain ⟨sc, mc, rfl⟩ := exists_fin_of_finite hc
    exact ⟨rfl, fSub_inf_inf t s s', rfl, rfl, rfl, rfl, rfl, rfl, fMul_inf_fin t s sv mv, fMul_fin_inf t s sv mv,
      rfl, rfl, rfl, rfl⟩
  · obtain ⟨hmin, hmina, hminb⟩ := min32_spec a b
    obtain ⟨hmax, hmaxa, hmaxb⟩ := max32_spec a b
    exact ⟨hmin, hmina, hminb, hmax, hmaxa, hmaxb⟩

end Sys2Proof.Machine

/-! PROOFS. The quantizer (41_quantize.md R250 to R260): codes are clamped, and the edge of a group is reproduced
exactly. -/

namespace Sys2Proof.Machine

/-! ### Codes -/

theorem nBins_lt (w : Width) : nBins w < 2 ^ 8 := by cases w <;> decide

theorem nBins_ne_zero (w : Width) : nBins w ≠ 0 := by cases w <;> decide

theorem freeCode_le (w : Width) (draw index : Nat) : (freeCode w draw index).toNat ≤ nBins w := by
  have hmod := Nat.mod_lt (Config.freeCode draw index) (Nat.two_pow_pos (widthBits w))
  rw [freeCode, BitVec.toNat_ofNat]
  exact (Nat.mod_le _ _).trans (Nat.le_sub_one_of_lt hmod)

/-- The code of a quotient that is not a NaN. -/
theorem quantCode_toNat {nm : Numerics} {w : Width} {draw index : Nat} {scale bias v t : FVal}
    (ht : nm.rint (nm.div .f32 (nm.sub .f32 v bias) scale) = t) (hn : t ≠ .nan) :
    (quantCode nm w draw index scale bias v).toNat =
      min (nm.toU (clamp32 nm t (.fin false 0) (fOfNat (nBins w)))) (nBins w) := by
  have hlt : min (nm.toU (clamp32 nm t (.fin false 0) (fOfNat (nBins w)))) (nBins w) < 2 ^ 8 :=
    (min_le_right _ _).trans_lt (nBins_lt w)
  unfold quantCode
  split
  · next h => exact absurd (ht.symm.trans h) hn
  · rw [ht, BitVec.toNat_ofNat, Nat.mod_eq_of_lt hlt]

theorem quantCode_le (nm : Numerics) (w : Width) (draw index : Nat) (scale bias v : FVal) :
    (quantCode nm w draw index scale bias v).toNat ≤ nBins w := by
  by_cases hn : nm.rint (nm.div .f32 (nm.sub .f32 v bias) scale) = .nan
  · unfold quantCode
    rw [hn]
    dsimp only
    split
    · exact Nat.zero_le _
    · exact freeCode_le w draw index
  · rw [quantCode_toNat rfl hn]
    exact min_le_right _ _

theorem clamp32_ieee (v lo hi : FVal) : clamp32 Numerics.ieee v lo hi = min32 (max32 v lo) hi := rfl

theorem fLt_nonneg_zero (m : Nat) (s : Bool) : fLt (.fin false m) (.fin s 0) = false := by
  rw [fLt, (signed_eq_zero_iff s 0).2 rfl, signed, if_neg Bool.false_ne_true]
  simp

/-- A zero stays below every positive bound. -/
theorem min32_zero_fOfNat (s : Bool) {n : Nat} (hn : n ≠ 0) : min32 (.fin s 0) (fOfNat n) = .fin s 0 := by
  have hne : n * oneMag ≠ 0 := Nat.mul_ne_zero hn oneMag_pos.ne'
  have hopposite : oppositeZeros (.fin s 0) (.fin false (n * oneMag)) = false := by simp [oppositeZeros, hne]
  rw [fOfNat, min32, hopposite, fLt_nonneg_zero, if_neg Bool.false_ne_true, if_neg Bool.false_ne_true]

theorem max32_neg_zero {m : Nat} (hm : m ≠ 0) : max32 (.fin true m) (.fin false 0) = .fin false 0 := by
  simp [max32, oppositeZeros, fLt, signed, hm, Nat.pos_of_ne_zero hm]

/-- A non-negative datum is its own maximum with +0. -/
theorem max32_pos_zero (m : Nat) : max32 (.fin false m) (.fin false 0) = .fin false m := by
  have hopposite : oppositeZeros (.fin false m) (.fin false 0) = false := by cases m <;> rfl
  rw [max32, hopposite, fLt_nonneg_zero, if_neg Bool.false_ne_true, if_neg Bool.false_ne_true]

theorem min32_fOfNat (n k : Nat) : min32 (fOfNat n) (fOfNat k) = fOfNat (min n k) := by
  have hopposite : oppositeZeros (fOfNat n) (fOfNat k) = false := by
    rw [← Bool.not_eq_true, oppositeZeros_iff]
    rintro ⟨s, ha, hb⟩
    simp only [fOfNat, FVal.fin.injEq] at ha hb
    rw [← ha.1] at hb
    exact Bool.false_ne_true hb.1
  have hlt : fLt (fOfNat k) (fOfNat n) = decide (k < n) := by
    simp only [fOfNat, fLt, signed, Bool.false_eq_true, if_false, Nat.cast_lt, Nat.mul_lt_mul_right oneMag_pos]
  rw [min32, hopposite, hlt, if_neg Bool.false_ne_true]
  by_cases h : k < n
  · rw [if_pos (decide_eq_true h), min_eq_right h.le]
  · rw [if_neg (by simpa using h), min_eq_left (not_lt.1 h)]

section Clamp

variable (n : Nat) {hi : Nat} (hhi : hi ≠ 0)

/-- The clamp of a non-negative integer. -/
theorem clamp32_nonneg : clamp32 Numerics.ieee (.fin false (n * oneMag)) (.fin false 0) (fOfNat hi) =
    fOfNat (min n hi) := by
  rw [clamp32_ieee, max32_pos_zero]
  exact min32_fOfNat n hi

include hhi

theorem toU_clamp32_neg (m : Nat) :
    toU (clamp32 Numerics.ieee (.fin true m) (.fin false 0) (fOfNat hi)) = 0 := by
  obtain ⟨s, hs⟩ : ∃ s, max32 (.fin true m) (.fin false 0) = .fin s 0 := by
    rcases eq_or_ne m 0 with rfl | hm
    · exact max32_zeros true false
    · exact ⟨false, max32_neg_zero hm⟩
  rw [clamp32_ieee, hs, min32_zero_fOfNat s hhi, toU, Nat.zero_div]

theorem toU_clamp32_neg_inf : toU (clamp32 Numerics.ieee (.inf true) (.fin false 0) (fOfNat hi)) = 0 := by
  have hmax : max32 (.inf true) (.fin false 0) = .fin false 0 := rfl
  rw [clamp32_ieee, hmax, min32_zero_fOfNat false hhi, toU, Nat.zero_div]

end Clamp

theorem clamp32_pos_inf (hi : Nat) : clamp32 Numerics.ieee (.inf false) (.fin false 0) (fOfNat hi) = fOfNat hi := rfl

/-- Settles O45: the range by `quantCode_le`, the clamped quotient by the clamp of each kind of quotient. -/
theorem quantizerCodesAreClamped : Obligations.QuantizerCodesAreClamped := by
  refine ⟨quantCode_le, fun w draw index scale bias v => ⟨fun s n ht => ?_, fun s ht => ?_⟩⟩
  · rw [quantCode_toNat (nm := Numerics.ieee) ht nofun, ieee_toU]
    cases s with
    | false =>
      rw [clamp32_nonneg, toU_fOfNat, min_eq_left (min_le_right _ _)]
      rfl
    | true => rw [toU_clamp32_neg (nBins_ne_zero w), Nat.zero_min, if_pos rfl]
  · rw [quantCode_toNat (nm := Numerics.ieee) ht nofun, ieee_toU]
    cases s with
    | false =>
      rw [clamp32_pos_inf, toU_fOfNat, min_self]
      rfl
    | true => rw [toU_clamp32_neg_inf (nBins_ne_zero w), Nat.zero_min, if_pos rfl]

/-- A zero quotient has code 0. -/
theorem quantCode_of_zero {w : Width} {scale bias v : FVal} {s : Bool}
    (ht : fRint (fDiv .f32 (fSub .f32 v bias) scale) = .fin s 0) (draw index : Nat) :
    quantCode Numerics.ieee w draw index scale bias v = 0 := by
  apply BitVec.eq_of_toNat_eq
  have hcode := ((quantizerCodesAreClamped.2 w draw index scale bias v).1 s 0 (by rw [Nat.zero_mul]; exact ht))
  rw [hcode, Nat.zero_min, ite_self]
  rfl

/-- An element equal to the bias has code 0, whatever the scale (log entry 15). -/
theorem quantCode_self (w : Width) (draw index : Nat) (scale : FVal) (s : Bool) (m : Nat) :
    quantCode Numerics.ieee w draw index scale (.fin s m) (.fin s m) = 0 := by
  have hsub : fSub .f32 (.fin s m) (.fin s m) = .fin false 0 := by
    rw [fSub_fin, sub_self, if_pos rfl, Bool.and_not_self]
  have hzero : fDiv .f32 (.fin false 0) scale = .nan ∨ ∃ s', fDiv .f32 (.fin false 0) scale = .fin s' 0 := by
    cases scale with
    | nan => exact .inl rfl
    | inf s' => exact .inr ⟨_, rfl⟩
    | fin s' m' =>
      rcases eq_or_ne m' 0 with rfl | hm
      · exact .inl rfl
      · exact .inr ⟨_, fDiv_zero _ _ _ hm⟩
  rcases hzero with hnan | ⟨s', hzero⟩
  · have hquot : Numerics.ieee.rint (Numerics.ieee.div .f32 (Numerics.ieee.sub .f32 (.fin s m) (.fin s m)) scale) =
        .nan := by rw [ieee_sub, ieee_div, ieee_rint, hsub, hnan, fRint]
    unfold quantCode
    rw [hquot]
    exact if_pos rfl
  · exact quantCode_of_zero (by rw [hsub, hzero, fRint_zero]) draw index

/-! ### The edge of a group -/

/-- An extremum of a group is one of its elements, when `pick` gives one of its operands. -/
theorem extremum_mem {pick : FVal → FVal → FVal} (hp : ∀ a b, pick a b = a ∨ pick a b = b) :
    ∀ {ws : List FVal}, ws ≠ [] → extremum pick ws ∈ ws
  | [], h => absurd rfl h
  | v :: vs, _ => by
    refine List.foldlRecOn (motive := (· ∈ v :: vs)) vs pick List.mem_cons_self fun a ha u hu => ?_
    rcases hp a u with h | h
    · rwa [h]
    · rw [h]
      exact List.mem_cons_of_mem v hu

section SignAndEdge

variable {wMin wMax scale scale0 edge : FVal} (h : signAndEdge wMin wMax scale = (scale0, edge))
include h

theorem edge_of_signAndEdge : edge = wMin ∨ edge = wMax := by
  unfold signAndEdge at h
  split at h <;> cases h
  · exact .inl rfl
  · exact .inr rfl

theorem scale_of_signAndEdge : scale0 = scale ∨ scale0 = fNeg scale := by
  unfold signAndEdge at h
  split at h <;> cases h
  · exact .inl rfl
  · exact .inr rfl

end SignAndEdge

/-- The quotient that a scale divides without trouble: infinite, or finite and not zero. -/
def NonzeroScale (v : FVal) : Prop := (∃ s, v = .inf s) ∨ ∃ s m, m ≠ 0 ∧ v = .fin s m

theorem NonzeroScale.neg {v : FVal} (h : NonzeroScale v) : NonzeroScale (fNeg v) := by
  rcases h with ⟨s, rfl⟩ | ⟨s, m, hm, rfl⟩
  · exact .inl ⟨_, rfl⟩
  · exact .inr ⟨_, m, hm, rfl⟩

/-- `eps` keeps the maximum from being a zero. -/
theorem nonzeroScale_max32_eps {v : FVal} (hv : v ≠ .nan) : NonzeroScale (max32 v epsVal) := by
  cases v with
  | nan => exact absurd rfl hv
  | inf s =>
    cases s with
    | false => exact .inl ⟨false, rfl⟩
    | true => exact .inr ⟨false, _, by decide, rfl⟩
  | fin s m =>
    obtain ⟨k, hk, hle⟩ := max32_epsVal_ge s m
    exact .inr ⟨false, k, by omega, hk⟩

theorem fAdd_fin_ne_nan (t : Fmt) (sa sb : Bool) (ma mb : Nat) : fAdd t (.fin sa ma) (.fin sb mb) ≠ .nan := by
  rw [fAdd]
  rcases roundInt_cases t (sa && sb) (signed sa ma + signed sb mb) oneMag with h | ⟨s, m, -, h⟩ <;> rw [h] <;> nofun

theorem fDiv_fOfNat_ne_nan {t : Fmt} {v : FVal} (hv : v ≠ .nan) {n : Nat} (hn : n ≠ 0) : fDiv t v (fOfNat n) ≠ .nan := by
  have hne : n * oneMag ≠ 0 := Nat.mul_ne_zero hn oneMag_pos.ne'
  cases v with
  | nan => exact absurd rfl hv
  | inf s => simp [fDiv, fOfNat]
  | fin s m =>
    rw [fOfNat, fDiv, if_neg hne]
    rcases roundReal_cases t (s != false) m (n * oneMag) with h | ⟨k, -, h⟩ <;> rw [h] <;> nofun

/-- The initial scale of finite extrema is infinite, or finite and not zero. -/
theorem nonzeroScale_initialScale (w : Width) (sMin sMax : Bool) (mMin mMax : Nat) :
    NonzeroScale (initialScale Numerics.ieee w (.fin sMin mMin) (.fin sMax mMax)) :=
  nonzeroScale_max32_eps (fDiv_fOfNat_ne_nan (fAdd_fin_ne_nan _ _ _ _ _) (nBins_ne_zero w))

theorem fRint_div_zero {scale : FVal} (h : NonzeroScale scale) (s : Bool) :
    ∃ s', fRint (fDiv .f32 (.fin s 0) scale) = .fin s' 0 := by
  rcases h with ⟨s', rfl⟩ | ⟨s', m, hm, rfl⟩
  · exact ⟨_, fRint_zero _⟩
  · exact ⟨_, (congrArg fRint (fDiv_zero .f32 s s' hm)).trans (fRint_zero _)⟩

/-- The rounded quotient of a finite datum by such a scale is infinite or an integer. -/
theorem fRint_div_cases {scale : FVal} (h : NonzeroScale scale) (s : Bool) (m : Nat) :
    (∃ s', fRint (fDiv .f32 (.fin s m) scale) = .inf s') ∨
    ∃ s' n, fRint (fDiv .f32 (.fin s m) scale) = .fin s' (n * oneMag) := by
  rcases h with ⟨s', rfl⟩ | ⟨s', k, hk, rfl⟩
  · exact .inr ⟨_, _, rfl⟩
  · rw [fDiv, if_neg hk]
    rcases roundReal_cases .f32 (s != s') m k with hinf | ⟨q, -, hfin⟩
    · exact .inl ⟨_, by rw [hinf, fRint]⟩
    · exact .inr ⟨_, _, by rw [hfin, fRint]⟩

/-! ### Rounding below a value of the format -/

theorem representable_lt_overflow {t : Fmt} {s : Bool} {mag : Nat} (h : representable t (.fin s mag)) :
    mag < overflowMag t := by
  obtain ⟨a, e, ha, he, rfl⟩ := (representable_fin_iff t s mag).1 h
  rw [overflowMag_eq]
  exact Nat.mul_lt_mul_of_pos_right (significand_lt_overflow ha he) (Nat.two_pow_pos _)

/-- What lies at or below a value of the format rounds to at most this value. -/
theorem roundMag_le_of_representable {t : Fmt} {s : Bool} {num den mag : Nat} (hd : 0 < den)
    (h : representable t (.fin s mag)) (hle : num * oneMag ≤ mag * den) : roundMag t num den ≤ mag := by
  obtain ⟨a, e, ha, -, rfl⟩ := (representable_fin_iff t s mag).1 h
  have hunits : num * 2 ^ leastExp t ≤ a * 2 ^ e * den := by
    have hone : oneMag = 2 ^ leastExp t * 2 ^ (unitExp - leastExp t) := by rw [← pow_add, leastExp_add_unit, oneMag]
    rw [hone, ← Nat.mul_assoc, Nat.mul_right_comm (a * 2 ^ e)] at hle
    exact Nat.le_of_mul_le_mul_right hle (Nat.two_pow_pos _)
  have hdist := (roundUnits_nearest (fracBits t) (num * 2 ^ leastExp t) hd ha (e := e)).1
  rw [roundMag_eq_roundUnits]
  refine Nat.mul_le_mul_right _ ?_
  by_contra hgt
  have hfar := Nat.mul_lt_mul_of_pos_right (not_le.1 hgt) hd
  rw [← Nat.cast_mul, ← Nat.cast_mul, abs_of_nonpos (by omega), abs_of_nonpos (by omega)] at hdist
  omega

theorem roundReal_le_of_representable {t : Fmt} {s : Bool} {num den mag : Nat} (hd : 0 < den)
    (h : representable t (.fin s mag)) (hle : num * oneMag ≤ mag * den) (neg : Bool) :
    ∃ m ≤ mag, roundReal t neg num den = .fin neg m := by
  have hmag := roundMag_le_of_representable hd h hle
  exact ⟨_, hmag, roundReal_of_fits neg (hmag.trans_lt (representable_lt_overflow h)).not_ge⟩

/-- An edge divided by an infinity or by an integer other than 0 is no larger, so it is finite in its own format. -/
theorem fCvt_edge_quotient {t : Fmt} {s : Bool} {m : Nat} (h : representable t (.fin s m)) {q : FVal}
    (hq : (∃ s', q = .inf s') ∨ ∃ s' n, n ≠ 0 ∧ q = .fin s' (n * oneMag)) :
    ∃ s' m', fCvt t (fDiv .f32 (.fin s m) q) = .fin s' m' := by
  rcases hq with ⟨s', rfl⟩ | ⟨s', n, hn, rfl⟩
  · exact ⟨s != s', 0, by rw [fDiv, fCvt, roundReal_zero]⟩
  · have hden : n * oneMag ≠ 0 := Nat.mul_ne_zero hn oneMag_pos.ne'
    have hquot : m * oneMag ≤ m * (n * oneMag) :=
      Nat.mul_le_mul_left m (Nat.le_mul_of_pos_left _ (Nat.pos_of_ne_zero hn))
    obtain ⟨k, hk, hdiv⟩ := roundReal_le_of_representable (Nat.pos_of_ne_zero hden)
      (representable_f32_of_representable h) hquot (s != s')
    obtain ⟨k', -, hcvt⟩ := roundReal_le_of_representable oneMag_pos h (Nat.mul_le_mul_right oneMag hk) (s != s')
    exact ⟨s != s', k', by rw [fDiv, if_neg hden, hdiv, fCvt, hcvt]⟩

/-- A zero added to a value of the format other than a zero gives this value. -/
theorem fAdd_zero_left {t : Fmt} {s : Bool} {m : Nat} (h : representable t (.fin s m)) (hm : m ≠ 0) (z : Bool) :
    fAdd t (.fin z 0) (.fin s m) = .fin s m := by
  have hsum : signed z 0 + signed s m = signed s m := by rw [(signed_eq_zero_iff z 0).2 rfl, zero_add]
  have hneg : decide (signed s m < 0) = s := by simp [signed_neg_iff hm]
  rw [fAdd, hsum, roundInt, if_neg (mt (signed_eq_zero_iff s m).1 hm), natAbs_signed, hneg, roundReal_exact h]

/-- Subtracting +0 from a binary32 value gives this value. -/
theorem fSub_plusZero {s : Bool} {m : Nat} (h : representable .f32 (.fin s m)) :
    fSub .f32 (.fin s m) (.fin false 0) = .fin s m := by
  rcases eq_or_ne m 0 with rfl | hm
  · rw [fSub_zeros, Bool.not_false, Bool.and_true]
  · have hsum : signed s m + signed true 0 = signed s m := by rw [(signed_eq_zero_iff true 0).2 rfl, add_zero]
    have hneg : decide (signed s m < 0) = s := by simp [signed_neg_iff hm]
    rw [fSub, fNeg, Bool.not_false, fAdd, hsum, roundInt, if_neg (mt (signed_eq_zero_iff s m).1 hm), natAbs_signed,
      hneg, roundReal_exact h]

/-- Dequantizing code 0 with a finite scale gives the bias. -/
theorem dequant_zero {t : Fmt} {scale : FVal} {s s' : Bool} {m m' : Nat} (hscale : fCvt t scale = .fin s' m')
    (h : representable t (.fin s m)) (hm : m ≠ 0) : dequant t 0 (fCvt t scale) (fCvt t (.fin s m)) = .fin s m := by
  have hcode : fCvt t (fOfNat (0 : Byte).toNat) = .fin false 0 := by
    rw [fCvt_of_representable (representable_code t 0), fOfNat, BitVec.ofNat_eq_ofNat, BitVec.toNat_ofNat,
      Nat.zero_mod, Nat.zero_mul]
  have hmul : fMul t (.fin false 0) (.fin s' m') = .fin (false != s') 0 := by
    rw [fMul, Nat.zero_mul, roundReal_zero]
  rw [dequant, hcode, hscale, hmul, fCvt_of_representable h, fAdd_zero_left h hm]

theorem groupParams_eq_refine {nm : Numerics} {w : Width} {ws : List FVal} {scale0 edge : FVal}
    (h : signAndEdge (extremum nm.min32 ws) (extremum nm.max32 ws)
      (initialScale nm w (extremum nm.min32 ws) (extremum nm.max32 ws)) = (scale0, edge)) :
    groupParams nm w ws = refine nm scale0 edge := by
  simp only [groupParams, h]

theorem exists_fin_of_representable {t : Fmt} {v : FVal} (h : representable t v) : ∃ s m, v = .fin s m := by
  obtain ⟨bits, -, hfin⟩ := h
  exact exists_fin_of_finite hfin

/-- The initial scale and the edge of a group of values of a format. -/
theorem signAndEdge_of_representable {t : Fmt} {w : Width} {ws : List FVal} {scale0 edge : FVal}
    (hmin : extremum min32 ws ∈ ws) (hmax : extremum max32 ws ∈ ws) (hrep : ∀ v ∈ ws, representable t v)
    (h : signAndEdge (extremum min32 ws) (extremum max32 ws)
      (initialScale Numerics.ieee w (extremum min32 ws) (extremum max32 ws)) = (scale0, edge)) :
    NonzeroScale scale0 ∧ edge ∈ ws := by
  refine ⟨?_, ?_⟩
  · obtain ⟨sMin, mMin, heqMin⟩ := exists_fin_of_representable (hrep _ hmin)
    obtain ⟨sMax, mMax, heqMax⟩ := exists_fin_of_representable (hrep _ hmax)
    have hinit := nonzeroScale_initialScale w sMin sMax mMin mMax
    rw [← heqMin, ← heqMax] at hinit
    rcases scale_of_signAndEdge h with rfl | rfl
    · exact hinit
    · exact hinit.neg
  · rcases edge_of_signAndEdge h with rfl | rfl
    · exact hmin
    · exact hmax

/-- Refinement with q0 not a zero anchors the edge. -/
theorem refine_of_isZero_eq_false {scale0 edge : FVal} (h : isZero (fRint (fDiv .f32 edge scale0)) = false) :
    refine Numerics.ieee scale0 edge = (fDiv .f32 edge (fRint (fDiv .f32 edge scale0)), edge) :=
  refine_of_ne_zero fun z hz => Bool.false_ne_true (h.symm.trans ((isZero_iff _).2 ⟨z, hz⟩))

/-- The edge is no zero where q0 is none, and then q0 is an infinity or an integer other than 0. -/
theorem edge_quotient_cases {scale0 : FVal} (hscale0 : NonzeroScale scale0) {s : Bool} {m : Nat}
    (hq0 : isZero (fRint (fDiv .f32 (.fin s m) scale0)) = false) :
    m ≠ 0 ∧ ((∃ s', fRint (fDiv .f32 (.fin s m) scale0) = .inf s') ∨
      ∃ s' n, n ≠ 0 ∧ fRint (fDiv .f32 (.fin s m) scale0) = .fin s' (n * oneMag)) := by
  refine ⟨?_, (fRint_div_cases hscale0 s m).imp_right fun ⟨s', n, h⟩ => ⟨s', n, ?_, h⟩⟩
  · rintro rfl
    exact Bool.false_ne_true (hq0.symm.trans ((isZero_iff _).2 (fRint_div_zero hscale0 s)))
  · rintro rfl
    exact Bool.false_ne_true (hq0.symm.trans ((isZero_iff _).2 ⟨s', by rw [h, Nat.zero_mul]⟩))

/-- Settles O47: the edge is an element of the group (`extremum_mem`), its code is 0 as it equals the bias
(`quantCode_self`), and the stored scale is finite (`fCvt_edge_quotient`), so code 0 gives the bias (`dequant_zero`). In
a constant group with q0 a zero, the quotient of an element is q0. -/
theorem anchorIsReproducedExactly : Obligations.AnchorIsReproducedExactly := by
  intro t w ws hne hrep scale0 edge scale bias hedge hparams
  have hmin : extremum min32 ws ∈ ws := extremum_mem (fun a b => (min32_spec a b).1) hne
  have hmax : extremum max32 ws ∈ ws := extremum_mem (fun a b => (max32_spec a b).1) hne
  have hrefine : refine Numerics.ieee scale0 edge = (scale, bias) := (groupParams_eq_refine hedge).symm.trans hparams
  obtain ⟨hscale0, hmem⟩ := signAndEdge_of_representable hmin hmax hrep hedge
  obtain ⟨s, m, rfl⟩ := exists_fin_of_representable (hrep _ hmem)
  have hanchor (hq0 : isZero (fRint (fDiv .f32 (.fin s m) scale0)) = false) :
      scale = fDiv .f32 (.fin s m) (fRint (fDiv .f32 (.fin s m) scale0)) ∧ bias = .fin s m :=
    Prod.mk.inj (hrefine.symm.trans (refine_of_isZero_eq_false hq0))
  refine ⟨fun hq0 => ?_, fun c hc => ?_⟩
  · obtain ⟨rfl, rfl⟩ := hanchor hq0
    obtain ⟨hm, hquot⟩ := edge_quotient_cases hscale0 hq0
    obtain ⟨s', m', hcvt⟩ := fCvt_edge_quotient (hrep _ hmem) hquot
    exact ⟨fun draw index => quantCode_self w draw index _ s m, dequant_zero hcvt (hrep _ hmem) hm⟩
  · obtain rfl : FVal.fin s m = c := hc _ hmem
    refine ⟨fun draw index => ?_, fun hq0 => (hanchor hq0).2⟩
    cases hq0 : isZero (fRint (fDiv .f32 (.fin s m) scale0)) with
    | false =>
      rw [(hanchor hq0).2]
      exact quantCode_self w draw index scale s m
    | true =>
      obtain ⟨z, hz⟩ := (isZero_iff _).1 hq0
      obtain ⟨rfl, rfl⟩ := Prod.mk.inj (hrefine.symm.trans (refine_of_zero (nm := Numerics.ieee) hz))
      refine quantCode_of_zero (s := z) ?_ draw index
      rw [fSub_plusZero (representable_f32_of_representable (hrep _ hmem)), hz]

end Sys2Proof.Machine

/-! PROOFS. QUANTIZE in flight stores the scale, the bias and the codes of every group (41_quantize.md R250, R257, R259):
the out buffers of a valid command are apart, so each block reads back as it was written. -/

namespace Sys2Proof.Machine

/-! ### Blocks that are apart -/

/-- Two ranges (base, length) have no address in common. -/
def RangesApart (p q : Nat × Nat) : Prop := ∀ x, ¬((p.1 ≤ x ∧ x < p.1 + p.2) ∧ q.1 ≤ x ∧ x < q.1 + q.2)

/-- The blocks have no address in common, two by two. -/
def BlocksApart (bs : List Block) : Prop := (bs.map fun b => (b.1, b.2.length)).Pairwise RangesApart

/-- The out buffers of a valid command have no address in common (60_exceptions.md R407). -/
theorem outBuffers_apart {i : Instr} {p : Params} {r : OperandRegs} (h : commandCheck i p r = none) :
    ((outBuffers i r).map fun o => (o.base, o.len)).Pairwise RangesApart := by
  have hover : overlapping (commandBuffers i r) = false := by
    rw [← Bool.not_eq_true]
    exact fun hover => not_errorApplies_of_valid h .overlap ((overlapping_iff _).1 hover)
  refine List.pairwise_map.2 (((disjoint_of_not_overlapping hover).filter _).imp_of_mem fun {b c} hb _ hbc x hx => ?_)
  have hout : (b.isOut || c.isOut) = true := by rw [(List.mem_filter.1 hb).2, Bool.true_or]
  exact hbc hout x ⟨(b.has_iff x).2 hx.1, (c.has_iff x).2 hx.2⟩

theorem blocksApart_of_sameRanges {bs : List Block} {os : List Buffer} (hs : sameRanges bs os)
    (ho : (os.map fun o => (o.base, o.len)).Pairwise RangesApart) : BlocksApart bs := by
  rw [BlocksApart, hs]
  exact ho

/-- Each of the blocks that are apart reads back as it was written. -/
theorem Memory.getElem?_setBlocks {b : Block} {j : Nat} (hj : j < b.2.length) : ∀ {m : Memory} {bs : List Block},
    m.wf = true → BlocksApart bs → b ∈ bs → some ((m.setBlocks bs).get (b.1 + j)) = b.2[j]?
  | _, [], _, _, hb => by cases hb
  | m, (a, bytes) :: bs, hm, hbs, hb => by
    obtain ⟨hc, hbs⟩ := List.pairwise_cons.1 hbs
    rcases List.mem_cons.1 hb with rfl | hb
    · rw [Memory.get_setBlocks_inside hm j hj fun d hd => ?_, List.getElem?_eq_getElem hj]
      rw [← Bool.not_eq_true, Block.covers_iff]
      exact fun hd' => hc _ (List.mem_map_of_mem hd) _ ⟨⟨Nat.le_add_right _ _, Nat.add_lt_add_left hj _⟩, hd'⟩
    · rw [Memory.setBlocks]
      exact Memory.getElem?_setBlocks hj (wf_setBytes a bytes hm) hbs hb

/-! ### Elements and codes of rows of bytes -/

/-- Row g of G rows of n bytes, where the row is a little-endian number. -/
theorem Memory.read_row {m : Memory} {base n G : Nat} {rows : Nat → List Byte} (hlen : ∀ g < G, (rows g).length = n)
    (hm : ∀ j < ((List.range G).flatMap rows).length, some (m.get (base + j)) = ((List.range G).flatMap rows)[j]?)
    {g v : Nat} (hg : g < G) (hv : rows g = bytesLE n v) : m.read (base + g * n) n = v % 2 ^ (8 * n) := by
  have htotal : ((List.range G).flatMap rows).length = G * n := by
    rw [length_flatMap_const rows n _ fun g hg => hlen g (List.mem_range.1 hg), List.length_range]
  rw [pow_mul]
  refine Memory.read_of_bytes m n _ v fun j hj => ?_
  rw [Nat.add_assoc, hm _ (htotal ▸ flat_lt hg hj), getElem?_flatMap_range rows n _ _ _ hlen hg hj, hv]

/-- N rows of b entries as one table. -/
theorem flatMap_range_range {β : Type} (h : Nat → Nat → List β) (b : Nat) : ∀ N : Nat,
    (List.range N).flatMap (fun g => (List.range b).flatMap (h g)) =
      (List.range (N * b)).flatMap fun p => h (p / b) (p % b)
  | 0 => by simp
  | N + 1 => by
    rw [List.range_succ, List.flatMap_append, flatMap_range_range h b N, Nat.succ_mul, List.range_add,
      List.flatMap_append, List.flatMap_singleton, List.flatMap_map]
    refine congrArg _ (List.flatMap_congr fun q hq => ?_)
    have hlt := List.mem_range.1 hq
    rw [Nat.mul_comm, Nat.mul_add_div (by omega), Nat.mul_add_mod, Nat.div_eq_of_lt hlt, Nat.mod_eq_of_lt hlt,
      Nat.add_zero]

/-- Code g·G + j of packed groups of G codes is code j of group g (41_quantize.md R257). -/
theorem codeOfBuffer_packGroups {m : Memory} {base N : Nat} {f : FloatFields} {codes : Nat → List Byte}
    (hc : ∀ g < N, ∀ c ∈ codes g, c.toNat < 2 ^ widthBits f.width)
    (hm : ∀ j < ((List.range N).flatMap fun g => packGroup f (codes g)).length,
      some (m.get (base + j)) = ((List.range N).flatMap fun g => packGroup f (codes g))[j]?)
    {g j : Nat} (hg : g < N) (hj : j < groupElems f.group) :
    codeOfBuffer m base f.width (g * groupElems f.group + j) = (codes g).getD j 0 := by
  obtain ⟨b, hb⟩ := packFactor_dvd_group f.width f.group
  have hpf := packFactor_pos f.width
  have hpacks : groupElems f.group / packFactor f.width = b := by rw [hb, Nat.mul_div_cancel_left _ hpf]
  have hq : j / packFactor f.width < b := Nat.div_lt_of_lt_mul (hb ▸ hj)
  have hindex : g * groupElems f.group + j =
      (g * b + j / packFactor f.width) * packFactor f.width + j % packFactor f.width := by
    rw [hb, Nat.add_mul, Nat.add_assoc, Nat.div_add_mod']
    ring
  have hmod : j % packFactor f.width < packFactor f.width := Nat.mod_lt _ hpf
  simp only [packGroup, hpacks, flatMap_range_range
    (fun g p => packBytes f.width ((codes g).drop (p * packFactor f.width) |>.take (packFactor f.width)))] at hm
  rw [hindex, codeOfBuffer_of_packs (N := N * b)
    (codes := fun p => (codes (p / b)).drop (p % b * packFactor f.width) |>.take (packFactor f.width))
    (fun p hp c hmem => ?_) (fun j hj => hm j ?_) (flat_lt hg hq) hmod]
  · have hdiv : (g * b + j / packFactor f.width) / b = g := by
      rw [Nat.mul_comm, Nat.mul_add_div (Nat.zero_lt_of_lt hq), Nat.div_eq_of_lt hq, Nat.add_zero]
    have hrem : (g * b + j / packFactor f.width) % b = j / packFactor f.width := by
      rw [Nat.mul_comm, Nat.mul_add_mod, Nat.mod_eq_of_lt hq]
    rw [hdiv, hrem, List.getD_eq_getElem?_getD, List.getElem?_take_of_lt hmod, List.getElem?_drop, Nat.div_add_mod',
      List.getD_eq_getElem?_getD]
  · exact hc _ (Nat.div_lt_of_lt_mul (Nat.mul_comm b N ▸ hp)) c (List.mem_of_mem_drop (List.mem_of_mem_take hmem))
  · rwa [length_flatMap_const _ (bytesPerPack f.width) _ (fun _ _ => length_packBytes _ _), List.length_range]

/-! ### One group -/

section Group

variable (nm : Numerics) (f : FloatFields) (r : OperandRegs) (draw : Nat) (m : Memory) (g : Nat)

/-- A finite group: its codes, and its stored scale and bias. -/
theorem quantizeGroup_of_finite (h : groupNonFinite f r m g = false) {scale bias : FVal}
    (hp : groupParams nm f.width (groupInputs nm f r m g) = (scale, bias)) :
    quantizeGroup nm f r draw m g =
      { codes := quantCodes nm f.width draw scale bias (g * groupElems f.group) (groupInputs nm f r m g)
        scale := storeBytes f.fmt draw (scaleAddr f r g) (nm.cvt f.fmt scale)
        bias := storeBytes f.fmt draw (biasAddr f r g) (nm.cvt f.fmt bias) } := by
  simp only [quantizeGroup, h, if_neg Bool.false_ne_true, hp]

theorem quantCodes_le (w : Width) (scale bias : FVal) (index : Nat) (vs : List FVal) :
    ∀ c ∈ quantCodes nm w draw scale bias index vs, c.toNat ≤ nBins w := by
  intro c hc
  obtain ⟨j, hj⟩ := List.mem_iff_getElem?.1 hc
  rw [getElem?_quantCodes, Option.map_eq_some_iff] at hj
  obtain ⟨v, -, rfl⟩ := hj
  exact quantCode_le nm w draw _ scale bias v

/-- Every code of a group, finite or not, is in range (41_quantize.md R256, R258). -/
theorem codes_quantizeGroup_lt : ∀ c ∈ (quantizeGroup nm f r draw m g).codes, c.toNat < 2 ^ widthBits f.width := by
  intro c hc
  refine Nat.lt_of_le_pred (Nat.two_pow_pos _) ?_
  cases h : groupNonFinite f r m g with
  | true =>
    rw [quantizeGroup, h, if_pos rfl, freeGroup, List.mem_map] at hc
    obtain ⟨j, -, rfl⟩ := hc
    exact freeCode_le f.width draw _
  | false =>
    rw [quantizeGroup_of_finite nm f r draw m g h rfl] at hc
    exact quantCodes_le nm draw f.width _ _ _ _ c hc

theorem getElem?_groupInputs {j : Nat} (hj : j < groupElems f.group) : (groupInputs nm f r m g)[j]? =
    some (nm.cvt .f32 (loadFmt m f.fmt (r.xAddr.toNat + (g * groupElems f.group + j) * fmtSize f.fmt))) := by
  rw [groupInputs, List.getElem?_map, List.getElem?_range hj, Option.map_some]

end Group

/-! ### The command -/

section Blocks

variable (nm : Numerics) (f : FloatFields) (r : OperandRegs) (draw : Nat) (m : Memory)

/-- QUANTIZE's blocks, each as one table over the groups. -/
theorem quantizeBlocks_eq : quantizeBlocks nm f r draw m =
    [ (r.wAddr.toNat, (List.range (matrixSize r / groupElems f.group)).flatMap fun g =>
        packGroup f (quantizeGroup nm f r draw m g).codes),
      (r.sAddr.toNat, (List.range (matrixSize r / groupElems f.group)).flatMap fun g =>
        (quantizeGroup nm f r draw m g).scale),
      (r.bAddr.toNat, (List.range (matrixSize r / groupElems f.group)).flatMap fun g =>
        (quantizeGroup nm f r draw m g).bias) ] := by
  simp only [quantizeBlocks, List.flatMap_map]

variable {nm f r draw m}

/-- What QUANTIZE stores of a finite group, its blocks being apart. -/
theorem setBlocks_quantizeBlocks_group (hm : m.wf = true) (ha : BlocksApart (quantizeBlocks nm f r draw m)) {g : Nat}
    (hg : g < matrixSize r / groupElems f.group) (hfin : groupNonFinite f r m g = false) {scale bias : FVal}
    (hp : groupParams nm f.width (groupInputs nm f r m g) = (scale, bias)) :
    (m.setBlocks (quantizeBlocks nm f r draw m)).read (scaleAddr f r g) (fmtSize f.fmt) =
        encodeFmt f.fmt (Config.freeNaN draw (scaleAddr f r g)) (nm.cvt f.fmt scale) % 2 ^ (8 * fmtSize f.fmt) ∧
      (m.setBlocks (quantizeBlocks nm f r draw m)).read (biasAddr f r g) (fmtSize f.fmt) =
        encodeFmt f.fmt (Config.freeNaN draw (biasAddr f r g)) (nm.cvt f.fmt bias) % 2 ^ (8 * fmtSize f.fmt) ∧
      ∀ j < groupElems f.group,
        codeOfBuffer (m.setBlocks (quantizeBlocks nm f r draw m)) r.wAddr.toNat f.width (g * groupElems f.group + j) =
          quantCode nm f.width draw (g * groupElems f.group + j) scale bias
            (nm.cvt .f32 (loadFmt m f.fmt (r.xAddr.toNat + (g * groupElems f.group + j) * fmtSize f.fmt))) := by
  have hgroup := quantizeGroup_of_finite nm f r draw m g hfin hp
  rw [quantizeBlocks_eq] at ha ⊢
  refine ⟨?_, ?_, fun j hj => ?_⟩
  · refine Memory.read_row (fun g _ => length_group_scale nm f r draw m g)
      (fun j hj => Memory.getElem?_setBlocks (b := (_, _)) hj hm ha (.tail _ (.head _))) hg ?_
    rw [hgroup]
    rfl
  · refine Memory.read_row (fun g _ => length_group_bias nm f r draw m g)
      (fun j hj => Memory.getElem?_setBlocks (b := (_, _)) hj hm ha (.tail _ (.tail _ (.head _)))) hg ?_
    rw [hgroup]
    rfl
  · rw [codeOfBuffer_packGroups (fun g _ => codes_quantizeGroup_lt nm f r draw m g)
      (fun j hj => Memory.getElem?_setBlocks (b := (_, _)) hj hm ha (.head _)) hg hj, hgroup,
      List.getD_eq_getElem?_getD, getElem?_quantCodes, getElem?_groupInputs nm f r m g hj, Option.map_some,
      Option.getD_some]

end Blocks

/-- Settles O48: the groups by `setBlocks_quantizeBlocks_group`, the frame by `get_setBlocks_of_ranges`. -/
theorem quantizeStoresEveryGroup : Obligations.QuantizeStoresEveryGroup := by
  intro s r bits gsize dtype f hi hr hf
  obtain ⟨bs, hbs, hs, hexec⟩ := exec_inFlight_blocks hi hr
  rw [commandBlocks_quantize hf, Option.some.injEq] at hbs
  subst hbs
  rw [simd_of_inFlight hi hr] at hexec
  have hapart := blocksApart_of_sameRanges hs (outBuffers_apart (valid_of_inFlight hi hr))
  refine ⟨_, hexec, fun g hg hfin scale bias hp => setBlocks_quantizeBlocks_group hi.memWf hapart hg hfin hp,
    fun i _ => Nat.le_pred_of_lt (codeAt_lt _ _ _), fun x hx => get_setBlocks_of_ranges hs hx⟩

end Sys2Proof.Machine
